-- ==== Sys2Proof/Word.lean ====
section
/-! DEFINITION. The word types of the block: the 64-bit operation word (30_encoding.md R70), the
binary32 value as its 32-bit pattern (00_scope.md R10), a byte, and a chunk (00_scope.md R9). -/

namespace Sys2Proof

/-- One byte of a serialised value (20_memory.md R54). -/
abbrev Byte := BitVec 8

/-- The 64-bit operation word (R70). -/
abbrev OpWord := BitVec 64

/-- A binary32 value, held as its bit pattern: sign bit 31, exponent 30:23, fraction 22:0 (R10). -/
abbrev F32 := BitVec 32

/-- A chunk of samples, the earliest sample first (R9).
That a chunk has exactly N samples (R5) is an invariant of the machine (`Safety.lean`), since N is a
parameter. -/
abbrev Chunk := List F32

/-- The list of k values +0.0 (R9). -/
abbrev zeros (k : Nat) : List F32 := List.replicate k 0#32

end Sys2Proof
end

