-- ==== Sys2Proof/Machine/Format.lean ====
section
/-! DEFINITION. The binary32 format (00_scope.md R10): the fields of a bit pattern, the kinds of value, and
the exact value of a finite pattern as an integer in units of 2^-149. -/

namespace Sys2Proof.Machine

/-- The sign bit. -/
def isNeg (x : F32) : Bool := x.getLsbD 31

/-- The biased exponent, bits 30:23. -/
def expField (x : F32) : Nat := x.toNat / 2 ^ 23 % 256

/-- The fraction, bits 22:0. -/
def fracField (x : F32) : Nat := x.toNat % 2 ^ 23

/-- NaN: exponent all ones, fraction not zero. -/
def isNan (x : F32) : Bool := expField x == 255 && fracField x != 0

/-- ±∞: exponent all ones, fraction zero. -/
def isInf (x : F32) : Bool := expField x == 255 && fracField x == 0

/-- Neither NaN nor ±∞. -/
def isFinite (x : F32) : Bool := expField x != 255

/-- ±0.0. -/
def isZero (x : F32) : Bool := x.toNat % 2 ^ 31 == 0

/-- A quiet NaN: a NaN with fraction bit 22 set.
R13 does not say which bit makes a NaN quiet: bit 22 is what IEEE 754 recommends (PRESUMED, log
entry 24). -/
def isQuietNan (x : F32) : Bool := isNan x && x.getLsbD 22

/-- The magnitude in units of 2^-149, exact for every finite value.
On ±∞ the same formula gives 2^277, above every finite magnitude, which is the order R15 wants. -/
def magnitude (x : F32) : Nat :=
  if expField x = 0 then fracField x else (fracField x + 2 ^ 23) * 2 ^ (expField x - 1)

/-- The signed value in units of 2^-149. -/
def signedValue (x : F32) : Int :=
  if isNeg x then -(magnitude x : Int) else (magnitude x : Int)

/-- The value as a rational number, for claims about reals. -/
def ratValue (x : F32) : Rat := (signedValue x : Rat) / (2 ^ 149 : Rat)

end Sys2Proof.Machine
end

