-- ==== Sys2Proof/Syntax.lean ====
section
/-! DEFINITION. What can be put on the block's ports: the 21 operations of 30_encoding.md R73 with
their operands as 30_encoding.md R75 reads them, a request (one operation word and its payload), and
the inputs the outside world gives the block. -/

namespace Sys2Proof

/-- The four ports (44_chain.md R180). -/
inductive Port
  | command
  | capture
  | playback
  | direct
deriving DecidableEq, Repr, Inhabited

/-- The operating mode strap (60_exceptions.md R244). -/
inductive Mode
  | chain
  | direct
deriving DecidableEq, Repr, Inhabited

/-- The IF FilterSpecs (10_state.md R22). -/
inductive IfSpec
  | k3
  | k6
  | k11
  | none
deriving DecidableEq, Repr, Inhabited

/-- The AF FilterSpecs: AF has no None (10_state.md R23). -/
inductive AfSpec
  | k3
  | k6
  | k11
deriving DecidableEq, Repr, Inhabited

/-- The AGCSpecs, TC0 the fastest and TC4 the slowest (10_state.md R25). -/
inductive AgcSpec
  | tc0
  | tc1
  | tc2
  | tc3
  | tc4
  | none
deriving DecidableEq, Repr, Inhabited

/-- The operations, one constructor per row of the opcode table (R73).
The payload chunk is not part of the operation word, so it is no argument here: it stands in the
request (`Request.payload`). -/
inductive Instr
  /-- CMD.AM n: the 32 bits of the selector, read as `i32` (R75). -/
  | cmdAm (n : BitVec 32)
  /-- CMD.AGC n -/
  | cmdAgc (n : BitVec 32)
  /-- CMD.AF n -/
  | cmdAf (n : BitVec 32)
  /-- CMD.RSSI h: the sink handle, 0 meaning None. -/
  | cmdRssi (h : BitVec 32)
  /-- CMD.IFOUT h -/
  | cmdIfout (h : BitVec 32)
  /-- CMD.END -/
  | cmdEnd
  /-- FIR.SEL.IF code -/
  | firSelIf (spec : IfSpec)
  /-- FIR.SEL.AF code -/
  | firSelAf (spec : AfSpec)
  /-- FIR.RUN.IF, payload one chunk -/
  | firRunIf
  /-- FIR.RUN.AF, payload one chunk -/
  | firRunAf
  /-- AGC.SEL code -/
  | agcSel (spec : AgcSpec)
  /-- AGC.RUN, payload one chunk -/
  | agcRun
  /-- ENV.RUN, payload one chunk -/
  | envRun
  /-- NCO.INIT f: the frequency's bit pattern. -/
  | ncoInit (f : F32)
  /-- NCO.GEN -/
  | ncoGen
  /-- RB.PUSH, payload one chunk -/
  | rbPush
  /-- RB.POP -/
  | rbPop
  /-- RB.FILL L, C: C channels, L output samples. -/
  | rbFill (c : BitVec 8) (l : BitVec 32)
  /-- IF.SEND, payload one chunk -/
  | ifSend
  /-- IF.CLOSE -/
  | ifClose
  /-- CSR.READ a -/
  | csrRead (a : BitVec 16)
deriving DecidableEq, Repr, Inhabited

/-- One request on a port: an operation word and its payload (R70, R79). -/
structure Request where
  word : OpWord
  payload : Chunk
deriving DecidableEq, Repr, Inhabited

/-- One input of the outside world.
The order in which the agents step is free (20_memory.md R58, R60), so it is an input too: each
input but an arrival gives one agent its turn, or asserts reset. -/
inductive EnvInput
  /-- A request arrives on a port and waits there its turn (R58). -/
  | arrive (p : Port) (r : Request)
  /-- The agent of a port takes a step on the oldest request waiting there (R58). -/
  | port (p : Port)
  /-- The sequencer takes a step; the two draws are `fail_1` and `fail_2` of 44_chain.md R203. -/
  | sequencer (fail1 fail2 : Bool)
  /-- The external reset signal is asserted (70_reset_and_hazards.md R260). -/
  | reset
deriving DecidableEq, Repr, Inhabited

end Sys2Proof
end

