-- ==== Sys2Proof/Config.lean ====
section
/-! DEFINITION. The implementation parameters (00_scope.md section 4) and the free values.
A parameter that is plain data is a field of `Params`; the machine's state carries one `Params` record
that no step writes, so every claim over all states is a claim over all parameters (log entry 1). What
the spec leaves free is an opaque constant here: no proof can see its value. -/

namespace Sys2Proof

/-- Three binary32 values: an AGC smoothing table, or the AGC history, oldest entry first (R25, R53). -/
structure Taps where
  t0 : F32
  t1 : F32
  t2 : F32
deriving DecidableEq, Repr, Inhabited

/-- The list of the three, index 0 the oldest. -/
def Taps.toList (t : Taps) : List F32 := [t.t0, t.t1, t.t2]

/-- The parameters of 00_scope.md section 4 that are plain data.
CAP, FLOOR, HEADROOM, TWO_PI, COEF(IF,None) and AGCTAB(None) are not here: the spec fixes them. -/
structure Params where
  /-- N, samples per chunk. -/
  n : Nat
  /-- FS, the sampling rate the NCO uses. -/
  fs : F32
  /-- COEF(IF,3k); its length is T(IF,3k). -/
  ifTab3k : List F32
  /-- COEF(IF,6k) -/
  ifTab6k : List F32
  /-- COEF(IF,11k) -/
  ifTab11k : List F32
  /-- COEF(AF,3k) -/
  afTab3k : List F32
  /-- COEF(AF,6k) -/
  afTab6k : List F32
  /-- COEF(AF,11k) -/
  afTab11k : List F32
  /-- AGCTAB(TC0) -/
  agcTab0 : Taps
  /-- AGCTAB(TC1) -/
  agcTab1 : Taps
  /-- AGCTAB(TC2) -/
  agcTab2 : Taps
  /-- AGCTAB(TC3) -/
  agcTab3 : Taps
  /-- AGCTAB(TC4) -/
  agcTab4 : Taps
  /-- MODE, the mode strap. -/
  mode : Mode
  /-- RESET_IF -/
  resetIf : IfSpec
  /-- RESET_AGC -/
  resetAgc : AgcSpec
  /-- RESET_AF; its type has no None (70_reset_and_hazards.md R263). -/
  resetAf : AfSpec
deriving DecidableEq, Repr, Inhabited

/-- A coefficient table has 1 ≤ T ≤ 4096 taps (R263). -/
def tapsLegal (c : List F32) : Bool := decide (1 ≤ c.length) && decide (c.length ≤ 4096)

/-- An AGC table whose taps sum to 1 within rounding (R263, 41_agc.md R126): finite taps whose exact sum
is at most 2^-23, one unit in the last place of 1.0, away from 1 (DESIGN CHOICE, log entry 23). -/
def Taps.sumsToOne (t : Taps) : Bool :=
  Machine.isFinite t.t0 && Machine.isFinite t.t1 && Machine.isFinite t.t2 &&
  decide ((Machine.signedValue t.t0 + Machine.signedValue t.t1 + Machine.signedValue t.t2
    - 2 ^ 149).natAbs ≤ 2 ^ 126)

/-- The constraints of R263: 1 ≤ N ≤ 2^24, FS finite and > 0, 1 ≤ T(r,s) ≤ 4096, and each AGCTAB(TCk)
sums to 1 within rounding.
RESET_AF ≠ None holds by its type. -/
def Params.wf (c : Params) : Bool :=
  decide (1 ≤ c.n) && decide (c.n ≤ 2 ^ 24) &&
  decide (0 < c.fs.toNat) && decide (c.fs.toNat < 0x7F800000) &&
  tapsLegal c.ifTab3k && tapsLegal c.ifTab6k && tapsLegal c.ifTab11k &&
  tapsLegal c.afTab3k && tapsLegal c.afTab6k && tapsLegal c.afTab11k &&
  c.agcTab0.sumsToOne && c.agcTab1.sumsToOne && c.agcTab2.sumsToOne && c.agcTab3.sumsToOne &&
  c.agcTab4.sumsToOne

/-! ## The open parameters of the machine that `State.reset` is the reset of (log entry 2) -/

/-- Draws N − 1, so N takes every value of 1..2^24. -/
opaque Config.chunkSizeDraw : BitVec 24
/-- Draws FS among the finite patterns above +0.0. -/
opaque Config.rateDraw : BitVec 32
/-- Draws the first tap of a table: rows 0, 1, 2 are IF 3k, 6k, 11k and rows 3, 4, 5 AF 3k, 6k, 11k. -/
opaque Config.firstTap : Fin 6 → F32
/-- Draws the further taps of a table. -/
opaque Config.moreTaps : Fin 6 → List F32
/-- Draws AGCTAB(TC0) to AGCTAB(TC4), before the constraint of R263 is put on them. -/
opaque Config.agcTable : Fin 5 → Taps
/-- Draws MODE. -/
opaque Config.modeStrap : Mode
/-- Draws RESET_IF. -/
opaque Config.resetIf : IfSpec
/-- Draws RESET_AGC. -/
opaque Config.resetAgc : AgcSpec
/-- Draws RESET_AF. -/
opaque Config.resetAf : AfSpec

/-- The table of a row: any list of 1 to 4096 values. -/
def Config.table (r : Fin 6) : List F32 := Config.firstTap r :: (Config.moreTaps r).take 4095

/-- AGCTAB(TCk): the draw where it sums to 1 within rounding, so any table that does; where the draw does
not, the table [0, 0, 1]. -/
def Config.agcTaps (k : Fin 5) : Taps :=
  if (Config.agcTable k).sumsToOne then Config.agcTable k else ⟨0#32, 0#32, 0x3F800000#32⟩

/-- The parameters the platform fixes before reset is released (R263): every value R263 allows, and
no other. -/
def Config.params : Params where
  n := Config.chunkSizeDraw.toNat + 1
  fs := BitVec.ofNat 32 (Config.rateDraw.toNat % 0x7F7FFFFF + 1)
  ifTab3k := Config.table 0
  ifTab6k := Config.table 1
  ifTab11k := Config.table 2
  afTab3k := Config.table 3
  afTab6k := Config.table 4
  afTab11k := Config.table 5
  agcTab0 := Config.agcTaps 0
  agcTab1 := Config.agcTaps 1
  agcTab2 := Config.agcTaps 2
  agcTab3 := Config.agcTaps 3
  agcTab4 := Config.agcTaps 4
  mode := Config.modeStrap
  resetIf := Config.resetIf
  resetAgc := Config.resetAgc
  resetAf := Config.resetAf

/-! ## Free values -/

/-- SIN32, the sine function the NCO applies: a total function on binary32 (42_nco.md R145; log
entry 6). -/
opaque Config.sin32 : F32 → F32

/-- Which arithmetic operation of a run a NaN draw belongs to: the step (its `tick`), the stage within
the step, the sample within the stage and the operation within the sample.
No two operations of a run share a site, so the draw is free at every operation (00_scope.md R13; log
entry 3). -/
structure DrawSite where
  tick : Nat
  stage : Nat
  sample : Nat
  op : Nat
deriving DecidableEq, Repr, Inhabited

/-- Draws the sign (bit 22 of the draw) and the 22 payload bits of the quiet NaN of an operation (R13); the
fraction bit that makes it quiet is not drawn (log entry 24). -/
opaque Config.nanDraw : DrawSite → BitVec 23

/-- What a ring-buffer slot holds that nothing has written since reset (10_state.md R44: "unspecified
(any f32)"; log entry 5). -/
opaque Config.rbUnwritten : Nat → F32

/-- What the outside world does at step number k once the inputs listed in the state are used up: any
arrival, any agent's turn with any failure draws, or reset (20_memory.md R58, R60; log entry 4). -/
opaque Config.envDraw : Nat → EnvInput

end Sys2Proof
end

