-- ==== Sys2Proof/Machine/Operands.lean ====
section
/-! DEFINITION. The operand forms and the constants an operand selects: the integer selectors of
the three command lines (44_chain.md R188 to R190), the coefficient ROM (20_memory.md R53) and the
fixed constants of 00_scope.md section 4. -/

namespace Sys2Proof

/-! ## Fixed constants (00_scope.md section 4, R4) -/

/-- FLOOR, 0.01. -/
def floorLevel : F32 := 0x3C23D70A#32
/-- HEADROOM, 0.8. -/
def headroom : F32 := 0x3F4CCCCD#32
/-- TWO_PI. -/
def twoPi : F32 := 0x40C90FDB#32
/-- The binary32 value 0.5. -/
def half : F32 := 0x3F000000#32
/-- The binary32 value 1.0. -/
def one : F32 := 0x3F800000#32
/-- The binary32 value 2.0. -/
def two : F32 := 0x40000000#32

/-- CAP = 2·N, the ring buffer's capacity in samples (R4). -/
def Params.cap (c : Params) : Nat := 2 * c.n

/-! ## Coefficient ROM (R53) -/

/-- ROM(IF, s): COEF(IF,None) is the fixed table [1.0]. -/
def Params.ifRom (c : Params) : IfSpec → List F32
  | .k3 => c.ifTab3k
  | .k6 => c.ifTab6k
  | .k11 => c.ifTab11k
  | .none => [one]

/-- ROM(AF, s). -/
def Params.afRom (c : Params) : AfSpec → List F32
  | .k3 => c.afTab3k
  | .k6 => c.afTab6k
  | .k11 => c.afTab11k

/-- AGCROM(k): AGCTAB(None) is all zero. -/
def Params.agcRom (c : Params) : AgcSpec → Taps
  | .tc0 => c.agcTab0
  | .tc1 => c.agcTab1
  | .tc2 => c.agcTab2
  | .tc3 => c.agcTab3
  | .tc4 => c.agcTab4
  | .none => ⟨0#32, 0#32, 0#32⟩

/-- T(IF, s), the tap count. -/
def Params.ifTaps (c : Params) (k : IfSpec) : Nat := (c.ifRom k).length

/-- T(AF, s), the tap count. -/
def Params.afTaps (c : Params) (k : AfSpec) : Nat := (c.afRom k).length

/-! ## Integer selectors (R8, R75) -/

/-- `i32`: a 32-bit pattern as a two's-complement integer (R8). -/
def i32 (v : BitVec 32) : Int := v.toInt

/-- `decodeAM` (R188). -/
def decodeAm (n : Int) : IfSpec :=
  if n ≤ 4 then .k3 else if n ≤ 8 then .k6 else if n ≤ 13 then .k11 else .none

/-- `decodeAF` (R189). -/
def decodeAf (n : Int) : AfSpec :=
  if n ≤ 4 then .k3 else if n ≤ 8 then .k6 else .k11

/-- `decodeAGC` (R190). -/
def decodeAgc (n : Int) : AgcSpec :=
  if n < 0 then .none else if n = 0 then .tc0 else if n = 1 then .tc1 else if n = 2 then .tc2
  else if n = 3 then .tc3 else .tc4

end Sys2Proof
end

