-- ==== Sys2Proof/Machine/Binary32.lean ====
section
/-! DEFINITION. IEEE 754 binary32 arithmetic, rounded to nearest, ties to even, subnormals kept, no
exception flags and no fused operation (00_scope.md R10 to R15).
Every finite value is an integer multiple of 2^-149, so an operation reads its operands as exact
integers in that unit, computes exactly, and rounds once at the end. -/

namespace Sys2Proof

/-! ## Sites of a step's operations -/

/-- The site of operation number k of the same sample. -/
def DrawSite.atOp (d : DrawSite) (k : Nat) : DrawSite := { d with op := k }

/-- The first site of the next sample. -/
def DrawSite.nextSample (d : DrawSite) : DrawSite := { d with sample := d.sample + 1, op := 0 }

/-- The first site of a stage of a step. -/
def stageSite (tick stage : Nat) : DrawSite := ⟨tick, stage, 0, 0⟩

namespace Machine

/-! ## Rounding (R11, R12) -/

/-- The bits 30:0 of the binary32 magnitude nearest to p/q units of 2^-149, ties to even, for q > 0.
The quantum of the result is 2^e units with e chosen so that the integer part has at most 24 bits (e = 0
covers the subnormals); a carry out of the 24 bits moves into the exponent by itself, and a result past
the largest finite value is +∞. -/
def roundMagnitude (p q : Nat) : Nat :=
  let e := (p / q).log2 - 23
  let d := q * 2 ^ e
  let m := p / d
  let r := p % d
  let up : Nat := if d < 2 * r ∨ (2 * r = d ∧ m % 2 = 1) then 1 else 0
  min (e * 2 ^ 23 + (m + up)) 0x7F800000

/-- A value from its sign and the bits 30:0 of its magnitude. -/
def packValue (neg : Bool) (bits : Nat) : F32 :=
  BitVec.ofNat 32 (bits + if neg then 2 ^ 31 else 0)

/-- +∞ or −∞. -/
def infinity (neg : Bool) : F32 := packValue neg 0x7F800000

/-- Zero of either sign. -/
def signedZero (neg : Bool) : F32 := packValue neg 0

/-- The binary32 value nearest to an exact sum in units of 2^-149; an exact zero takes the sign
given. -/
def roundSum (zeroNeg : Bool) (z : Int) : F32 :=
  packValue (if z = 0 then zeroNeg else decide (z < 0)) (roundMagnitude z.natAbs 1)

/-- `f32(k)`, the binary32 value of a natural number (00_scope.md section 5). -/
def natValue (k : Nat) : F32 := packValue false (roundMagnitude (k * 2 ^ 149) 1)

/-! ## NaN results (R13) -/

/-- The quiet NaN of a sign bit and 22 payload bits, fraction bit 22 set (PRESUMED, log entry 24). -/
def quietNan (v : BitVec 23) : F32 :=
  v.extractLsb' 22 1 ++ 0xFF#8 ++ 1#1 ++ v.extractLsb' 0 22

/-- NANQ, the quiet NaN that the operation at a site returns when its result is NaN: free at every
operation (R13; log entry 3). -/
def nanq (d : DrawSite) : F32 := quietNan (Config.nanDraw d)

/-! ## The operations (R11, R14, R15)

Each takes the site of its NaN draw first. -/

/-- `fadd` -/
def fadd (d : DrawSite) (a b : F32) : F32 :=
  if isNan a || isNan b then nanq d
  else if isInf a then (if isInf b && isNeg a != isNeg b then nanq d else a)
  else if isInf b then b
  else roundSum (isNeg a && isNeg b) (signedValue a + signedValue b)

/-- x with its sign bit inverted. -/
def fneg (x : F32) : F32 := x ^^^ 0x80000000#32

/-- `fsub` -/
def fsub (d : DrawSite) (a b : F32) : F32 := fadd d a (fneg b)

/-- `fmul` -/
def fmul (d : DrawSite) (a b : F32) : F32 :=
  let neg := isNeg a != isNeg b
  if isNan a || isNan b then nanq d
  else if isInf a then (if isZero b then nanq d else infinity neg)
  else if isInf b then (if isZero a then nanq d else infinity neg)
  else packValue neg (roundMagnitude (magnitude a * magnitude b) (2 ^ 149))

/-- `fdiv` -/
def fdiv (d : DrawSite) (a b : F32) : F32 :=
  let neg := isNeg a != isNeg b
  if isNan a || isNan b then nanq d
  else if isInf a then (if isInf b then nanq d else infinity neg)
  else if isInf b then signedZero neg
  else if isZero b then (if isZero a then nanq d else infinity neg)
  else packValue neg (roundMagnitude (magnitude a * 2 ^ 149) (magnitude b))

/-- `fabs` clears bit 31 and changes no other bit (R14). -/
def fabs (x : F32) : F32 := x &&& 0x7FFFFFFF#32

/-- `fgt`: false when either operand is NaN, else the order of the real numbers with −∞ and +∞ at its
ends (R15). -/
def fgt (a b : F32) : Bool :=
  !isNan a && !isNan b && decide (signedValue b < signedValue a)

/-! ## Sums (R16, R17) -/

/-- The tail of a dot product: add the remaining products to the accumulator, left to right; the site
names the next operation. -/
def dotFrom (d : DrawSite) (acc : F32) : List F32 → List F32 → F32
  | h :: hs, c :: cs =>
    dotFrom (d.atOp (d.op + 2)) (fadd (d.atOp (d.op + 1)) acc (fmul d h c)) hs cs
  | _, _ => acc

/-- `dot(h, c)`, left to right and seeded with the first product (R16).
The empty product, which no table has (T ≥ 1), is +0.0 (log entry 11). -/
def dot (d : DrawSite) : List F32 → List F32 → F32
  | h :: hs, c :: cs => dotFrom (d.atOp (d.op + 1)) (fmul d h c) hs cs
  | _, _ => 0#32

/-- The tail of the sum of absolute values. -/
def absSumFrom (d : DrawSite) (acc : F32) : List F32 → F32
  | x :: xs => absSumFrom (d.atOp (d.op + 1)) (fadd d acc (fabs x)) xs
  | [] => acc

/-- The sum of |x[i]|, left to right from |x[0]| (R17). -/
def absSum (d : DrawSite) : Chunk → F32
  | x :: xs => absSumFrom d (fabs x) xs
  | [] => 0#32

/-- `meanabs(x)` for chunks of n samples (R17); the division's site is in sample 1 of the stage. -/
def meanAbs (d : DrawSite) (n : Nat) (x : Chunk) : F32 :=
  fdiv d.nextSample (absSum d x) (natValue n)

/-- Apply a per-sample map, each sample with its own site. -/
def mapSamples (f : DrawSite → F32 → F32) (d : DrawSite) : Chunk → Chunk
  | [] => []
  | x :: xs => f d x :: mapSamples f d.nextSample xs

end Machine

end Sys2Proof
end

