-- ==== Sys2Proof/WellFormed.lean ====
section
/-! DEFINITION. The operand constraint that the operand types do not already express: RB.FILL's
channel count is 1..255 (30_encoding.md R71, R75). FIR.SEL.AF has no None and AGC.SEL no codes 6 and 7
because `AfSpec` and `AgcSpec` have no such members. -/

namespace Sys2Proof

/-- A term that stands for a legal encoding (R75: "C = SUB, C = 0 illegal"). -/
def Instr.wf : Instr → Bool
  | .rbFill c _ => c != 0#8
  | .cmdAm _ | .cmdAgc _ | .cmdAf _ | .cmdRssi _ | .cmdIfout _ | .cmdEnd => true
  | .firSelIf _ | .firSelAf _ | .firRunIf | .firRunAf => true
  | .agcSel _ | .agcRun | .envRun | .ncoInit _ | .ncoGen => true
  | .rbPush | .rbPop | .ifSend | .ifClose | .csrRead _ => true

end Sys2Proof
end

