-- ==== Sys2Proof/Decode.lean ====
section
/-! DEFINITION. The decoder of 30_encoding.md R71 to R78, total on any bytes and rejecting by name,
and after it the encoder, both written from R71 and R73. -/

namespace Sys2Proof

/-- Why a word is no legal encoding of an operation (R72, R75, R77). -/
inductive DecodeError
  /-- The bytes are not the 8 bytes of one operation word (R54, R70). -/
  | notEightBytes
  /-- OP is not in the table of R73. -/
  | reservedOp
  /-- RES is not zero (R72). -/
  | resNotZero
  /-- SUB is not zero for an operation other than RB.FILL (R72). -/
  | subNotZero
  /-- A bit of ARG that must be zero is not (R75). -/
  | argNotZero
  /-- The spec code is not legal for the operation (R75: AF code 3, AGC codes 6 and 7). -/
  | illegalCode
  /-- RB.FILL with C = 0 (R75). -/
  | zeroChannels
deriving DecidableEq, Repr

/-! ## The fields of the operation word (R71) -/

/-- OP, bits 63:56. -/
def opField (w : OpWord) : BitVec 8 := w.extractLsb' 56 8
/-- SUB, bits 55:48. -/
def subField (w : OpWord) : BitVec 8 := w.extractLsb' 48 8
/-- RES, bits 47:32. -/
def resField (w : OpWord) : BitVec 16 := w.extractLsb' 32 16
/-- ARG, bits 31:0. -/
def argField (w : OpWord) : BitVec 32 := w.extractLsb' 0 32

/-! ## Byte order (20_memory.md R54) -/

/-- The 8 bytes of an operation word, byte 0 holding bits 7:0. -/
def bytesOfWord (w : OpWord) : List Byte :=
  [w.extractLsb' 0 8, w.extractLsb' 8 8, w.extractLsb' 16 8, w.extractLsb' 24 8,
   w.extractLsb' 32 8, w.extractLsb' 40 8, w.extractLsb' 48 8, w.extractLsb' 56 8]

/-- The operation word that 8 bytes stand for, byte 0 the least significant. -/
def wordOfBytes : List Byte → Option OpWord
  | [b0, b1, b2, b3, b4, b5, b6, b7] => some (b7 ++ b6 ++ b5 ++ b4 ++ b3 ++ b2 ++ b1 ++ b0)
  | _ => none

/-- The 4 bytes of a 32-bit value, byte 0 holding bits 7:0. -/
def bytesOfValue (v : BitVec 32) : List Byte :=
  [v.extractLsb' 0 8, v.extractLsb' 8 8, v.extractLsb' 16 8, v.extractLsb' 24 8]

/-! ## Spec codes (10_state.md R36, R37) -/

/-- The IF FilterSpec of a code: all four codes are legal. -/
def ifSpecOfCode (c : BitVec 2) : IfSpec :=
  if c = 0#2 then .k3 else if c = 1#2 then .k6 else if c = 2#2 then .k11 else .none

/-- The AF FilterSpec of a code: code 3 is illegal. -/
def afSpecOfCode (c : BitVec 2) : Option AfSpec :=
  if c = 0#2 then some .k3 else if c = 1#2 then some .k6 else if c = 2#2 then some .k11 else none

/-- The AGCSpec of a code: codes 6 and 7 are illegal. -/
def agcSpecOfCode (c : BitVec 3) : Option AgcSpec :=
  if c = 0#3 then some .tc0 else if c = 1#3 then some .tc1 else if c = 2#3 then some .tc2
  else if c = 3#3 then some .tc3 else if c = 4#3 then some .tc4 else if c = 5#3 then some .none
  else none

/-- The code of an IF FilterSpec. -/
def codeOfIfSpec : IfSpec → BitVec 2
  | .k3 => 0#2
  | .k6 => 1#2
  | .k11 => 2#2
  | .none => 3#2

/-- The code of an AF FilterSpec. -/
def codeOfAfSpec : AfSpec → BitVec 2
  | .k3 => 0#2
  | .k6 => 1#2
  | .k11 => 2#2

/-- The code of an AGCSpec. -/
def codeOfAgcSpec : AgcSpec → BitVec 3
  | .tc0 => 0#3
  | .tc1 => 1#3
  | .tc2 => 2#3
  | .tc3 => 3#3
  | .tc4 => 4#3
  | .none => 5#3

/-! ## The decoder -/

/-- ARG must be 0 (R75). -/
def noArg (arg : BitVec 32) (i : Instr) : Except DecodeError Instr :=
  if arg = 0#32 then .ok i else .error .argNotZero

/-- The command class, OP 0x01 to 0x0F (R73, R74). -/
def decodeCommand (op : BitVec 8) (arg : BitVec 32) : Except DecodeError Instr :=
  if op = 0x01#8 then .ok (.cmdAm arg)
  else if op = 0x02#8 then .ok (.cmdAgc arg)
  else if op = 0x03#8 then .ok (.cmdAf arg)
  else if op = 0x04#8 then .ok (.cmdRssi arg)
  else if op = 0x05#8 then .ok (.cmdIfout arg)
  else if op = 0x0F#8 then noArg arg .cmdEnd
  else .error .reservedOp

/-- The filter class, OP 0x10 to 0x1F (R73, R75). -/
def decodeFilter (op : BitVec 8) (arg : BitVec 32) : Except DecodeError Instr :=
  if op = 0x10#8 then
    if arg.extractLsb' 2 30 = 0#30 then .ok (.firSelIf (ifSpecOfCode (arg.extractLsb' 0 2)))
    else .error .argNotZero
  else if op = 0x11#8 then
    if arg.extractLsb' 2 30 = 0#30 then
      match afSpecOfCode (arg.extractLsb' 0 2) with
      | some k => .ok (.firSelAf k)
      | none => .error .illegalCode
    else .error .argNotZero
  else if op = 0x12#8 then noArg arg .firRunIf
  else if op = 0x13#8 then noArg arg .firRunAf
  else .error .reservedOp

/-- The AGC and envelope class, OP 0x20 to 0x2F (R73, R75). -/
def decodeLevel (op : BitVec 8) (arg : BitVec 32) : Except DecodeError Instr :=
  if op = 0x20#8 then
    if arg.extractLsb' 3 29 = 0#29 then
      match agcSpecOfCode (arg.extractLsb' 0 3) with
      | some k => .ok (.agcSel k)
      | none => .error .illegalCode
    else .error .argNotZero
  else if op = 0x21#8 then noArg arg .agcRun
  else if op = 0x28#8 then noArg arg .envRun
  else .error .reservedOp

/-- The NCO class, OP 0x30 to 0x3F (R73, R75). -/
def decodeNco (op : BitVec 8) (arg : BitVec 32) : Except DecodeError Instr :=
  if op = 0x30#8 then .ok (.ncoInit arg)
  else if op = 0x31#8 then noArg arg .ncoGen
  else .error .reservedOp

/-- The ring-buffer class, OP 0x40 to 0x4F, less RB.FILL (R73, R75). -/
def decodeRing (op : BitVec 8) (arg : BitVec 32) : Except DecodeError Instr :=
  if op = 0x40#8 then noArg arg .rbPush
  else if op = 0x41#8 then noArg arg .rbPop
  else .error .reservedOp

/-- The capture class, OP 0x50 to 0x5F (R73, R75). -/
def decodeCapture (op : BitVec 8) (arg : BitVec 32) : Except DecodeError Instr :=
  if op = 0x50#8 then noArg arg .ifSend
  else if op = 0x51#8 then noArg arg .ifClose
  else .error .reservedOp

/-- The register class, OP 0x60 to 0x6F (R73, R75). -/
def decodeRegister (op : BitVec 8) (arg : BitVec 32) : Except DecodeError Instr :=
  if op = 0x60#8 then
    if arg.extractLsb' 16 16 = 0#16 then .ok (.csrRead (arg.extractLsb' 0 16))
    else .error .argNotZero
  else .error .reservedOp

/-- The operation of OP and ARG, for every operation whose SUB must be 0, class by class: the class is
the high nibble of OP (R73). -/
def decodePlain (op : BitVec 8) (arg : BitVec 32) : Except DecodeError Instr :=
  let opClass := op.extractLsb' 4 4
  if opClass = 0x0#4 then decodeCommand op arg
  else if opClass = 0x1#4 then decodeFilter op arg
  else if opClass = 0x2#4 then decodeLevel op arg
  else if opClass = 0x3#4 then decodeNco op arg
  else if opClass = 0x4#4 then decodeRing op arg
  else if opClass = 0x5#4 then decodeCapture op arg
  else if opClass = 0x6#4 then decodeRegister op arg
  else .error .reservedOp

/-- The operation a word stands for, or why it stands for none (R72 to R78). -/
def decodeWord (w : OpWord) : Except DecodeError Instr :=
  if resField w ≠ 0#16 then .error .resNotZero
  else if opField w = 0x42#8 then
    if subField w = 0#8 then .error .zeroChannels else .ok (.rbFill (subField w) (argField w))
  else if subField w ≠ 0#8 then .error .subNotZero
  else decodePlain (opField w) (argField w)

/-- The decoder on bytes. -/
def decodeBytes (bs : List Byte) : Except DecodeError Instr :=
  match wordOfBytes bs with
  | some w => decodeWord w
  | none => .error .notEightBytes

/-! ## Ports (R73, R74) -/

/-- The port an operation belongs to. -/
def Instr.port : Instr → Port
  | .cmdAm _ | .cmdAgc _ | .cmdAf _ | .cmdRssi _ | .cmdIfout _ | .cmdEnd => .command
  | .ifSend | .ifClose => .capture
  | .rbFill _ _ => .playback
  | .firSelIf _ | .firSelAf _ | .firRunIf | .firRunAf | .agcSel _ | .agcRun | .envRun => .direct
  | .ncoInit _ | .ncoGen | .rbPush | .rbPop | .csrRead _ => .direct

/-- The operations whose payload is one chunk (R73, column "payload in"). -/
def Instr.takesChunk : Instr → Bool
  | .firRunIf | .firRunAf | .agcRun | .envRun | .rbPush | .ifSend => true
  | .cmdAm _ | .cmdAgc _ | .cmdAf _ | .cmdRssi _ | .cmdIfout _ | .cmdEnd => false
  | .firSelIf _ | .firSelAf _ | .agcSel _ | .ncoInit _ | .ncoGen => false
  | .rbPop | .rbFill _ _ | .ifClose | .csrRead _ => false

/-- The operation a word stands for on a port: a word whose operation belongs to another port is an
illegal encoding there (R74). -/
def decodeOnPort (p : Port) (w : OpWord) : Option Instr :=
  match decodeWord w with
  | .ok i => if i.port = p then some i else none
  | .error _ => none

/-- A request that can be formed on a port: a chunk operation of the port carries exactly N samples, every
other operation of the port carries none (R79).
A word that is no operation of the port, one of another port among them (R74, R76), may come with or
without a chunk (log entry 8). -/
def Request.formed (n : Nat) (p : Port) (r : Request) : Bool :=
  match decodeOnPort p r.word with
  | some i => if i.takesChunk then r.payload.length == n else r.payload.length == 0
  | none => r.payload.length == n || r.payload.length == 0

/-! ## The encoder (R71, R73) -/

/-- The operation word {OP, SUB, RES, ARG} (R71). -/
def mkWord (op sub : BitVec 8) (res : BitVec 16) (arg : BitVec 32) : OpWord :=
  op ++ sub ++ res ++ arg

/-- OP of an operation (R73). -/
def Instr.op : Instr → BitVec 8
  | .cmdAm _ => 0x01#8
  | .cmdAgc _ => 0x02#8
  | .cmdAf _ => 0x03#8
  | .cmdRssi _ => 0x04#8
  | .cmdIfout _ => 0x05#8
  | .cmdEnd => 0x0F#8
  | .firSelIf _ => 0x10#8
  | .firSelAf _ => 0x11#8
  | .firRunIf => 0x12#8
  | .firRunAf => 0x13#8
  | .agcSel _ => 0x20#8
  | .agcRun => 0x21#8
  | .envRun => 0x28#8
  | .ncoInit _ => 0x30#8
  | .ncoGen => 0x31#8
  | .rbPush => 0x40#8
  | .rbPop => 0x41#8
  | .rbFill _ _ => 0x42#8
  | .ifSend => 0x50#8
  | .ifClose => 0x51#8
  | .csrRead _ => 0x60#8

/-- SUB of an operation: RB.FILL's channel count, else 0 (R71). -/
def Instr.sub : Instr → BitVec 8
  | .rbFill c _ => c
  | .cmdAm _ | .cmdAgc _ | .cmdAf _ | .cmdRssi _ | .cmdIfout _ | .cmdEnd => 0#8
  | .firSelIf _ | .firSelAf _ | .firRunIf | .firRunAf | .agcSel _ | .agcRun | .envRun => 0#8
  | .ncoInit _ | .ncoGen | .rbPush | .rbPop | .ifSend | .ifClose | .csrRead _ => 0#8

/-- ARG of an operation (R75). -/
def Instr.arg : Instr → BitVec 32
  | .cmdAm n => n
  | .cmdAgc n => n
  | .cmdAf n => n
  | .cmdRssi h => h
  | .cmdIfout h => h
  | .firSelIf k => (codeOfIfSpec k).setWidth 32
  | .firSelAf k => (codeOfAfSpec k).setWidth 32
  | .agcSel k => (codeOfAgcSpec k).setWidth 32
  | .ncoInit f => f
  | .rbFill _ l => l
  | .csrRead a => a.setWidth 32
  | .cmdEnd | .firRunIf | .firRunAf | .agcRun | .envRun | .ncoGen => 0#32
  | .rbPush | .rbPop | .ifSend | .ifClose => 0#32

/-- The operation word of an operation. -/
def encodeWord (i : Instr) : OpWord := mkWord i.op i.sub 0#16 i.arg

/-- The bytes of an operation (R54). -/
def encodeBytes (i : Instr) : List Byte := bytesOfWord (encodeWord i)

/-! ## The opcode table -/

/-- A row of the opcode table: a word belongs to it when its bits under `mask` are `pattern`. -/
structure OpRow where
  mnemonic : String
  mask : OpWord
  pattern : OpWord
deriving DecidableEq, Repr

/-- The opcode table, row by row.
The decoder does not read it: a claim compares the two (R78). -/
def opTable : List OpRow :=
  [⟨"CMD.AM", 0xFFFFFFFF00000000#64, 0x0100000000000000#64⟩,
   ⟨"CMD.AGC", 0xFFFFFFFF00000000#64, 0x0200000000000000#64⟩,
   ⟨"CMD.AF", 0xFFFFFFFF00000000#64, 0x0300000000000000#64⟩,
   ⟨"CMD.RSSI", 0xFFFFFFFF00000000#64, 0x0400000000000000#64⟩,
   ⟨"CMD.IFOUT", 0xFFFFFFFF00000000#64, 0x0500000000000000#64⟩,
   ⟨"CMD.END", 0xFFFFFFFFFFFFFFFF#64, 0x0F00000000000000#64⟩] ++
  [⟨"FIR.SEL.IF", 0xFFFFFFFFFFFFFFFC#64, 0x1000000000000000#64⟩,
   ⟨"FIR.SEL.AF", 0xFFFFFFFFFFFFFFFC#64, 0x1100000000000000#64⟩,
   ⟨"FIR.RUN.IF", 0xFFFFFFFFFFFFFFFF#64, 0x1200000000000000#64⟩,
   ⟨"FIR.RUN.AF", 0xFFFFFFFFFFFFFFFF#64, 0x1300000000000000#64⟩,
   ⟨"AGC.SEL", 0xFFFFFFFFFFFFFFF8#64, 0x2000000000000000#64⟩,
   ⟨"AGC.RUN", 0xFFFFFFFFFFFFFFFF#64, 0x2100000000000000#64⟩,
   ⟨"ENV.RUN", 0xFFFFFFFFFFFFFFFF#64, 0x2800000000000000#64⟩] ++
  [⟨"NCO.INIT", 0xFFFFFFFF00000000#64, 0x3000000000000000#64⟩,
   ⟨"NCO.GEN", 0xFFFFFFFFFFFFFFFF#64, 0x3100000000000000#64⟩,
   ⟨"RB.PUSH", 0xFFFFFFFFFFFFFFFF#64, 0x4000000000000000#64⟩,
   ⟨"RB.POP", 0xFFFFFFFFFFFFFFFF#64, 0x4100000000000000#64⟩,
   ⟨"RB.FILL", 0xFF00FFFF00000000#64, 0x4200000000000000#64⟩,
   ⟨"IF.SEND", 0xFFFFFFFFFFFFFFFF#64, 0x5000000000000000#64⟩,
   ⟨"IF.CLOSE", 0xFFFFFFFFFFFFFFFF#64, 0x5100000000000000#64⟩,
   ⟨"CSR.READ", 0xFFFFFFFFFFFF0000#64, 0x6000000000000000#64⟩]

/-! ## What the host reads -/

/-- The operation read from the bits `w` of one table row, laid out as the block's 8 bytes. -/
def decodeTableWord (nbits w : Nat) : Option Instr :=
  match decodeBytes (bytesOfWord (BitVec.ofNat 64 (w % 2 ^ nbits))) with
  | .ok i => some i
  | .error _ => none

/-- The port on which the host's word is placed: its operation's port, and for a word that decodes to
none the port its OP belongs to (R73, R74), the direct port where OP is reserved. -/
def portOfWord (w : OpWord) : Port :=
  match decodeWord w with
  | .ok i => i.port
  | .error _ =>
    if 0x01#8 ≤ opField w ∧ opField w ≤ 0x0F#8 then .command
    else if opField w = 0x42#8 then .playback
    else if opField w = 0x50#8 ∨ opField w = 0x51#8 then .capture
    else .direct

end Sys2Proof
end

