-- ==== Sys2Proof/Machine/State.lean ====
section
/-! DEFINITION. The whole state of the block as one record (10_state.md), the responses and events it
puts out, and the state after reset (10_state.md R44). -/

namespace Sys2Proof.Machine

/-- No step of the block stops the machine with a fault: every recoverable condition is answered with
a status, and a fatal fault of the spec is the halted state, in which CSR.READ still answers
(60_exceptions.md R236, R237; log entry 9). -/
inductive Fault
deriving DecidableEq, Repr

/-- Why an instruction has no meaning. -/
inductive Refusal
  /-- Raised only by an arm of `exec` whose instruction is not modelled yet; safe, since nothing is
  claimed of it. Every instruction is modelled, so no step raises it. -/
  | notModelled (mnemonic : String)
deriving DecidableEq, Repr

/-- The status codes of a response (60_exceptions.md R231). -/
inductive Status
  | ok
  | empty
  | rejected
  | illegal
  | mode
  | stopped
  | rbOverflow
  | rbUnderflow
  | channelDisconnect
  | halted
deriving DecidableEq, Repr, Inhabited

/-- What a response carries beside its status (30_encoding.md R73, R80). -/
inductive Result
  | none
  | chunk (y : Chunk)
  | chunkMetric (y : Chunk) (metric : F32)
  | sample (v : F32)
  | samples (out : List F32)
  | value (v : BitVec 32)
deriving DecidableEq, Repr, Inhabited

/-- The response that ends a port operation (30_encoding.md R80). -/
structure Response where
  port : Port
  status : Status
  result : Result
deriving DecidableEq, Repr, Inhabited

/-- A telemetry event (44_chain.md R202). -/
inductive Event
  /-- The level metric, to the sink of this handle. -/
  | sink1 (handle : BitVec 32) (metric : F32)
  /-- The raw pre-filter chunk, to the sink of this handle. -/
  | sink2 (handle : BitVec 32) (chunk : Chunk)
deriving DecidableEq, Repr, Inhabited

/-- `S.seqState` (10_state.md R30). -/
inductive SeqState
  | running
  | terminating
  | stopped
deriving DecidableEq, Repr, Inhabited

/-- `S.seqPhase` (10_state.md R30). -/
inductive SeqPhase
  | poll
  | wait
deriving DecidableEq, Repr, Inhabited

/-- The ring-buffer store (20_memory.md R50, R52): slot and value pairs, slots strictly rising.
A slot not listed has not been written since reset (log entry 5). -/
abbrev Memory := List (Nat × F32)

/-- The requests that have arrived on each port and are not completed, the oldest first (20_memory.md
R58). -/
structure PortQueues where
  command : List Request
  capture : List Request
  playback : List Request
  direct : List Request
deriving DecidableEq, Repr, Inhabited

/-- The state of the machine. -/
structure State where
  /-- The parameters: not state, but what the state's rules are read with; no step writes it (R20). -/
  cfg : Params
  -- Filter Bank (R22, R23)
  ifSpec : IfSpec
  ifHist : List F32
  afSpec : AfSpec
  afHist : List F32
  -- AGC (R25, R26)
  agcSpec : AgcSpec
  agcHist : Taps
  rssi : F32
  -- NCO (R27)
  ncoFreq : F32
  ncoDelta : F32
  ncoPhase : F32
  -- Ring Buffer (R28)
  rbBuf : Memory
  rbHead : Nat
  rbTail : Nat
  rbSize : Nat
  -- Sequencer (R30)
  seqState : SeqState
  seqPhase : SeqPhase
  -- Channels (R31): command words, IF chunks, AF chunks; the head first
  cmdQ : List OpWord
  ifQ : List Chunk
  afQ : List Chunk
  -- Producer-closed flags (R32)
  capClosed : Bool
  cmdClosed : Bool
  -- Telemetry selection (R33)
  sink1Sel : BitVec 32
  sink2Sel : BitVec 32
  sink1En : Bool
  sink2En : Bool
  -- Status (R34)
  fatal : Bool
  cause : BitVec 4
  -- Mode (R35)
  mode : Mode
  -- Ports (44_chain.md R180, 20_memory.md R58): requests waiting or in progress
  pending : PortQueues
  /-- Every response given so far, the latest last (R80; log entry 7). -/
  responses : List Response
  /-- Every telemetry event emitted so far, the latest last (R202; log entry 7). -/
  events : List Event
  /-- The model's own: the inputs the outside world is known to give next (log entry 4). -/
  script : List EnvInput
  /-- The model's own: the number of steps taken, which indexes the free values (log entries 3, 4). -/
  tick : Nat
deriving DecidableEq, Repr

/-- The state after reset for given parameters (R44, 70_reset_and_hazards.md R260, R261). -/
def State.resetWith (c : Params) : State where
  cfg := c
  ifSpec := c.resetIf
  ifHist := zeros (c.ifTaps c.resetIf)
  afSpec := c.resetAf
  afHist := zeros (c.afTaps c.resetAf)
  agcSpec := c.resetAgc
  agcHist := ⟨0#32, 0#32, 0#32⟩
  rssi := 0#32
  ncoFreq := 0#32
  ncoDelta := 0#32
  ncoPhase := 0#32
  rbBuf := []
  rbHead := 0
  rbTail := 0
  rbSize := 0
  seqState := .running
  seqPhase := .poll
  cmdQ := []
  ifQ := []
  afQ := []
  capClosed := false
  cmdClosed := false
  sink1Sel := 0#32
  sink2Sel := 0#32
  sink1En := false
  sink2En := false
  fatal := false
  cause := 0#4
  mode := c.mode
  pending := ⟨[], [], [], []⟩
  responses := []
  events := []
  script := []
  tick := 0

/-- The machine right after reset, with the parameters the platform has fixed (R263). -/
def State.reset : State := State.resetWith Config.params

end Sys2Proof.Machine
end

