-- ==== Sys2Proof/Machine/Flags.lean ====
section
/-! DEFINITION. The block has no condition flags (10_state.md R39). What stands in their place is the
4-bit status code of a response (60_exceptions.md R231) and the STATUS register (10_state.md R43). -/

namespace Sys2Proof.Machine

/-- The 4-bit code of a status (R231). -/
def Status.code : Status → BitVec 4
  | .ok => 0#4
  | .empty => 1#4
  | .rejected => 2#4
  | .illegal => 3#4
  | .mode => 4#4
  | .stopped => 5#4
  | .rbOverflow => 8#4
  | .rbUnderflow => 9#4
  | .channelDisconnect => 10#4
  | .halted => 15#4

/-- The value of `S.seqState` in STATUS (R43). -/
def SeqState.code : SeqState → BitVec 2
  | .running => 0#2
  | .terminating => 1#2
  | .stopped => 2#2

/-- The value of `S.seqPhase` in STATUS (R43). -/
def SeqPhase.code : SeqPhase → BitVec 1
  | .poll => 0#1
  | .wait => 1#1

/-- The value of `S.mode` in STATUS (R43). -/
def modeCode : Mode → BitVec 1
  | .chain => 0#1
  | .direct => 1#1

/-- The STATUS register (R43): bits 31:18, 11:9 and 7:6 read zero. -/
def statusWord (s : State) : BitVec 32 :=
  0#14 ++ BitVec.ofBool s.sink2En ++ BitVec.ofBool s.sink1En ++ s.cause ++ 0#3 ++
    BitVec.ofBool s.fatal ++ 0#2 ++ BitVec.ofBool s.cmdClosed ++ BitVec.ofBool s.capClosed ++
    modeCode s.mode ++ s.seqPhase.code ++ s.seqState.code

end Sys2Proof.Machine
end

