-- ==== Sys2Proof/Machine/Ops.lean ====
section
/-! DEFINITION. The shared operations: the ring-buffer store, the ports and their responses, the
fatal halt and reset (the block's exception entry and the only return from it), and the checks every
port operation makes first. -/

namespace Sys2Proof.Machine

/-! ## The ring-buffer store (20_memory.md R52) -/

/-- The value listed for a slot, if the slot has been written. -/
def Memory.find : Memory → Nat → Option F32
  | [], _ => none
  | (k, v) :: m, i => if k = i then some v else Memory.find m i

/-- `RBRead(i)`: a slot nothing has written holds the free value of R44. -/
def Memory.read (m : Memory) (i : Nat) : F32 := (Memory.find m i).getD (Config.rbUnwritten i)

/-- `RBWrite(i, v)`, keeping the slots strictly rising. -/
def Memory.write : Memory → Nat → F32 → Memory
  | [], i, v => [(i, v)]
  | (k, u) :: m, i, v =>
    if i < k then (i, v) :: (k, u) :: m
    else if i = k then (i, v) :: m
    else (k, u) :: Memory.write m i v

/-- Every slot listed lies above `lo`, in strictly rising order. -/
def Memory.risingFrom : Nat → Memory → Bool
  | _, [] => true
  | lo, (k, _) :: m => decide (lo ≤ k) && Memory.risingFrom (k + 1) m

/-- The canonical form of a store of `cap` slots: slots strictly rising, each below `cap`.
An unlisted slot reads as a free value, which no listed value is known to equal, so the form asks
nothing of the values. -/
def Memory.wf (cap : Nat) (m : Memory) : Bool :=
  Memory.risingFrom 0 m && m.all (fun e => decide (e.1 < cap))

/-! ## Ports (20_memory.md R58, 30_encoding.md R80) -/

/-- The requests waiting on a port, the one in progress first. -/
def PortQueues.get (q : PortQueues) : Port → List Request
  | .command => q.command
  | .capture => q.capture
  | .playback => q.playback
  | .direct => q.direct

/-- Replace the requests waiting on a port. -/
def PortQueues.set (q : PortQueues) (p : Port) (rs : List Request) : PortQueues :=
  match p with
  | .command => { q with command := rs }
  | .capture => { q with capture := rs }
  | .playback => { q with playback := rs }
  | .direct => { q with direct := rs }

/-- The requests waiting on a port. -/
def State.waiting (s : State) (p : Port) : List Request := s.pending.get p

/-- The payload of the request a port has in progress. -/
def State.payload (s : State) (p : Port) : Chunk :=
  match s.waiting p with
  | r :: _ => r.payload
  | [] => []

/-- `respond(st, val)`: the port's request is completed and leaves the port, with one response (R80). -/
def respond (p : Port) (st : Status) (res : Result) (s : State) : State :=
  { s with
    pending := s.pending.set p (s.waiting p).tail
    responses := s.responses ++ [⟨p, st, res⟩] }

/-- A request arrives on a port.
A request that cannot be formed (30_encoding.md R79) does not arrive (log entry 8). -/
def arrive (p : Port) (r : Request) (s : State) : State :=
  if r.formed s.cfg.n p then { s with pending := s.pending.set p (s.waiting p ++ [r]) } else s

/-! ## The fatal halt and reset (60_exceptions.md R236, R241; 70_reset_and_hazards.md R260) -/

/-- The writes of `raise Fatal(code)` (R236). -/
def haltWith (code : Status) (s : State) : State :=
  { s with fatal := true, cause := code.code }

/-- `raise Fatal(code)` in the step of a port operation: the halt and the response (R236).
It is applied to the state before the step, so no other write of the step takes effect. -/
def raiseFatal (p : Port) (code : Status) (s : State) : State :=
  respond p code .none (haltWith code s)

/-- Reset, the only way out of the fatal halt: every state field takes its reset value, and every request
is dropped with no response (R260).
The parameters, the inputs still to come, the step count and the outputs already given are not state of
the block and stay (log entry 7). -/
def assertReset (s : State) : State :=
  { State.resetWith s.cfg with
    responses := s.responses, events := s.events, script := s.script, tick := s.tick }

/-! ## The checks of every port operation (60_exceptions.md R238) -/

/-- The modes that admit an operation (R234). -/
def admittedIn (i : Instr) (m : Mode) : Bool :=
  match i with
  | .cmdAm _ | .cmdAgc _ | .cmdAf _ | .cmdRssi _ | .cmdIfout _ | .cmdEnd => m == .chain
  | .ifSend | .ifClose | .rbFill _ _ => m == .chain
  | .firSelIf _ | .firSelAf _ | .firRunIf | .firRunAf => m == .direct
  | .agcSel _ | .agcRun | .rbPush | .rbPop => m == .direct
  | .envRun | .ncoInit _ | .ncoGen | .csrRead _ => true

/-- CSR.READ is the one operation admitted while the block is halted (R237). -/
def admittedHalted : Instr → Bool
  | .csrRead _ => true
  | .cmdAm _ | .cmdAgc _ | .cmdAf _ | .cmdRssi _ | .cmdIfout _ | .cmdEnd => false
  | .firSelIf _ | .firSelAf _ | .firRunIf | .firRunAf => false
  | .agcSel _ | .agcRun | .envRun | .ncoInit _ | .ncoGen => false
  | .rbPush | .rbPop | .rbFill _ _ | .ifSend | .ifClose => false

/-- Checks (1) HALTED, (2) decode and (3) MODE of R238, then the operation's own part. -/
def checked (i : Instr) (s : State) (own : State) : State :=
  if s.fatal && !admittedHalted i then respond i.port .halted .none s
  else if !i.wf then respond i.port .illegal .none s
  else if !admittedIn i s.mode then respond i.port .mode .none s
  else own

/-- A word of CSR.READ on the direct port, legal or not: HALTED is not answered to it (R237, R238;
45_register_access.md R221).
That a word with OP 0x60 on another port has no such exemption is the model's reading (log entry 13). -/
def isRegisterReadWord (p : Port) (w : OpWord) : Bool := p == .direct && opField w == 0x60#8

/-- A word that decodes to no operation of its port: HALTED first, CSR.READ excepted (R238), then REJECTED
on the command port and ILLEGAL elsewhere (30_encoding.md R72, R76). -/
def refuseWord (p : Port) (w : OpWord) (s : State) : State :=
  if s.fatal && !isRegisterReadWord p w then respond p .halted .none s
  else if p = .command then respond p .rejected .none s
  else respond p .illegal .none s

/-! ## Telemetry bytes (20_memory.md R54, 44_chain.md R202) -/

/-- The bytes a sink receives for an event, little-endian. -/
def Event.bytes : Event → List Byte
  | .sink1 _ m => bytesOfValue m
  | .sink2 _ x => x.flatMap bytesOfValue

end Sys2Proof.Machine
end

