-- ==== Sys2Proof/Machine/Agc.lean ====
section
/-! DEFINITION. The AGC stage (41_agc.md): the AGC function, AGC.SEL and AGC.RUN. -/

namespace Sys2Proof.Machine

/-- What the AGC function gives for one chunk. -/
structure AgcOut where
  hist : Taps
  out : Chunk
  metric : F32
deriving DecidableEq, Repr

/-- The instant RSSI of a chunk, step (a) of R120. -/
def instantRssi (tick n : Nat) (x : Chunk) : F32 := meanAbs (stageSite tick 1) n x

/-- The history with a new instant RSSI, step (b) of R120: the oldest entry is evicted. -/
def pushLevel (g : Taps) (v : F32) : Taps := ⟨g.t1, g.t2, v⟩

/-- The smoothed RSSI, step (c) of R120. -/
def smoothedRssi (tick : Nat) (g a : Taps) : F32 := dot (stageSite tick 2) g.toList a.toList

/-- One sample of step (d) of R120: divide first, then scale. -/
def gainSample (sm : F32) (d : DrawSite) (x : F32) : F32 :=
  fmul (d.atOp 1) (fdiv d x sm) headroom

/-- `agcChunk(g, a, x)` for chunks of n samples (R120).
R127 says that the metric of a zero chunk is never infinite; by R120's steps it is +∞ while the history
holds +∞ or the smoothed level overflows.
The model follows R120 (DESIGN CHOICE, log entry 22). -/
def agcChunk (tick n : Nat) (g a : Taps) (x : Chunk) : AgcOut :=
  let inst := instantRssi tick n x
  let g' := pushLevel g inst
  let sm := smoothedRssi tick g' a
  if fgt sm floorLevel then ⟨g', mapSamples (gainSample sm) (stageSite tick 3) x, sm⟩
  else ⟨g', x, inst⟩

/-- The AGC stage on one chunk with the active instance. -/
def agcStage (s : State) (x : Chunk) : AgcOut :=
  agcChunk s.tick s.cfg.n s.agcHist (s.cfg.agcRom s.agcSpec) x

/-- A fresh AGC instance; `S.rssi` is not changed (R121, 44_chain.md R183). -/
def selectAgc (k : AgcSpec) (s : State) : State :=
  { s with agcSpec := k, agcHist := ⟨0#32, 0#32, 0#32⟩ }

/-- AGC.SEL (R121). -/
def execAgcSel (k : AgcSpec) (s : State) : Host.Outcome State Fault Refusal :=
  .next (checked (.agcSel k) s (respond .direct .ok .none (selectAgc k s)))

/-- AGC.RUN (R122). -/
def execAgcRun (s : State) : Host.Outcome State Fault Refusal :=
  .next (checked .agcRun s
    (let r := agcStage s (s.payload .direct)
     respond .direct .ok (.chunkMetric r.out r.metric) { s with agcHist := r.hist, rssi := r.metric }))

end Sys2Proof.Machine
end

