-- ==== Sys2Proof/Machine/FilterBank.lean ====
section
/-! DEFINITION. The Filter Bank (40_filter_bank.md): the FIR function, the IF and AF stages, and
FIR.SEL.IF, FIR.SEL.AF, FIR.RUN.IF, FIR.RUN.AF. -/

namespace Sys2Proof.Machine

/-- `firChunk(h, c, x)`: the history after the chunk, and the output (R100). -/
def firChunk (d : DrawSite) (c : List F32) (h : List F32) : Chunk → List F32 × Chunk
  | [] => (h, [])
  | x :: xs =>
    let h' := h.drop 1 ++ [x]
    let rest := firChunk d.nextSample c h' xs
    (rest.1, dot d h' c :: rest.2)

/-- The IF stage on one chunk: the history after it, and the output; None is a bypass (R104, R107). -/
def ifStage (s : State) (x : Chunk) : List F32 × Chunk :=
  if s.ifSpec = .none then ([x.getLastD 0#32], x)
  else firChunk (stageSite s.tick 0) (s.cfg.ifRom s.ifSpec) s.ifHist x

/-- The AF stage on one chunk (R105). -/
def afStage (s : State) (x : Chunk) : List F32 × Chunk :=
  firChunk (stageSite s.tick 5) (s.cfg.afRom s.afSpec) s.afHist x

/-- A fresh IF instance (R101, R108). -/
def selectIf (k : IfSpec) (s : State) : State :=
  { s with ifSpec := k, ifHist := zeros (s.cfg.ifTaps k) }

/-- A fresh AF instance (R102, R108). -/
def selectAf (k : AfSpec) (s : State) : State :=
  { s with afSpec := k, afHist := zeros (s.cfg.afTaps k) }

/-- FIR.SEL.IF (R101). -/
def execFirSelIf (k : IfSpec) (s : State) : Host.Outcome State Fault Refusal :=
  .next (checked (.firSelIf k) s (respond .direct .ok .none (selectIf k s)))

/-- FIR.SEL.AF (R102). -/
def execFirSelAf (k : AfSpec) (s : State) : Host.Outcome State Fault Refusal :=
  .next (checked (.firSelAf k) s (respond .direct .ok .none (selectAf k s)))

/-- FIR.RUN.IF (R104). -/
def execFirRunIf (s : State) : Host.Outcome State Fault Refusal :=
  .next (checked .firRunIf s
    (let r := ifStage s (s.payload .direct)
     respond .direct .ok (.chunk r.2) { s with ifHist := r.1 }))

/-- FIR.RUN.AF (R105). -/
def execFirRunAf (s : State) : Host.Outcome State Fault Refusal :=
  .next (checked .firRunAf s
    (let r := afStage s (s.payload .direct)
     respond .direct .ok (.chunk r.2) { s with afHist := r.1 }))

end Sys2Proof.Machine
end

