-- ==== Sys2Proof/Machine/Chain.lean ====
section
/-! DEFINITION. The command port, the capture port, the envelope detector and the chain sequencer
(44_chain.md). -/

namespace Sys2Proof.Machine

/-! ## Command port (R181 to R187) -/

/-- Acceptance of a command after the common checks (R181): STOPPED, or OK and the word is queued. -/
def acceptCommand (i : Instr) (s : State) : State :=
  if s.cmdClosed || s.seqState == .stopped then respond .command .stopped .none s
  else
    respond .command .ok .none
      { s with
        cmdQ := s.cmdQ ++ [encodeWord i]
        cmdClosed := s.cmdClosed || i.op == 0x0F#8 }

/-- CMD.AM at the command port (R182). -/
def execCmdAm (n : BitVec 32) (s : State) : Host.Outcome State Fault Refusal :=
  .next (checked (.cmdAm n) s (acceptCommand (.cmdAm n) s))

/-- CMD.AGC at the command port (R183). -/
def execCmdAgc (n : BitVec 32) (s : State) : Host.Outcome State Fault Refusal :=
  .next (checked (.cmdAgc n) s (acceptCommand (.cmdAgc n) s))

/-- CMD.AF at the command port (R184). -/
def execCmdAf (n : BitVec 32) (s : State) : Host.Outcome State Fault Refusal :=
  .next (checked (.cmdAf n) s (acceptCommand (.cmdAf n) s))

/-- CMD.RSSI at the command port (R185). -/
def execCmdRssi (h : BitVec 32) (s : State) : Host.Outcome State Fault Refusal :=
  .next (checked (.cmdRssi h) s (acceptCommand (.cmdRssi h) s))

/-- CMD.IFOUT at the command port (R186). -/
def execCmdIfout (h : BitVec 32) (s : State) : Host.Outcome State Fault Refusal :=
  .next (checked (.cmdIfout h) s (acceptCommand (.cmdIfout h) s))

/-- CMD.END at the command port (R187). -/
def execCmdEnd (s : State) : Host.Outcome State Fault Refusal :=
  .next (checked .cmdEnd s (acceptCommand .cmdEnd s))

/-! ## Application of a command (R182 to R187, R195) -/

/-- CMD.AM applied (R182). -/
def applyAm (n : BitVec 32) (s : State) : State := selectIf (decodeAm (i32 n)) s

/-- CMD.AGC applied (R183). -/
def applyAgc (n : BitVec 32) (s : State) : State := selectAgc (decodeAgc (i32 n)) s

/-- CMD.AF applied (R184). -/
def applyAf (n : BitVec 32) (s : State) : State := selectAf (decodeAf (i32 n)) s

/-- CMD.RSSI applied (R185). -/
def applyRssi (h : BitVec 32) (s : State) : State :=
  { s with sink1Sel := h, sink1En := h != 0#32 }

/-- CMD.IFOUT applied (R186). -/
def applyIfout (h : BitVec 32) (s : State) : State :=
  { s with sink2Sel := h, sink2En := h != 0#32 }

/-- CMD.END applied (R187). -/
def applyEnd (s : State) : State := { s with seqState := .terminating }

/-- The effect of a dequeued command (R195).
No other operation is ever queued (the invariant of `Safety.lean`), and none has an effect here (log
entry 12). -/
def applyCommand (i : Instr) (s : State) : State :=
  match i with
  | .cmdAm n => applyAm n s
  | .cmdAgc n => applyAgc n s
  | .cmdAf n => applyAf n s
  | .cmdRssi h => applyRssi h s
  | .cmdIfout h => applyIfout h s
  | .cmdEnd => applyEnd s
  | .firSelIf _ | .firSelAf _ | .firRunIf | .firRunAf => s
  | .agcSel _ | .agcRun | .envRun | .ncoInit _ | .ncoGen => s
  | .rbPush | .rbPop | .rbFill _ _ | .ifSend | .ifClose | .csrRead _ => s

/-- `apply(w)` (R195). -/
def applyWord (w : OpWord) (s : State) : State :=
  match decodeWord w with
  | .ok i => applyCommand i s
  | .error _ => s

/-! ## Capture port (R192, R193) -/

/-- IF.SEND (R192). -/
def execIfSend (s : State) : Host.Outcome State Fault Refusal :=
  .next (checked .ifSend s
    (if s.capClosed || s.seqState == .stopped then respond .capture .stopped .none s
     else respond .capture .ok .none { s with ifQ := s.ifQ ++ [s.payload .capture] }))

/-- IF.CLOSE (R193). -/
def execIfClose (s : State) : Host.Outcome State Fault Refusal :=
  .next (checked .ifClose s (respond .capture .ok .none { s with capClosed := true }))

/-! ## Envelope detector (R194) -/

/-- `(|x| − 0.5) × 2` of one sample. -/
def envSample (d : DrawSite) (x : F32) : F32 := fmul (d.atOp 1) (fsub d (fabs x) half) two

/-- The detector on one chunk. -/
def envChunk (tick : Nat) (x : Chunk) : Chunk := mapSamples envSample (stageSite tick 4) x

/-- ENV.RUN (R194). -/
def execEnvRun (s : State) : Host.Outcome State Fault Refusal :=
  .next (checked .envRun s
    (respond .direct .ok (.chunk (envChunk s.tick (s.payload .direct))) s))

/-! ## The sequencer (R196 to R203) -/

/-- What `chain(x)` gives: the unit states after the chunk, the output chunk and the metric (R199). -/
structure ChainOut where
  ifHist : List F32
  agcHist : Taps
  afHist : List F32
  out : Chunk
  metric : F32
deriving DecidableEq, Repr

/-- `chain(x)`: IF filter, AGC, envelope detector, AF filter (R199). -/
def chain (s : State) (x : Chunk) : ChainOut :=
  let a := ifStage s x
  let b := agcStage s a.2
  let c := envChunk s.tick b.out
  let y := afStage s c
  ⟨a.1, b.hist, y.1, y.2, b.metric⟩

/-- `telemetry(x, m)` with the failure draws (R202, R203). -/
def telemetry (fail1 fail2 : Bool) (x : Chunk) (m : F32) (s : State) : State :=
  { s with
    events := s.events ++ (if s.sink1En then [Event.sink1 s.sink1Sel m] else []) ++
      (if s.sink2En then [Event.sink2 s.sink2Sel x] else [])
    sink1En := s.sink1En && !fail1
    sink2En := s.sink2En && !fail2 }

/-- The Poll step: drain at most one command and apply it (R197). -/
def pollStep (s : State) : State :=
  match s.cmdQ with
  | [] => { s with seqPhase := .wait }
  | w :: rest => { applyWord w { s with cmdQ := rest } with seqPhase := .wait }

/-- Process one chunk in the Wait step (R198, R200). -/
def forwardChunk (fail1 fail2 : Bool) (x : Chunk) (rest : List Chunk) (s : State) : State :=
  let r := chain s x
  telemetry fail1 fail2 x r.metric
    { s with
      ifQ := rest
      ifHist := r.ifHist
      agcHist := r.agcHist
      afHist := r.afHist
      afQ := s.afQ ++ [r.out]
      rssi := r.metric
      seqPhase := .poll
      seqState := if s.seqState = .terminating then .stopped else s.seqState }

/-- The Wait step: it holds while no chunk is there and the capture producer lives (R198). -/
def waitStep (fail1 fail2 : Bool) (s : State) : State :=
  match s.ifQ with
  | [] => if s.capClosed then haltWith .channelDisconnect s else s
  | x :: rest => forwardChunk fail1 fail2 x rest s

/-- The sequencer has a step (R196). -/
def sequencerEnabled (s : State) : Bool :=
  !s.fatal && s.mode == .chain && s.seqState != .stopped

/-- The sequencer's turn; where it has no step nothing changes (R196). -/
def sequencerStep (fail1 fail2 : Bool) (s : State) : State :=
  if sequencerEnabled s then
    match s.seqPhase with
    | .poll => pollStep s
    | .wait => waitStep fail1 fail2 s
  else s

end Sys2Proof.Machine
end

