-- ==== Sys2Proof/Machine/Nco.lean ====
section
/-! DEFINITION. The carrier generator (42_nco.md): NCO.INIT and NCO.GEN. -/

namespace Sys2Proof.Machine

/-- `delta(f)`, the phase increment per sample (R140). -/
def ncoIncrement (d : DrawSite) (fs f : F32) : F32 := fdiv (d.atOp 1) (fmul d twoPi f) fs

/-- An increment NCO.INIT accepts: finite and of magnitude below TWO_PI (R141). -/
def ncoLegal (delta : F32) : Bool :=
  !isNan delta && !isInf delta && fgt twoPi (fabs delta)

/-- `wrap(q)` (R143); its correction is operation 1 and 2 of the sample's site. -/
def wrapPhase (d : DrawSite) (q : F32) : F32 :=
  let r :=
    if !fgt twoPi q then fsub (d.atOp 1) q twoPi
    else if fgt 0#32 q then fadd (d.atOp 2) q twoPi
    else q
  if !fgt twoPi r then 0#32 else r

/-- The phase of the next sample (R142). -/
def nextPhase (d : DrawSite) (delta p : F32) : F32 := wrapPhase d (fadd d p delta)

/-- k samples from phase p: the phase after them, and the samples (R142). -/
def ncoSamples (delta : F32) : Nat → DrawSite → F32 → F32 × Chunk
  | 0, _, p => (p, [])
  | k + 1, d, p =>
    let rest := ncoSamples delta k d.nextSample (nextPhase d delta p)
    (rest.1, Config.sin32 p :: rest.2)

/-- The oscillator constructed for a frequency, phase +0.0 (R141). -/
def constructNco (f delta : F32) (s : State) : State :=
  { s with ncoFreq := f, ncoDelta := delta, ncoPhase := 0#32 }

/-- NCO.INIT (R141). -/
def execNcoInit (f : F32) (s : State) : Host.Outcome State Fault Refusal :=
  .next (checked (.ncoInit f) s
    (let delta := ncoIncrement (stageSite s.tick 6) s.cfg.fs f
     if ncoLegal delta then respond .direct .ok .none (constructNco f delta s)
     else respond .direct .illegal .none s))

/-- NCO.GEN (R142). -/
def execNcoGen (s : State) : Host.Outcome State Fault Refusal :=
  .next (checked .ncoGen s
    (let r := ncoSamples s.ncoDelta s.cfg.n (stageSite s.tick 6) s.ncoPhase
     respond .direct .ok (.chunk r.2) { s with ncoPhase := r.1 }))

end Sys2Proof.Machine
end

