-- ==== Sys2Proof/Machine/RegisterAccess.lean ====
section
/-! DEFINITION. The register space and CSR.READ (10_state.md R41 to R43, 45_register_access.md). -/

namespace Sys2Proof.Machine

/-- A channel length as a register shows it: min(len, 2^32 − 1) (R42). -/
def lengthReg (k : Nat) : BitVec 32 := BitVec.ofNat 32 (min k (2 ^ 32 - 1))

/-- A history register: address `base + i` with i below the active tap count (R42, R222). -/
def historyReg (base taps : Nat) (h : List F32) (a : Nat) : Option (BitVec 32) :=
  if base ≤ a ∧ a < base + taps then h[a - base]? else none

/-- The registers at fixed addresses (R42). -/
def fixedReg (s : State) (a : Nat) : Option (BitVec 32) :=
  match a with
  | 0x0000 => some 0x54485344#32
  | 0x0001 => some (BitVec.ofNat 32 s.cfg.n)
  | 0x0002 => some (statusWord s)
  | 0x0003 => some ((codeOfIfSpec s.ifSpec).setWidth 32)
  | 0x0004 => some ((codeOfAfSpec s.afSpec).setWidth 32)
  | 0x0005 => some ((codeOfAgcSpec s.agcSpec).setWidth 32)
  | 0x0006 => some (BitVec.ofNat 32 (s.cfg.ifTaps s.ifSpec))
  | 0x0007 => some (BitVec.ofNat 32 (s.cfg.afTaps s.afSpec))
  | 0x0008 => some s.rssi
  | 0x0009 => some s.agcHist.t0
  | 0x000A => some s.agcHist.t1
  | 0x000B => some s.agcHist.t2
  | 0x000C => some s.ncoFreq
  | 0x000D => some s.ncoDelta
  | 0x000E => some s.ncoPhase
  | 0x000F => some s.cfg.fs
  | 0x0010 => some (BitVec.ofNat 32 s.rbHead)
  | 0x0011 => some (BitVec.ofNat 32 s.rbTail)
  | 0x0012 => some (BitVec.ofNat 32 s.rbSize)
  | 0x0013 => some (BitVec.ofNat 32 s.cfg.cap)
  | 0x0014 => some s.sink1Sel
  | 0x0015 => some s.sink2Sel
  | 0x0016 => some (lengthReg s.cmdQ.length)
  | 0x0017 => some (lengthReg s.ifQ.length)
  | 0x0018 => some (lengthReg s.afQ.length)
  | _ => none

/-- The value of the register at an address; `none` where there is no register (R42, R222). -/
def readRegister (s : State) (a : BitVec 16) : Option (BitVec 32) :=
  if a.toNat < 0x1000 then fixedReg s a.toNat
  else if a.toNat < 0x2000 then historyReg 0x1000 (s.cfg.ifTaps s.ifSpec) s.ifHist a.toNat
  else historyReg 0x2000 (s.cfg.afTaps s.afSpec) s.afHist a.toNat

/-- CSR.READ (R221). -/
def execCsrRead (a : BitVec 16) (s : State) : Host.Outcome State Fault Refusal :=
  .next (checked (.csrRead a) s
    (match readRegister s a with
     | some v => respond .direct .ok (.value v) s
     | none => respond .direct .illegal .none s))

end Sys2Proof.Machine
end

