-- ==== Sys2Proof/Machine/RingBuffer.lean ====
section
/-! DEFINITION. The rate-adaptation ring buffer (43_ring_buffer.md): push and pop, RB.PUSH, RB.POP and
RB.FILL. -/

namespace Sys2Proof.Machine

/-- Write samples to successive slots from `i` on, around the end of the store (R160). -/
def writeSlots (cap : Nat) (m : Memory) (i : Nat) : Chunk → Memory
  | [] => m
  | x :: xs => writeSlots cap (Memory.write m (i % cap) x) (i + 1) xs

/-- `push(x)` (R160); `none` where the size would exceed CAP. -/
def rbPushChunk (x : Chunk) (s : State) : Option State :=
  if s.rbSize + s.cfg.n > s.cfg.cap then none
  else some { s with
    rbBuf := writeSlots s.cfg.cap s.rbBuf s.rbTail x
    rbTail := (s.rbTail + s.cfg.n) % s.cfg.cap
    rbSize := s.rbSize + s.cfg.n }

/-- `pop()` (R160); `none` where the buffer is empty. -/
def rbPopSample (s : State) : Option (F32 × State) :=
  if s.rbSize = 0 then none
  else some (Memory.read s.rbBuf s.rbHead,
    { s with rbHead := (s.rbHead + 1) % s.cfg.cap, rbSize := s.rbSize - 1 })

/-- RB.PUSH (R161). -/
def execRbPush (s : State) : Host.Outcome State Fault Refusal :=
  .next (checked .rbPush s
    (match rbPushChunk (s.payload .direct) s with
     | some t => respond .direct .ok .none t
     | none => raiseFatal .direct .rbOverflow s))

/-- RB.POP (R162). -/
def execRbPop (s : State) : Host.Outcome State Fault Refusal :=
  .next (checked .rbPop s
    (match rbPopSample s with
     | some (v, t) => respond .direct .ok (.sample v) t
     | none => respond .direct .empty .none s))

/-- The output loop of RB.FILL (R164): `left` samples to go, `k` the next index, `v` the sample of the
current frame; `none` where a pop finds the buffer empty. -/
def fillOutput (c : Nat) : (left k : Nat) → (v : F32) → State → Option (List F32 × State)
  | 0, _, _, s => some ([], s)
  | left + 1, k, v, s =>
    if k % c = 0 then
      match rbPopSample s with
      | none => none
      | some (v', t) =>
        match fillOutput c left (k + 1) v' t with
        | none => none
        | some (out, u) => some (v' :: out, u)
    else
      match fillOutput c left (k + 1) v s with
      | none => none
      | some (out, u) => some (v :: out, u)

/-- One top-up of RB.FILL while coverage is short (R164): it holds, or halts the block, or pulls one
chunk.
The request stays on the port, so the playback port's next turn goes on with it (20_memory.md R59; log
entry 10). -/
def fillTopUp (s : State) : State :=
  match s.afQ with
  | [] => if s.seqState = .stopped then raiseFatal .playback .channelDisconnect s else s
  | x :: rest =>
    match rbPushChunk x { s with afQ := rest } with
    | some t => t
    | none => raiseFatal .playback .rbOverflow s

/-- One step of RB.FILL (R163, R164): a top-up while the coverage is short, else the output. -/
def fillStep (c l : Nat) (s : State) : State :=
  if s.rbSize * c < l then fillTopUp s
  else
    match fillOutput c l 0 0#32 s with
    | some (out, t) => respond .playback .ok (.samples out) t
    | none => raiseFatal .playback .rbUnderflow s

/-- RB.FILL (R164). -/
def execRbFill (c : BitVec 8) (l : BitVec 32) (s : State) : Host.Outcome State Fault Refusal :=
  .next (checked (.rbFill c l) s (fillStep c.toNat l.toNat s))

end Sys2Proof.Machine
end

