-- ==== Sys2Proof/Machine/Dispatch.lean ====
section
/-! DEFINITION. The one dispatch from an operation to its meaning. -/

namespace Sys2Proof.Machine

def exec (i : Instr) (s : State) : Host.Outcome State Fault Refusal :=
  match i with
  | .cmdAm n => Sys2Proof.Machine.execCmdAm n s
  | .cmdAgc n => Sys2Proof.Machine.execCmdAgc n s
  | .cmdAf n => Sys2Proof.Machine.execCmdAf n s
  | .cmdRssi h => Sys2Proof.Machine.execCmdRssi h s
  | .cmdIfout h => Sys2Proof.Machine.execCmdIfout h s
  | .cmdEnd => Sys2Proof.Machine.execCmdEnd s
  | .firSelIf k => Sys2Proof.Machine.execFirSelIf k s
  | .firSelAf k => Sys2Proof.Machine.execFirSelAf k s
  | .firRunIf => Sys2Proof.Machine.execFirRunIf s
  | .firRunAf => Sys2Proof.Machine.execFirRunAf s
  | .agcSel k => Sys2Proof.Machine.execAgcSel k s
  | .agcRun => Sys2Proof.Machine.execAgcRun s
  | .envRun => Sys2Proof.Machine.execEnvRun s
  | .ncoInit f => Sys2Proof.Machine.execNcoInit f s
  | .ncoGen => Sys2Proof.Machine.execNcoGen s
  | .rbPush => Sys2Proof.Machine.execRbPush s
  | .rbPop => Sys2Proof.Machine.execRbPop s
  | .rbFill c l => Sys2Proof.Machine.execRbFill c l s
  | .ifSend => Sys2Proof.Machine.execIfSend s
  | .ifClose => Sys2Proof.Machine.execIfClose s
  | .csrRead a => Sys2Proof.Machine.execCsrRead a s

end Sys2Proof.Machine
end

