-- ==== Sys2Proof/Machine/Ports.lean ====
section
/-! DEFINITION. What one input of the outside world makes the block do: fetching the next request of a
port and running it, and the input that comes next. -/

namespace Sys2Proof.Machine

/-- The request a port runs next: the oldest waiting there (20_memory.md R58). -/
def fetchRequest (p : Port) (s : State) : Option Request := (s.waiting p).head?

/-- The turn of a port's agent: its oldest request is decoded and run; with none waiting nothing
happens (R58, 30_encoding.md R78). -/
def portStep (p : Port) (s : State) : Host.Outcome State Fault Refusal :=
  match fetchRequest p s with
  | none => .next s
  | some r =>
    match decodeOnPort p r.word with
    | some i => exec i s
    | none => .next (refuseWord p r.word s)

/-- The input that comes next: the first listed, and once the list is used up a free one (20_memory.md
R58, R60; log entry 4). -/
def nextInput (s : State) : EnvInput :=
  match s.script with
  | e :: _ => e
  | [] => Config.envDraw s.tick

/-- The state with its next input taken and the step counted. -/
def takeInput (s : State) : State := { s with script := s.script.tail, tick := s.tick + 1 }

/-- What an input makes the block do. -/
def respondToInput (e : EnvInput) (s : State) : Host.Outcome State Fault Refusal :=
  match e with
  | .arrive p r => .next (arrive p r s)
  | .port p => portStep p s
  | .sequencer fail1 fail2 => .next (sequencerStep fail1 fail2 s)
  | .reset => .next (assertReset s)

/-- A chunk for the host's word: N samples +0.0 for a chunk operation, else none (log entry 15). -/
def hostPayload (n : Nat) (w : OpWord) : Chunk :=
  match decodeWord w with
  | .ok i => if i.takesChunk then zeros n else []
  | .error _ => []

/-- The state with a word placed as the next request of its port and that port's turn next. -/
def placeRequest (w : OpWord) (s : State) : State :=
  let p := portOfWord w
  { s with
    pending := s.pending.set p (⟨w, hostPayload s.cfg.n w⟩ :: s.waiting p)
    script := .port p :: s.script }

end Sys2Proof.Machine
end

