-- ==== Sys2Proof/Machine/Step.lean ====
section
/-! DEFINITION. One step of the machine: one input of the outside world is taken, and the block does
what it asks as one indivisible step (20_memory.md R59, R60). -/

namespace Sys2Proof.Machine

/-- One step. -/
def step (s : State) : Host.Outcome State Fault Refusal := respondToInput (nextInput s) (takeInput s)

/-- The state in which the very next step runs the operation whose bits are `w` (log entry 15). -/
def State.withFetchWord (s : State) (nbits w : Nat) : State :=
  placeRequest (BitVec.ofNat 64 (w % 2 ^ nbits)) s

end Sys2Proof.Machine
end

