-- ==== Sys2Proof/Machine/Text.lean ====
section
/-! DEFINITION. The assembler form of the operations (30_encoding.md R81) and the six lines of the
text command protocol (R82), as functions from a line's characters to the request it stands for.
No step of the machine uses this file: the console reader itself is outside the block (00_scope.md
section 3). What R81 and R82 leave open of the grammar is in log entry 14. -/

namespace Sys2Proof.Machine

/-! ## Characters and numbers -/

/-- The value of a decimal digit. -/
def digitValue (c : Char) : Option Nat :=
  if '0'.toNat ≤ c.toNat ∧ c.toNat ≤ '9'.toNat then some (c.toNat - '0'.toNat) else none

/-- The value of a hexadecimal digit, either case. -/
def hexDigitValue (c : Char) : Option Nat :=
  if 'a'.toNat ≤ c.toNat ∧ c.toNat ≤ 'f'.toNat then some (c.toNat - 'a'.toNat + 10)
  else if 'A'.toNat ≤ c.toNat ∧ c.toNat ≤ 'F'.toNat then some (c.toNat - 'A'.toNat + 10)
  else digitValue c

/-- Read digits in a base, going on from a value. -/
def digitsFrom (digit : Char → Option Nat) (base acc : Nat) : List Char → Option Nat
  | [] => some acc
  | c :: cs =>
    match digit c with
    | some v => digitsFrom digit base (acc * base + v) cs
    | none => none

/-- A non-empty run of decimal digits. -/
def parseNat : List Char → Option Nat
  | [] => none
  | c :: cs => digitsFrom digitValue 10 0 (c :: cs)

/-- A non-empty run of hexadecimal digits. -/
def parseHex : List Char → Option Nat
  | [] => none
  | c :: cs => digitsFrom hexDigitValue 16 0 (c :: cs)

/-- `<int>`: decimal with optional `-`, in the i32 range (R81, R82). -/
def parseI32 : List Char → Option (BitVec 32)
  | '-' :: cs =>
    match parseNat cs with
    | some k => if k ≤ 2 ^ 31 then some (BitVec.ofInt 32 (-(k : Int))) else none
    | none => none
  | cs =>
    match parseNat cs with
    | some k => if k < 2 ^ 31 then some (BitVec.ofNat 32 k) else none
    | none => none

/-- An unsigned decimal below 2^w. -/
def parseUnsigned (w : Nat) (cs : List Char) : Option (BitVec w) :=
  match parseNat cs with
  | some k => if k < 2 ^ w then some (BitVec.ofNat w k) else none
  | none => none

/-- `<handle>`: unsigned decimal or `None` (R81). -/
def parseHandle (cs : List Char) : Option (BitVec 32) :=
  if cs = "None".toList then some 0#32 else parseUnsigned 32 cs

/-- Split at the first character `sep`: what stands before it, and what after it if it occurs. -/
def splitFirst (sep : Char) : List Char → List Char × Option (List Char)
  | [] => ([], none)
  | c :: cs =>
    if c = sep then ([], some cs)
    else
      let r := splitFirst sep cs
      (c :: r.1, r.2)

/-- The digits of a decimal without sign, as a numerator and a power of ten. -/
def parseDecimal (cs : List Char) : Option (Nat × Nat) :=
  match splitFirst '.' cs with
  | (whole, none) => (parseNat whole).map (fun k => (k, 1))
  | (whole, some frac) =>
    match parseNat whole, parseNat frac with
    | some k, some f => some (k * 10 ^ frac.length + f, 10 ^ frac.length)
    | _, _ => none

/-- The binary32 value nearest to a decimal (R81; rounding R11).
R81 is silent on a decimal past the largest finite value: here it gives ±∞, as rounding R11 does (PRESUMED,
log entry 14). -/
def parseDecimalValue (neg : Bool) (cs : List Char) : Option F32 :=
  (parseDecimal cs).map (fun r => packValue neg (roundMagnitude (r.1 * 2 ^ 149) r.2))

/-- `<float>`: a decimal or a `0x`-prefixed f32 bit pattern (R81). -/
def parseFloat : List Char → Option F32
  | '0' :: 'x' :: cs =>
    match parseHex cs with
    | some k => if k < 2 ^ 32 then some (BitVec.ofNat 32 k) else none
    | none => none
  | '-' :: cs => parseDecimalValue true cs
  | cs => parseDecimalValue false cs

/-- Drop leading spaces. -/
def dropSpaces : List Char → List Char
  | ' ' :: cs => dropSpaces cs
  | cs => cs

/-- Drop spaces at both ends. -/
def trimSpaces (cs : List Char) : List Char := (dropSpaces (dropSpaces cs).reverse).reverse

/-- The parts of a text between commas, trimmed; `part` is the part being read, last character
first. -/
def commaParts (part : List Char) : List Char → List (List Char)
  | [] => [trimSpaces part.reverse]
  | c :: cs => if c = ',' then trimSpaces part.reverse :: commaParts [] cs else commaParts (c :: part) cs

/-- All of a list parsed, or nothing. -/
def parseAll (f : List Char → Option F32) : List (List Char) → Option (List F32)
  | [] => some []
  | p :: ps =>
    match f p, parseAll f ps with
    | some v, some vs => some (v :: vs)
    | _, _ => none

/-- A chunk literal of n values between braces, characters 123 and 125 (R81). -/
def parseChunk (n : Nat) (cs : List Char) : Option Chunk :=
  match cs with
  | c :: rest =>
    if c = Char.ofNat 123 ∧ rest.getLast? = some (Char.ofNat 125) then
      match parseAll parseFloat (commaParts [] rest.dropLast) with
      | some vs => if vs.length = n then some vs else none
      | none => none
    else none
  | [] => none

/-! ## Operand names -/

/-- `3k | 6k | 11k | None` for the IF role. -/
def parseIfSpec (cs : List Char) : Option IfSpec :=
  if cs = "3k".toList then some .k3 else if cs = "6k".toList then some .k6
  else if cs = "11k".toList then some .k11 else if cs = "None".toList then some .none else none

/-- `3k | 6k | 11k` for the AF role. -/
def parseAfSpec (cs : List Char) : Option AfSpec :=
  if cs = "3k".toList then some .k3 else if cs = "6k".toList then some .k6
  else if cs = "11k".toList then some .k11 else none

/-- `TC0 | TC1 | TC2 | TC3 | TC4 | None`. -/
def parseAgcSpec (cs : List Char) : Option AgcSpec :=
  if cs = "TC0".toList then some .tc0 else if cs = "TC1".toList then some .tc1
  else if cs = "TC2".toList then some .tc2 else if cs = "TC3".toList then some .tc3
  else if cs = "TC4".toList then some .tc4 else if cs = "None".toList then some .none else none

/-- The register names of 10_state.md R42 at fixed addresses, in address order from 0x0000. -/
def registerNames : List (List Char) :=
  ["ID".toList, "PARAM_N".toList, "STATUS".toList, "IF_SPEC".toList, "AF_SPEC".toList,
   "AGC_SPEC".toList, "IF_TAPS".toList, "AF_TAPS".toList, "RSSI".toList, "AGC_HIST0".toList,
   "AGC_HIST1".toList, "AGC_HIST2".toList, "NCO_FREQ".toList, "NCO_DELTA".toList] ++
  ["NCO_PHASE".toList, "PARAM_FS".toList, "RB_HEAD".toList, "RB_TAIL".toList, "RB_SIZE".toList,
   "RB_CAP".toList, "SINK1_SEL".toList, "SINK2_SEL".toList, "CMDQ_LEN".toList,
   "IFQ_LEN".toList, "AFQ_LEN".toList]

/-- `name[i]` with i below 4096, for the two history windows. -/
def parseIndexed (name : List Char) (base : Nat) (cs : List Char) : Option (BitVec 16) :=
  match splitFirst '[' cs with
  | (before, some rest) =>
    if before = name ∧ rest.getLast? = some ']' then
      match parseNat rest.dropLast with
      | some k => if k < 4096 then some (BitVec.ofNat 16 (base + k)) else none
      | none => none
    else none
  | (_, none) => none

/-- A hexadecimal address, with or without `0x`. -/
def parseHexAddr (cs : List Char) : Option (BitVec 16) :=
  let digits := match cs with
    | '0' :: 'x' :: rest => rest
    | other => other
  match parseHex digits with
  | some k => if k < 2 ^ 16 then some (BitVec.ofNat 16 k) else none
  | none => none

/-- `<addr>`: a register name of R42 or a hexadecimal address (R81). -/
def parseAddr (cs : List Char) : Option (BitVec 16) :=
  if cs ∈ registerNames then some (BitVec.ofNat 16 (registerNames.idxOf cs))
  else match parseIndexed "IF_HIST".toList 0x1000 cs with
    | some a => some a
    | none =>
      match parseIndexed "AF_HIST".toList 0x2000 cs with
      | some a => some a
      | none => parseHexAddr cs

/-- `<L>, <C>` of RB.FILL: L a u32, C in 1..255. -/
def parseFill (cs : List Char) : Option Instr :=
  match commaParts [] cs with
  | [l, c] =>
    match parseUnsigned 32 l, parseUnsigned 8 c with
    | some l', some c' => if c' = 0#8 then none else some (.rbFill c' l')
    | _, _ => none
  | _ => none

/-! ## Lines -/

/-- The request of an operation with an operand that selects it. -/
def plainRequest (i : Option Instr) : Option Request := i.map (fun j => ⟨encodeWord j, []⟩)

/-- The request of an operation whose payload is a chunk literal. -/
def chunkRequest (i : Instr) (x : Option Chunk) : Option Request :=
  x.map (fun v => ⟨encodeWord i, v⟩)

/-- The request of a line `MNEMONIC operand` whose operand text is given (R81). -/
def assembleWithOperand (n : Nat) (m o : List Char) : Option Request :=
  if m = "CMD.AM".toList then plainRequest ((parseI32 o).map .cmdAm)
  else if m = "CMD.AGC".toList then plainRequest ((parseI32 o).map .cmdAgc)
  else if m = "CMD.AF".toList then plainRequest ((parseI32 o).map .cmdAf)
  else if m = "CMD.RSSI".toList then plainRequest ((parseHandle o).map .cmdRssi)
  else if m = "CMD.IFOUT".toList then plainRequest ((parseHandle o).map .cmdIfout)
  else if m = "FIR.SEL.IF".toList then plainRequest ((parseIfSpec o).map .firSelIf)
  else if m = "FIR.SEL.AF".toList then plainRequest ((parseAfSpec o).map .firSelAf)
  else if m = "FIR.RUN.IF".toList then chunkRequest .firRunIf (parseChunk n o)
  else if m = "FIR.RUN.AF".toList then chunkRequest .firRunAf (parseChunk n o)
  else if m = "AGC.SEL".toList then plainRequest ((parseAgcSpec o).map .agcSel)
  else if m = "AGC.RUN".toList then chunkRequest .agcRun (parseChunk n o)
  else if m = "ENV.RUN".toList then chunkRequest .envRun (parseChunk n o)
  else if m = "NCO.INIT".toList then plainRequest ((parseFloat o).map .ncoInit)
  else if m = "RB.PUSH".toList then chunkRequest .rbPush (parseChunk n o)
  else if m = "RB.FILL".toList then plainRequest (parseFill o)
  else if m = "IF.SEND".toList then chunkRequest .ifSend (parseChunk n o)
  else if m = "CSR.READ".toList then plainRequest ((parseAddr o).map .csrRead)
  else none

/-- The request of a line that is a mnemonic alone (R81: "Operations with no operand take none"). -/
def assembleAlone (m : List Char) : Option Request :=
  if m = "CMD.END".toList then plainRequest (some .cmdEnd)
  else if m = "NCO.GEN".toList then plainRequest (some .ncoGen)
  else if m = "RB.POP".toList then plainRequest (some .rbPop)
  else if m = "IF.CLOSE".toList then plainRequest (some .ifClose)
  else none

/-- One line of the assembler, for chunks of n samples (R81). -/
def assembleLine (n : Nat) (line : List Char) : Option Request :=
  match splitFirst ' ' line with
  | (m, some o) => assembleWithOperand n m o
  | (m, none) => assembleAlone m

/-- The handle of a sink name: `None` and the empty name disable the sink, any other name has the
handle the host's table gives it (R82). -/
def sinkHandle (names : List Char → BitVec 32) (cs : List Char) : BitVec 32 :=
  if cs = [] ∨ cs = "None".toList then 0#32 else names cs

/-- The operation of a line of the text command protocol; `none` where the line is rejected whole
(R82). -/
def commandOfLine (names : List Char → BitVec 32) (line : List Char) : Option Instr :=
  match splitFirst ' ' line with
  | (k, some o) =>
    if k = "AM".toList then (parseI32 o).map .cmdAm
    else if k = "AGC".toList then (parseI32 o).map .cmdAgc
    else if k = "AF".toList then (parseI32 o).map .cmdAf
    else if k = "RSSI".toList then some (.cmdRssi (sinkHandle names o))
    else if k = "IFOUT".toList then some (.cmdIfout (sinkHandle names o))
    else none
  | (k, none) =>
    if k = "RSSI".toList then some (.cmdRssi 0#32)
    else if k = "IFOUT".toList then some (.cmdIfout 0#32)
    else if k = "END".toList then some .cmdEnd
    else none

/-- The word of a line of the text command protocol (R82). -/
def wordOfLine (names : List Char → BitVec 32) (line : List Char) : Option OpWord :=
  (commandOfLine names line).map encodeWord

end Sys2Proof.Machine
end

