-- ==== Sys2Proof/Safety.lean ====
section
/-! DEFINITION. What counts as a good state and a good run: the invariant of the machine, the halted
states, and the words that the claims use. -/

namespace Sys2Proof.Machine

/-! ## The invariant -/

/-- The parameters meet R263, and the mode is the strap (10_state.md R35). -/
abbrev ParamsInv (s : State) : Prop := s.cfg.wf = true ∧ s.mode = s.cfg.mode

/-- The history length invariant (10_state.md R24). -/
abbrev HistoryInv (s : State) : Prop :=
  s.ifHist.length = s.cfg.ifTaps s.ifSpec ∧ s.afHist.length = s.cfg.afTaps s.afSpec

/-- The ring-buffer invariant (10_state.md R29), with the store in its canonical form and every slot
that holds data written since reset. -/
abbrev RingInv (s : State) : Prop :=
  s.rbSize ≤ s.cfg.cap ∧ s.rbHead < s.cfg.cap ∧ s.rbTail = (s.rbHead + s.rbSize) % s.cfg.cap ∧
  Memory.wf s.cfg.cap s.rbBuf = true ∧
  ∀ j < s.rbSize, (Memory.find s.rbBuf ((s.rbHead + j) % s.cfg.cap)).isSome = true

/-- A phase in [0, TWO_PI), never −0.0 (42_nco.md R143). -/
abbrev PhaseInRange (p : F32) : Prop := isNeg p = false ∧ fgt twoPi p = true

/-- The NCO invariant: the phase in its range and an increment that NCO.INIT accepts (10_state.md R27,
42_nco.md R141). -/
abbrev NcoInv (s : State) : Prop := PhaseInRange s.ncoPhase ∧ ncoLegal s.ncoDelta = true

/-- A legal word of the command port. -/
abbrev IsCommandWord (w : OpWord) : Prop := (decodeOnPort .command w).isSome = true

/-- What the channels hold: command words, and chunks of exactly N samples (10_state.md R31, 00_scope.md
R5). -/
abbrev ChannelInv (s : State) : Prop :=
  (∀ w ∈ s.cmdQ, IsCommandWord w) ∧
  (∀ x ∈ s.ifQ, x.length = s.cfg.n) ∧ (∀ x ∈ s.afQ, x.length = s.cfg.n)

/-- Every request waiting is one that can be formed on its port (30_encoding.md R79). -/
abbrev PortInv (s : State) : Prop :=
  (∀ r ∈ s.pending.command, r.formed s.cfg.n .command = true) ∧
  (∀ r ∈ s.pending.capture, r.formed s.cfg.n .capture = true) ∧
  (∀ r ∈ s.pending.playback, r.formed s.cfg.n .playback = true) ∧
  (∀ r ∈ s.pending.direct, r.formed s.cfg.n .direct = true)

/-- The word of CMD.END (44_chain.md R187). -/
def endWord : OpWord := 0x0F00000000000000#64

/-- Termination (44_chain.md R187, R200): END is queued at most once and last, with the command port
closed; once it is applied no command waits; Terminating waits for its last chunk, and Stopped rests in
Poll. -/
abbrev TerminationInv (s : State) : Prop :=
  (endWord ∈ s.cmdQ → s.cmdClosed = true) ∧ endWord ∉ s.cmdQ.dropLast ∧
  (s.seqState ≠ .running → s.cmdClosed = true ∧ s.cmdQ = []) ∧
  (s.seqState = .terminating → s.seqPhase = .wait) ∧
  (s.seqState = .stopped → s.seqPhase = .poll)

/-- The fault cause (60_exceptions.md R232): 0 while not halted, else RB_OVERFLOW or
CHANNEL_DISCONNECT; RB_UNDERFLOW is unreachable (43_ring_buffer.md R168). -/
abbrev CauseInv (s : State) : Prop :=
  (s.fatal = false → s.cause = 0#4) ∧ (s.fatal = true → s.cause = 8#4 ∨ s.cause = 10#4)

/-- A sink with no handle is disabled (44_chain.md R185, R186). -/
abbrev SinkInv (s : State) : Prop :=
  (s.sink1Sel = 0#32 → s.sink1En = false) ∧ (s.sink2Sel = 0#32 → s.sink2En = false)

/-- In DIRECT mode the chain is at rest (60_exceptions.md R234, R244). -/
abbrev DirectInv (s : State) : Prop :=
  s.mode = .direct →
    s.cmdQ = [] ∧ s.ifQ = [] ∧ s.afQ = [] ∧ s.capClosed = false ∧ s.cmdClosed = false ∧
    s.seqState = .running ∧ s.seqPhase = .poll ∧ s.sink1En = false ∧ s.sink2En = false ∧
    s.cause ≠ 10#4

/-- The invariant of the machine: what every step keeps. -/
structure State.Inv (s : State) : Prop where
  params : ParamsInv s
  history : HistoryInv s
  ring : RingInv s
  nco : NcoInv s
  channel : ChannelInv s
  port : PortInv s
  termination : TerminationInv s
  cause : CauseInv s
  sink : SinkInv s
  direct : DirectInv s

/-! ## Runs -/

/-- A halted state is a fault and never the successful end of a run (60_exceptions.md R236). -/
def State.halted (s : State) : Bool := s.fatal

/-- Step s answers next t. -/
def StepsTo (s t : State) : Prop := step s = .next t

/-- Some number of steps leads from s to t, no state on the way halted, t included: a good run. -/
inductive SafeRun : State → State → Prop
  | done (s : State) (h : s.halted = false) : SafeRun s s
  | more (s t u : State) (h : s.halted = false) (hs : StepsTo s t) (hr : SafeRun t u) : SafeRun s u

/-! ## Words of the claims -/

/-- The state after a request of port p is answered: it leaves the port, where `rs` wait behind it, and
one response is added (30_encoding.md R80). -/
def answered (p : Port) (st : Status) (res : Result) (rs : List Request) (s : State) : State :=
  { s with
    pending := s.pending.set p rs
    responses := s.responses ++ [⟨p, st, res⟩] }

/-- The samples the ring buffer holds, the oldest first (10_state.md R29). -/
def State.buffered (s : State) : List F32 :=
  (List.range s.rbSize).map (fun j => Memory.read s.rbBuf ((s.rbHead + j) % s.cfg.cap))

/-- ⌈L/C⌉, the mono samples that L output samples on C channels take (43_ring_buffer.md R163). -/
def framesOf (l c : Nat) : Nat := (l + c - 1) / c

/-- Equal, or both NaN: which NaN a result is, is free at every operation (00_scope.md R13). -/
def SameValue (a b : F32) : Prop := a = b ∨ (isNan a = true ∧ isNan b = true)

/-- The state with a chunk as the one request of its direct port, in DIRECT mode: how a unit is run by
hand (44_chain.md R199). -/
def onDirect (x : Chunk) (s : State) : State :=
  { s with mode := .direct, pending := { s.pending with direct := [⟨0#64, x⟩] } }

/-- SIN_OK(ε), all that a claim about NCO output values may assume of a sine routine (42_nco.md
R145). -/
def SinOk (sine : F32 → F32) (ε : Real) : Prop :=
  sine 0#32 = 0#32 ∧
  ∀ p : F32, isNan p = false → 0 ≤ ratValue p → fgt twoPi p = true →
    isFinite (sine p) = true ∧ |(ratValue (sine p) : Real) - Real.sin (ratValue p : Real)| ≤ ε

end Sys2Proof.Machine
end

