-- ==== Sys2Proof/Certificates/Slice0/Obligations.lean ====
section
/-! DEFINITION. The statements for the provers.
Where a statement gives the next state as the state before with some fields replaced, that equation is
also the frame: every field not named is unchanged. -/

open Sys2Proof Sys2Proof.Machine

/-! ## Encoding -/

/-- Decoding an encoded legal operation gives it back, as a word and as the 8 bytes of R54, with every
operand at every value. -/
def Obligations.DecodeOfEncodedOperation : Prop :=
  ∀ i : Instr, i.wf = true →
    decodeWord (encodeWord i) = .ok i ∧ decodeBytes (encodeBytes i) = .ok i

/-- Each word has one meaning: a word that decodes to an operation is that operation's encoding. -/
def Obligations.EncodeOfDecodedWord : Prop :=
  ∀ (w : OpWord) (i : Instr), decodeWord w = .ok i → i.wf = true ∧ encodeWord i = w

/-- The decoder accepts exactly the words of the opcode table's rows, less the illegal spec codes and
RB.FILL without channels (R78). -/
def Obligations.DecoderAcceptsExactlyTheTable : Prop :=
  ∀ w : OpWord,
    (∃ i, decodeWord w = .ok i) ↔
      (∃ row ∈ opTable, w &&& row.mask = row.pattern) ∧
      w ≠ 0x1100000000000003#64 ∧ w ≠ 0x2000000000000006#64 ∧ w ≠ 0x2000000000000007#64 ∧
      ¬ (w.toNat / 2 ^ 56 = 0x42 ∧ w.toNat / 2 ^ 48 % 2 ^ 8 = 0)

/-- The encoding examples of R83. -/
def Obligations.EncodingExamples : Prop :=
  decodeWord 0x0100000000000003#64 = .ok (.cmdAm 3#32) ∧
  decodeWord 0x02000000FFFFFFFF#64 = .ok (.cmdAgc (BitVec.ofInt 32 (-1))) ∧
  decodeWord 0x0300000000000002#64 = .ok (.cmdAf 2#32) ∧
  decodeWord 0x0F00000000000000#64 = .ok .cmdEnd ∧
  decodeWord 0x1000000000000003#64 = .ok (.firSelIf .none) ∧
  decodeWord 0x1100000000000002#64 = .ok (.firSelAf .k11) ∧
  decodeWord 0x2000000000000004#64 = .ok (.agcSel .tc4) ∧
  decodeWord 0x2000000000000005#64 = .ok (.agcSel .none) ∧
  decodeWord 0x300000003F800000#64 = .ok (.ncoInit 0x3F800000#32) ∧
  decodeWord 0x4202000000000008#64 = .ok (.rbFill 2#8 8#32) ∧
  decodeWord 0x6000000000000002#64 = .ok (.csrRead 0x0002#16) ∧
  decodeWord 0x6000000000001001#64 = .ok (.csrRead 0x1001#16)

/-- Bytes are little-endian: byte k of an operation word holds its bits 8k+7..8k, and so for the 32-bit
values of telemetry (R54). A sink receives the 4 bytes of the metric, or the bytes of the chunk's samples
one after the other (R202). -/
def Obligations.BytesAreLittleEndian : Prop :=
  (∀ (w : OpWord) (k : Nat), k < 8 → (bytesOfWord w)[k]? = some (w.extractLsb' (8 * k) 8)) ∧
  (∀ w : OpWord, wordOfBytes (bytesOfWord w) = some w) ∧
  (∀ (v : BitVec 32) (k : Nat), k < 4 → (bytesOfValue v)[k]? = some (v.extractLsb' (8 * k) 8)) ∧
  (∀ (h : BitVec 32) (m : F32),
    (Event.sink1 h m).bytes.length = 4 ∧
    ∀ k < 4, (Event.sink1 h m).bytes[k]? = some (m.extractLsb' (8 * k) 8)) ∧
  (∀ (h : BitVec 32) (x : Chunk),
    (Event.sink2 h x).bytes.length = 4 * x.length ∧
    ∀ (n : Nat) (v : F32), x[n]? = some v →
      ∀ k < 4, (Event.sink2 h x).bytes[4 * n + k]? = some (v.extractLsb' (8 * k) 8))

/-! ## The step, requests and responses -/

/-- A step on a port's turn runs the operation its oldest request's word decodes to, with the input
taken and the step counted (the turns are the model's, log entry 4). An arriving request that can be formed
waits behind those of its port and nothing else changes (R58); one that cannot be formed changes nothing,
which is the model's reading (log entry 8, DEDUCED). A request of an operation of the port can be formed
exactly when it carries N samples for a chunk operation and none for any other (R79). -/
def Obligations.StepRunsDecodedRequest : Prop :=
  (∀ (s : State) (p : Port) (r : Request) (rs : List Request) (i : Instr),
    nextInput s = .port p → s.waiting p = r :: rs → decodeWord r.word = .ok i → i.port = p →
    step s = exec i { s with script := s.script.tail, tick := s.tick + 1 }) ∧
  (∀ (s : State) (p : Port) (r : Request), nextInput s = .arrive p r →
    (r.formed s.cfg.n p = true → step s = .next { s with
      pending := s.pending.set p (s.waiting p ++ [r]),
      script := s.script.tail, tick := s.tick + 1 }) ∧
    (r.formed s.cfg.n p = false →
      step s = .next { s with script := s.script.tail, tick := s.tick + 1 })) ∧
  (∀ (n : Nat) (p : Port) (r : Request) (i : Instr), decodeWord r.word = .ok i → i.port = p →
    (r.formed n p = true ↔ r.payload.length =
      if i ∈ [.firRunIf, .firRunAf, .agcRun, .envRun, .rbPush, .ifSend] then n else 0))

/-- A word that is no operation of its port, one of another port among them: it arrives bare or with a
chunk (log entry 8), and its answer is HALTED while the block is halted, else REJECTED on the command port,
else ILLEGAL, with no other effect (R72, R74, R76, R238).
While the block is halted a word with OP 0x60 on the direct port answers ILLEGAL, as CSR.READ is the one
operation R238 exempts from HALTED, and one on another port answers HALTED: how far the exemption reaches
is the model's choice (log entry 13, DEDUCED). -/
def Obligations.IllegalWordAnswer : Prop :=
  (∀ (s : State) (p : Port) (r : Request) (rs : List Request),
    nextInput s = .port p → s.waiting p = r :: rs →
    (∀ i, decodeWord r.word = .ok i → i.port ≠ p) →
    step s = .next (answered p
      (if s.fatal = true ∧ ¬ (p = .direct ∧ opField r.word = 0x60#8) then .halted
        else if p = .command then .rejected else .illegal) .none rs
      { s with script := s.script.tail, tick := s.tick + 1 })) ∧
  (∀ (s : State) (p : Port) (r : Request),
    nextInput s = .arrive p r → (∀ i, decodeWord r.word = .ok i → i.port ≠ p) →
    r.payload = [] ∨ r.payload.length = s.cfg.n →
    step s = .next { s with
      pending := s.pending.set p (s.waiting p ++ [r]),
      script := s.script.tail, tick := s.tick + 1 })

/-- Every operation, in every state, answers a next state: either with exactly one response on its port,
carrying a result only when the status is OK, or it is RB.FILL and goes on with no response. -/
def Obligations.OneResponsePerOperation : Prop :=
  ∀ (i : Instr) (s : State), ∃ t : State, exec i s = .next t ∧
    ((∃ st res, t.responses = s.responses ++ [⟨i.port, st, res⟩] ∧
        (st ≠ .ok → res = .none) ∧
        t.pending = s.pending.set i.port (s.waiting i.port).tail) ∨
     ((∃ c l, i = .rbFill c l) ∧ t.responses = s.responses ∧ t.pending = s.pending))

/-! ## The checks of every operation (60_exceptions.md R234, R235, R237, R238) -/

/-- While the block is halted every operation but CSR.READ answers HALTED with no effect, an RB.FILL
that was holding too; CSR.READ answers what it answers when the block is not halted (R237). -/
def Obligations.HaltedBlockAnswersHalted : Prop :=
  (∀ (i : Instr) (s : State) (rs : List Request) (r : Request),
    s.fatal = true → (∀ a, i ≠ .csrRead a) → s.waiting i.port = r :: rs →
    exec i s = .next (answered i.port .halted .none rs s)) ∧
  (∀ (a : BitVec 16) (s : State) (rs : List Request) (r : Request) (v : BitVec 32),
    s.fatal = true → s.waiting .direct = r :: rs →
    (readRegister s a = some v →
      exec (.csrRead a) s = .next (answered .direct .ok (.value v) rs s)) ∧
    (readRegister s a = none →
      exec (.csrRead a) s = .next (answered .direct .illegal .none rs s)))

/-- MODE is answered, with no state change, for an operation of the command, capture or playback port in
DIRECT mode, and in CHAIN mode for every operation of the direct port but ENV.RUN, NCO.INIT, NCO.GEN and
CSR.READ; these four are never answered MODE, nor is any other in the mode that admits it (R234). -/
def Obligations.ModeRefusal : Prop :=
  ∀ (i : Instr) (s : State) (r : Request) (rs : List Request),
    s.fatal = false → i.wf = true → s.waiting i.port = r :: rs →
    (let chainOnly := i.port ≠ .direct
     let both := i = .envRun ∨ (∃ f, i = .ncoInit f) ∨ i = .ncoGen ∨ (∃ a, i = .csrRead a)
     let refusedHere := (chainOnly ∧ s.mode = .direct) ∨ (¬ chainOnly ∧ ¬ both ∧ s.mode = .chain)
     (refusedHere → exec i s = .next (answered i.port .mode .none rs s)) ∧
     (¬ refusedHere → ∀ t, exec i s = .next t →
       t.responses ≠ s.responses ++ [⟨i.port, .mode, .none⟩]))

/-- STOPPED is answered, with no state change, for a command word after the command port closed or once
the sequencer has stopped, and for IF.SEND after IF.CLOSE or once the sequencer has stopped (R235). -/
def Obligations.StoppedRefusal : Prop :=
  (∀ (i : Instr) (s : State) (r : Request) (rs : List Request),
    i.port = .command → s.fatal = false → s.mode = .chain → s.waiting .command = r :: rs →
    s.cmdClosed = true ∨ s.seqState = .stopped →
    exec i s = .next (answered .command .stopped .none rs s)) ∧
  (∀ (s : State) (r : Request) (rs : List Request),
    s.fatal = false → s.mode = .chain → s.waiting .capture = r :: rs →
    s.capClosed = true ∨ s.seqState = .stopped →
    exec .ifSend s = .next (answered .capture .stopped .none rs s))

/-! ## Filter Bank -/

/-- FIR.SEL.IF and FIR.SEL.AF construct a fresh instance: the spec and a history of zeros of its tap
count, whatever spec was active (R101, R102, R108). -/
def Obligations.FirSelectionIsFresh : Prop :=
  ∀ (s : State) (r : Request) (rs : List Request),
    s.fatal = false → s.mode = .direct → s.waiting .direct = r :: rs →
    (∀ k : IfSpec, exec (.firSelIf k) s = .next (answered .direct .ok .none rs
      { s with ifSpec := k, ifHist := List.replicate (s.cfg.ifRom k).length 0#32 })) ∧
    (∀ k : AfSpec, exec (.firSelAf k) s = .next (answered .direct .ok .none rs
      { s with afSpec := k, afHist := List.replicate (s.cfg.afRom k).length 0#32 }))

/-- FIR.RUN.IF with a spec other than None, and FIR.RUN.AF: with T taps, output sample n is the dot
product of the coefficient table with the T samples that end at input sample n, the samples of earlier
chunks before them, and the history becomes the last T samples (R100, R103 to R106). -/
def Obligations.FirRunConvolves : Prop :=
  ∀ (s : State) (r : Request) (rs : List Request),
    s.fatal = false → s.mode = .direct → s.waiting .direct = r :: rs →
    (s.ifSpec ≠ .none → s.ifHist.length = (s.cfg.ifRom s.ifSpec).length → 1 ≤ s.ifHist.length →
      ∃ y : Chunk,
        exec .firRunIf s = .next (answered .direct .ok (.chunk y) rs
          { s with ifHist := (s.ifHist ++ r.payload).drop r.payload.length }) ∧
        y.length = r.payload.length ∧
        ∀ n < r.payload.length, ∃ d : DrawSite,
          y[n]? = some (dot d (((s.ifHist ++ r.payload).drop (n + 1)).take s.ifHist.length)
            (s.cfg.ifRom s.ifSpec))) ∧
    (s.afHist.length = (s.cfg.afRom s.afSpec).length → 1 ≤ s.afHist.length →
      ∃ y : Chunk,
        exec .firRunAf s = .next (answered .direct .ok (.chunk y) rs
          { s with afHist := (s.afHist ++ r.payload).drop r.payload.length }) ∧
        y.length = r.payload.length ∧
        ∀ n < r.payload.length, ∃ d : DrawSite,
          y[n]? = some (dot d (((s.afHist ++ r.payload).drop (n + 1)).take s.afHist.length)
            (s.cfg.afRom s.afSpec)))

/-- IF None is the identity on every chunk, bit for bit, NaN payloads and −0.0 included, and keeps the
last sample as history; on a chunk without NaN it equals the FIR function with the table [1.0], since
multiplying by 1.0 is exact (R107). -/
def Obligations.IfNoneIsIdentity : Prop :=
  (∀ (s : State) (r : Request) (rs : List Request) (last : F32),
    s.fatal = false → s.mode = .direct → s.waiting .direct = r :: rs → s.ifSpec = .none →
    r.payload.getLast? = some last →
    exec .firRunIf s = .next (answered .direct .ok (.chunk r.payload) rs
      { s with ifHist := [last] })) ∧
  (∀ (d : DrawSite) (v : F32), isNan v = false → fmul d v 0x3F800000#32 = v) ∧
  (∀ (d : DrawSite) (h v : F32) (x : Chunk), (∀ u ∈ x, isNan u = false) → x.getLast? = some v →
    firChunk d [0x3F800000#32] [h] x = ([v], x))

/-- The history one chunk leaves is what the next starts from: two chunks in turn give the history and
the samples (up to the choice of NaN) that one long chunk gives (R103). -/
def Obligations.FirHistoryCarriesAcrossChunks : Prop :=
  ∀ (d d1 d2 : DrawSite) (c h : List F32) (x y : Chunk),
    (firChunk d c h (x ++ y)).1 = (firChunk d2 c (firChunk d1 c h x).1 y).1 ∧
    List.Forall₂ SameValue (firChunk d c h (x ++ y)).2
      ((firChunk d1 c h x).2 ++ (firChunk d2 c (firChunk d1 c h x).1 y).2)

/-- The dot product is the left-to-right sum of the products, seeded with the first product (R16), up
to the choice of NaN. -/
def Obligations.DotIsLeftToRightSum : Prop :=
  ∀ (d d0 : DrawSite) (h c : F32) (hs cs : List F32), hs.length = cs.length →
    SameValue (dot d (h :: hs) (c :: cs))
      ((hs.zip cs).foldl (fun acc p => fadd d0 acc (fmul d0 p.1 p.2)) (fmul d0 h c))

/-! ## AGC -/

/-- AGC.SEL constructs a fresh AGC instance and leaves the level metric (R121). -/
def Obligations.AgcSelectionIsFresh : Prop :=
  ∀ (s : State) (k : AgcSpec) (r : Request) (rs : List Request),
    s.fatal = false → s.mode = .direct → s.waiting .direct = r :: rs →
    exec (.agcSel k) s = .next (answered .direct .ok .none rs
      { s with agcSpec := k, agcHist := ⟨0#32, 0#32, 0#32⟩ })

/-- AGC.RUN: the instant level enters the history, the smoothed level is the dot product of the history
with the table, and the chunk is divided by it and scaled by 0.8 exactly when it is above the floor, the
metric then being the smoothed level; else the chunk passes unscaled with the instant level
(R120, R122, R123). -/
def Obligations.AgcRunNormalizes : Prop :=
  ∀ (s : State) (r : Request) (rs : List Request),
    s.fatal = false → s.mode = .direct → s.waiting .direct = r :: rs →
    ∃ (d1 d2 : DrawSite) (y : Chunk),
      (let inst := meanAbs d1 s.cfg.n r.payload
       let g : Taps := ⟨s.agcHist.t1, s.agcHist.t2, inst⟩
       let a := s.cfg.agcRom s.agcSpec
       let sm := dot d2 [g.t0, g.t1, g.t2] [a.t0, a.t1, a.t2]
       let loud := fgt sm 0x3C23D70A#32
       let metric := if loud then sm else inst
       exec .agcRun s = .next (answered .direct .ok (.chunkMetric y metric) rs
         { s with agcHist := g, rssi := metric }) ∧
       (loud = false → y = r.payload) ∧
       (loud = true → y.length = r.payload.length ∧
         ∀ (n : Nat) (x : F32), r.payload[n]? = some x →
           ∃ e1 e2 : DrawSite, y[n]? = some (fmul e2 (fdiv e1 x sm) 0x3F4CCCCD#32)))

/-- With AGCSpec None every chunk passes unscaled and the metric is the instant level (R124). -/
def Obligations.AgcNonePassesUnscaled : Prop :=
  ∀ (s : State) (r : Request) (rs : List Request),
    s.fatal = false → s.mode = .direct → s.waiting .direct = r :: rs → s.agcSpec = .none →
    ∃ d : DrawSite,
      (let inst := meanAbs d s.cfg.n r.payload
       exec .agcRun s = .next (answered .direct .ok (.chunkMetric r.payload inst) rs
         { s with agcHist := ⟨s.agcHist.t1, s.agcHist.t2, inst⟩, rssi := inst }))

/-- A chunk of zeros of either sign comes out of AGC.RUN bit for bit, in both branches, and its level +0.0
enters the history. The metric is never NaN: it is +0.0, or the smoothed level where that is above the floor,
which it is not once the remembered levels are zero too (R127).
It is finite where the remembered levels and the taps they are paired with are finite and the smoothed level
stays below 2^126. R127 says "never infinite" with no such condition, which R120's steps do not give: the
model follows R120 (log entry 22, DESIGN CHOICE). -/
def Obligations.AgcZeroChunkUnchanged : Prop :=
  ∀ (s : State) (r : Request) (rs : List Request),
    s.fatal = false → s.mode = .direct → s.waiting .direct = r :: rs → 1 ≤ s.cfg.n →
    (∀ v ∈ r.payload, v = 0#32 ∨ v = 0x80000000#32) →
    ∃ m : F32,
      exec .agcRun s = .next (answered .direct .ok (.chunkMetric r.payload m) rs
        { s with agcHist := ⟨s.agcHist.t1, s.agcHist.t2, 0#32⟩, rssi := m }) ∧
      isNan m = false ∧ (m = 0#32 ∨ fgt m 0x3C23D70A#32 = true) ∧
      (isZero s.agcHist.t1 = true → isZero s.agcHist.t2 = true → m = 0#32) ∧
      (let a := s.cfg.agcRom s.agcSpec
       isFinite s.agcHist.t1 = true → isFinite s.agcHist.t2 = true →
       isFinite a.t0 = true → isFinite a.t1 = true →
       |ratValue s.agcHist.t1 * ratValue a.t0| + |ratValue s.agcHist.t2 * ratValue a.t1| ≤ 2 ^ 126 →
       isFinite m = true)

/-- Three chunks of one instance fill the history: after AGC.RUN three times on a chunk without NaN every
history entry is the chunk's mean absolute amplitude, which no NaN draw changes. Convergence: with a table
that sums to 1 and a constant amplitude A above the floor the third chunk comes out with its signs and
magnitude 0.8 up to rounding (R126).
"Up to rounding" is spelled out here: the error is at most (N + 16·S)·2^-23, where S is the sum of the
taps' magnitudes, for N ≤ 2^16, S ≤ 2^10 and A from 0.011 to 2^100. What "sums to 1 within rounding" admits
is in `Params.wf` (log entry 23, DESIGN CHOICE). -/
def Obligations.AgcHistorySettlesInThreeChunks : Prop :=
  (∀ (s : State) (x : Chunk),
    s.fatal = false → s.cfg.wf = true → x ≠ [] → (∀ v ∈ x, isNan v = false) →
    ∃ (m : F32) (t1 t2 t3 : State),
      isNan m = false ∧ (∀ d : DrawSite, meanAbs d s.cfg.n x = m) ∧
      exec .agcRun (onDirect x s) = .next t1 ∧ exec .agcRun (onDirect x t1) = .next t2 ∧
      exec .agcRun (onDirect x t2) = .next t3 ∧ t3.agcHist = ⟨m, m, m⟩) ∧
  (∀ (s : State) (x : Chunk) (A : Rat),
    s.fatal = false → s.cfg.wf = true → s.cfg.n ≤ 2 ^ 16 → x.length = s.cfg.n →
    s.agcSpec ≠ .none → (∀ v ∈ x, isFinite v = true ∧ |ratValue v| = A) →
    11 / 1000 ≤ A → A ≤ 2 ^ 100 →
    (let a := s.cfg.agcRom s.agcSpec
     let S : Rat := |ratValue a.t0| + |ratValue a.t1| + |ratValue a.t2|
     S ≤ 2 ^ 10 →
     ∃ (t1 t2 t3 : State) (y : Chunk) (m : F32),
      exec .agcRun (onDirect x s) = .next t1 ∧ exec .agcRun (onDirect x t1) = .next t2 ∧
      exec .agcRun (onDirect x t2) = .next t3 ∧
      t3.responses = t2.responses ++ [⟨.direct, .ok, .chunkMetric y m⟩] ∧
      y.length = x.length ∧
      ∀ (n : Nat) (v : F32), x[n]? = some v →
        ∃ u : F32, y[n]? = some u ∧ isFinite u = true ∧ isNeg u = isNeg v ∧
          |(|ratValue u| - 4 / 5)| ≤ ((s.cfg.n : Rat) + 16 * S) / 2 ^ 23))

/-- The mean absolute amplitude is the left-to-right sum of the absolute values, from |x[0]|, divided by
f32(N), up to the choice of NaN; and f32(N) is exact for every N ≤ 2^24 (R17). -/
def Obligations.MeanAbsIsMeanOfAbsoluteValues : Prop :=
  (∀ (d d0 : DrawSite) (n : Nat) (x : F32) (xs : Chunk),
    SameValue (meanAbs d n (x :: xs))
      (fdiv d0 (xs.foldl (fun acc v => fadd d0 acc (fabs v)) (fabs x)) (natValue n))) ∧
  (∀ n : Nat, n ≤ 2 ^ 24 → signedValue (natValue n) = (n : Int) * 2 ^ 149)

/-! ## Envelope detector -/

/-- ENV.RUN maps every sample x to (|x| − 0.5) × 2 and changes no unit, in both modes (R194). -/
def Obligations.EnvRunDetectsEnvelope : Prop :=
  ∀ (s : State) (r : Request) (rs : List Request),
    s.fatal = false → s.waiting .direct = r :: rs →
    ∃ y : Chunk,
      exec .envRun s = .next (answered .direct .ok (.chunk y) rs s) ∧
      y.length = r.payload.length ∧
      ∀ (n : Nat) (x : F32), r.payload[n]? = some x →
        ∃ e1 e2 : DrawSite,
          y[n]? = some (fmul e2 (fsub e1 (fabs x) 0x3F000000#32) 0x40000000#32)

/-! ## NCO -/

/-- NCO.INIT computes the increment fdiv(fmul(TWO_PI, f), FS); where it is finite with magnitude below
TWO_PI the oscillator is constructed at phase +0.0, else the answer is ILLEGAL with no change
(R140, R141). -/
def Obligations.NcoInitConstructs : Prop :=
  ∀ (s : State) (f : F32) (r : Request) (rs : List Request),
    s.fatal = false → s.waiting .direct = r :: rs →
    ∃ d1 d2 : DrawSite,
      (let delta := fdiv d2 (fmul d1 0x40C90FDB#32 f) s.cfg.fs
       (isFinite delta = true ∧ fgt 0x40C90FDB#32 (fabs delta) = true →
         exec (.ncoInit f) s = .next (answered .direct .ok .none rs
           { s with ncoFreq := f, ncoDelta := delta, ncoPhase := 0#32 })) ∧
       (¬ (isFinite delta = true ∧ fgt 0x40C90FDB#32 (fabs delta) = true) →
         exec (.ncoInit f) s = .next (answered .direct .illegal .none rs s)))

/-- NCO.GEN: sample n is SIN32 at the n-th phase, the phases start at the phase held and each is the one
before advanced by the increment and wrapped, and the phase after N samples is kept (R142). The wrap takes
TWO_PI off a value at or above TWO_PI, adds it to a value below 0 and leaves any other, and then makes a
result that is not below TWO_PI +0.0 (R143). -/
def Obligations.NcoGenFollowsPhase : Prop :=
  (∀ (e : DrawSite) (q : F32), ∃ (e1 e2 : DrawSite),
    (let r := if fgt 0x40C90FDB#32 q = false then fsub e1 q 0x40C90FDB#32
       else if fgt 0#32 q = true then fadd e2 q 0x40C90FDB#32 else q
     wrapPhase e q = if fgt 0x40C90FDB#32 r = false then 0#32 else r)) ∧
  (∀ (s : State) (r : Request) (rs : List Request),
    s.fatal = false → s.waiting .direct = r :: rs →
    ∃ (p : Nat → F32) (y : Chunk),
      p 0 = s.ncoPhase ∧
      (∀ n < s.cfg.n, ∃ d e : DrawSite, p (n + 1) = wrapPhase e (fadd d (p n) s.ncoDelta)) ∧
      y.length = s.cfg.n ∧ (∀ n < s.cfg.n, y[n]? = some (Config.sin32 (p n))) ∧
      exec .ncoGen s = .next (answered .direct .ok (.chunk y) rs { s with ncoPhase := p s.cfg.n }))

/-- From a phase in [0, TWO_PI) and an increment NCO.INIT accepts, the wrapped next phase lies in
[0, TWO_PI) again, and is never −0.0 (R143). -/
def Obligations.WrapKeepsPhaseInRange : Prop :=
  ∀ (d e : DrawSite) (p delta : F32), PhaseInRange p → ncoLegal delta = true →
    PhaseInRange (wrapPhase e (fadd d p delta))

/-- Continuity: from a state that meets the NCO invariant, k chunks of n samples in turn are the k·n
samples of one generation from the same phase, and leave the same phase (R144). -/
def Obligations.NcoChunksAreContinuous : Prop :=
  ∀ (delta p : F32) (n : Nat) (d0 : DrawSite) (d : Nat → DrawSite), PhaseInRange p → ncoLegal delta = true →
    ∀ k : Nat,
      (let runs : Nat → F32 × Chunk := fun j => Nat.rec (p, [])
          (fun i acc =>
            ((ncoSamples delta n (d i) acc.1).1, acc.2 ++ (ncoSamples delta n (d i) acc.1).2)) j
       runs k = ncoSamples delta (k * n) d0 p)

/-! ## Ring buffer -/

/-- RB.PUSH: with room for the chunk, its samples are written to the slots from the tail on, around the
end of the store, and every other slot reads as before; without room the block halts with RB_OVERFLOW and
the buffer is unchanged (R161, R236). -/
def Obligations.RbPushStoresChunk : Prop :=
  ∀ (s : State) (r : Request) (rs : List Request),
    s.fatal = false → s.mode = .direct → s.waiting .direct = r :: rs →
    r.payload.length = s.cfg.n → 1 ≤ s.cfg.n →
    (s.rbSize + s.cfg.n ≤ s.cfg.cap →
      ∃ m : Memory,
        exec .rbPush s = .next (answered .direct .ok .none rs { s with
          rbBuf := m, rbTail := (s.rbTail + s.cfg.n) % s.cfg.cap, rbSize := s.rbSize + s.cfg.n }) ∧
        (∀ j v, r.payload[j]? = some v → Memory.read m ((s.rbTail + j) % s.cfg.cap) = v) ∧
        (∀ a, (∀ j < s.cfg.n, a ≠ (s.rbTail + j) % s.cfg.cap) →
          Memory.read m a = Memory.read s.rbBuf a)) ∧
    (s.cfg.cap < s.rbSize + s.cfg.n →
      exec .rbPush s = .next (answered .direct .rbOverflow .none rs
        { s with fatal := true, cause := 8#4 }))

/-- RB.POP: the sample at the head, or EMPTY with no change (R162). -/
def Obligations.RbPopRemovesOldest : Prop :=
  ∀ (s : State) (r : Request) (rs : List Request),
    s.fatal = false → s.mode = .direct → s.waiting .direct = r :: rs →
    (s.rbSize ≠ 0 →
      exec .rbPop s = .next (answered .direct .ok (.sample (Memory.read s.rbBuf s.rbHead)) rs
        { s with rbHead := (s.rbHead + 1) % s.cfg.cap, rbSize := s.rbSize - 1 })) ∧
    (s.rbSize = 0 → exec .rbPop s = .next (answered .direct .empty .none rs s))

/-- The ring buffer is a first-in first-out queue: a push appends its chunk to what the buffer holds, a
pop takes the oldest sample, and neither breaks the invariant (R166, R169). -/
def Obligations.RingBufferIsFifo : Prop :=
  (∀ (s t : State) (x : Chunk), RingInv s → x.length = s.cfg.n → 1 ≤ s.cfg.n →
    rbPushChunk x s = some t → t.buffered = s.buffered ++ x ∧ RingInv t) ∧
  (∀ (s t : State) (v : F32), RingInv s → rbPopSample s = some (v, t) →
    s.buffered = v :: t.buffered ∧ RingInv t)

/-- RB.FILL with its coverage sufficient: output sample k is the buffered sample number k / C, ⌈L/C⌉
samples leave the buffer, and the store is unchanged (R163, R164, R165). -/
def Obligations.RbFillReplicates : Prop :=
  ∀ (s : State) (c : BitVec 8) (l : BitVec 32) (r : Request) (rs : List Request),
    s.fatal = false → s.mode = .chain → s.waiting .playback = r :: rs → c ≠ 0#8 →
    l.toNat ≤ s.rbSize * c.toNat → s.rbHead < s.cfg.cap →
    ∃ out : List F32,
      exec (.rbFill c l) s = .next (answered .playback .ok (.samples out) rs { s with
        rbHead := (s.rbHead + framesOf l.toNat c.toNat) % s.cfg.cap
        rbSize := s.rbSize - framesOf l.toNat c.toNat }) ∧
      out.length = l.toNat ∧
      ∀ k < l.toNat, out[k]? = s.buffered[k / c.toNat]?

/-- RB.FILL with its coverage short pulls one chunk from the AF channel in one step and goes on, with no
response; where the chunk does not fit the block halts with RB_OVERFLOW and the chunk stays in the channel;
with the channel empty it holds, or halts with CHANNEL_DISCONNECT once the sequencer has stopped
(R163, R164, R201). -/
def Obligations.RbFillTopsUp : Prop :=
  ∀ (s : State) (c : BitVec 8) (l : BitVec 32) (r : Request) (rs : List Request),
    s.fatal = false → s.mode = .chain → s.waiting .playback = r :: rs → c ≠ 0#8 →
    s.rbSize * c.toNat < l.toNat → RingInv s → 1 ≤ s.cfg.n →
    (∀ (x : Chunk) (q : List Chunk), s.afQ = x :: q → x.length = s.cfg.n →
      (s.rbSize + s.cfg.n ≤ s.cfg.cap →
        ∃ t : State, exec (.rbFill c l) s = .next t ∧ t.buffered = s.buffered ++ x ∧
          t = { s with afQ := q, rbBuf := t.rbBuf, rbTail := (s.rbTail + s.cfg.n) % s.cfg.cap,
                       rbSize := s.rbSize + s.cfg.n } ∧
          (∀ a, (∀ j < s.cfg.n, a ≠ (s.rbTail + j) % s.cfg.cap) →
            Memory.read t.rbBuf a = Memory.read s.rbBuf a)) ∧
      (s.cfg.cap < s.rbSize + s.cfg.n →
        exec (.rbFill c l) s = .next (answered .playback .rbOverflow .none rs
          { s with fatal := true, cause := 8#4 }))) ∧
    (s.afQ = [] → s.seqState ≠ .stopped → exec (.rbFill c l) s = .next s) ∧
    (s.afQ = [] → s.seqState = .stopped →
      exec (.rbFill c l) s = .next (answered .playback .channelDisconnect .none rs
        { s with fatal := true, cause := 10#4 }))

/-- RB.FILL without channels is an illegal encoding: no word decodes to it (R75, R233).
What exec answers for the instruction term with no channels, which no step asks for, is the model's choice
(log entry 19, DESIGN CHOICE): ILLEGAL, with no other effect. -/
def Obligations.RbFillNeedsChannels : Prop :=
  (∀ l : BitVec 32, ∀ w : OpWord, decodeWord w ≠ .ok (.rbFill 0#8 l)) ∧
  (∀ (s : State) (l : BitVec 32) (r : Request) (rs : List Request),
    s.fatal = false → s.waiting .playback = r :: rs →
    exec (.rbFill 0#8 l) s = .next (answered .playback .illegal .none rs s))

/-- While every request keeps ⌈L/C⌉ ≤ N, one pulled chunk covers the request and never overflows: with a
chunk waiting, two turns of the playback port complete it (R167). -/
def Obligations.RbFillCompletesInTwoTurns : Prop :=
  ∀ (s : State) (c : BitVec 8) (l : BitVec 32) (x : Chunk) (q : List Chunk) (pl : Chunk)
    (rs : List Request) (es : List EnvInput),
    s.Inv → s.fatal = false → s.mode = .chain → c ≠ 0#8 →
    framesOf l.toNat c.toNat ≤ s.cfg.n →
    s.waiting .playback = ⟨encodeWord (.rbFill c l), pl⟩ :: rs →
    s.afQ = x :: q → s.script = .port .playback :: .port .playback :: es →
    ∃ t u : State, step s = .next t ∧ step t = .next u ∧ t.fatal = false ∧
      ((∃ out, t.responses = s.responses ++ [⟨.playback, .ok, .samples out⟩]) ∨
       (t.responses = s.responses ∧
        ∃ out, u.responses = s.responses ++ [⟨.playback, .ok, .samples out⟩] ∧ u.fatal = false))

/-- RB_UNDERFLOW is unreachable: no step from a state that meets the invariant answers it or halts with
it (R168). -/
def Obligations.UnderflowIsUnreachable : Prop :=
  ∀ s t : State, s.Inv → step s = .next t →
    t.cause ≠ 9#4 ∧
    ∀ r, t.responses = s.responses ++ [r] → r.status ≠ .rbUnderflow

/-! ## Command port and capture port -/

/-- Acceptance: each of the six commands, with the command port open and the sequencer not stopped, is
answered OK and its word is queued; CMD.END also closes the command port; nothing else changes
(R181, R182 to R187). -/
def Obligations.CommandIsQueued : Prop :=
  ∀ (i : Instr) (s : State) (r : Request) (rs : List Request),
    i.port = .command → s.fatal = false → s.mode = .chain → s.cmdClosed = false →
    s.seqState ≠ .stopped → s.waiting .command = r :: rs →
    exec i s = .next (answered .command .ok .none rs
      { s with cmdQ := s.cmdQ ++ [encodeWord i], cmdClosed := decide (i = .cmdEnd) })

/-- The integer selectors (R188, R189, R190). -/
def Obligations.SelectorDecoding : Prop :=
  ∀ n : Int,
    (n ≤ 4 → decodeAm n = .k3) ∧ (5 ≤ n ∧ n ≤ 8 → decodeAm n = .k6) ∧
    (9 ≤ n ∧ n ≤ 13 → decodeAm n = .k11) ∧ (14 ≤ n → decodeAm n = .none) ∧
    (n ≤ 4 → decodeAf n = .k3) ∧ (5 ≤ n ∧ n ≤ 8 → decodeAf n = .k6) ∧
    (9 ≤ n → decodeAf n = .k11) ∧
    (n < 0 → decodeAgc n = .none) ∧ (n = 0 → decodeAgc n = .tc0) ∧ (n = 1 → decodeAgc n = .tc1) ∧
    (n = 2 → decodeAgc n = .tc2) ∧ (n = 3 → decodeAgc n = .tc3) ∧ (4 ≤ n → decodeAgc n = .tc4)

/-- IF.SEND queues its chunk, and IF.CLOSE sets the closed flag, changing nothing else
(R192, R193). -/
def Obligations.CapturePortOperations : Prop :=
  ∀ (s : State) (r : Request) (rs : List Request),
    s.fatal = false → s.mode = .chain → s.waiting .capture = r :: rs →
    (s.capClosed = false → s.seqState ≠ .stopped →
      exec .ifSend s = .next (answered .capture .ok .none rs { s with ifQ := s.ifQ ++ [r.payload] })) ∧
    exec .ifClose s = .next (answered .capture .ok .none rs { s with capClosed := true })

/-! ## Sequencer -/

/-- The sequencer has a step only when the block is not halted, the mode is CHAIN and the sequencer has
not stopped (R196).
That a turn given to it otherwise is itself a counted step that changes nothing is the model's choice (log
entry 17, DESIGN CHOICE, with the turns of log entry 4). -/
def Obligations.SequencerStepsOnlyWhenEnabled : Prop :=
  ∀ (s : State) (f1 f2 : Bool), nextInput s = .sequencer f1 f2 →
    (¬ (s.fatal = false ∧ s.mode = .chain ∧ s.seqState ≠ .stopped) →
      step s = .next { s with script := s.script.tail, tick := s.tick + 1 }) ∧
    (s.fatal = false ∧ s.mode = .chain ∧ s.seqState ≠ .stopped → s.seqPhase = .poll →
      step s = .next (pollStep { s with script := s.script.tail, tick := s.tick + 1 })) ∧
    (s.fatal = false ∧ s.mode = .chain ∧ s.seqState ≠ .stopped → s.seqPhase = .wait →
      step s = .next (waitStep f1 f2 { s with script := s.script.tail, tick := s.tick + 1 }))

/-- The Poll step drains at most one command, applies it as its rule says and goes to Wait
(R182 to R187, R195, R197). -/
def Obligations.PollAppliesOneCommand : Prop :=
  ∀ s : State,
    (s.cmdQ = [] → pollStep s = { s with seqPhase := .wait }) ∧
    (∀ (q : List OpWord) (n : BitVec 32),
      (s.cmdQ = encodeWord (.cmdAm n) :: q → pollStep s = { s with
        cmdQ := q, seqPhase := .wait, ifSpec := decodeAm n.toInt,
        ifHist := List.replicate (s.cfg.ifRom (decodeAm n.toInt)).length 0#32 }) ∧
      (s.cmdQ = encodeWord (.cmdAgc n) :: q → pollStep s = { s with
        cmdQ := q, seqPhase := .wait, agcSpec := decodeAgc n.toInt,
        agcHist := ⟨0#32, 0#32, 0#32⟩ }) ∧
      (s.cmdQ = encodeWord (.cmdAf n) :: q → pollStep s = { s with
        cmdQ := q, seqPhase := .wait, afSpec := decodeAf n.toInt,
        afHist := List.replicate (s.cfg.afRom (decodeAf n.toInt)).length 0#32 }) ∧
      (s.cmdQ = encodeWord (.cmdRssi n) :: q → pollStep s = { s with
        cmdQ := q, seqPhase := .wait, sink1Sel := n, sink1En := decide (n ≠ 0#32) }) ∧
      (s.cmdQ = encodeWord (.cmdIfout n) :: q → pollStep s = { s with
        cmdQ := q, seqPhase := .wait, sink2Sel := n, sink2En := decide (n ≠ 0#32) }) ∧
      (s.cmdQ = encodeWord .cmdEnd :: q → pollStep s = { s with
        cmdQ := q, seqPhase := .wait, seqState := .terminating }))

/-- The chain computes what the units compute by hand: the chunk the Wait step forwards, the metric and
the unit states are those of FIR.RUN.IF, AGC.RUN, ENV.RUN and FIR.RUN.AF run one after the other on the
direct port (R198, R199).
Where a result is NaN, that the chain and the four operations draw the same NaN is the model's choice (log
entry 3, DESIGN CHOICE, unsafe for such a claim): they run here at one step number, where equal sites take
equal draws, while R13 leaves each NaN free. -/
def Obligations.ChainEqualsUnitsInTurn : Prop :=
  ∀ (s : State) (x : Chunk) (q : List Chunk) (f1 f2 : Bool),
    s.fatal = false → s.mode = .chain → s.seqState ≠ .stopped → s.seqPhase = .wait →
    s.ifQ = x :: q → nextInput s = .sequencer f1 f2 →
    ∃ (a b c y : Chunk) (m : F32) (t1 t2 t3 t4 t : State),
      (let u : State := { s with script := s.script.tail, tick := s.tick + 1 }
       exec .firRunIf (onDirect x u) = .next t1 ∧
       t1.responses = s.responses ++ [⟨.direct, .ok, .chunk a⟩] ∧
       exec .agcRun (onDirect a t1) = .next t2 ∧
       t2.responses = t1.responses ++ [⟨.direct, .ok, .chunkMetric b m⟩] ∧
       exec .envRun (onDirect b t2) = .next t3 ∧
       t3.responses = t2.responses ++ [⟨.direct, .ok, .chunk c⟩] ∧
       exec .firRunAf (onDirect c t3) = .next t4 ∧
       t4.responses = t3.responses ++ [⟨.direct, .ok, .chunk y⟩] ∧
       step s = .next t ∧
       t = { u with
         ifQ := q, ifHist := t4.ifHist, agcHist := t4.agcHist, afHist := t4.afHist,
         afQ := s.afQ ++ [y], rssi := m, seqPhase := .poll,
         seqState := t.seqState, events := t.events, sink1En := t.sink1En, sink2En := t.sink2En })

/-- The Wait step: with no chunk it holds while the capture producer lives and halts the block with
CHANNEL_DISCONNECT once it is gone; with one it forwards one chunk and goes back to Poll, and stops the
sequencer exactly when it was terminating (R198, R200, R201). -/
def Obligations.WaitStepOutcomes : Prop :=
  ∀ (s : State) (f1 f2 : Bool),
    (s.ifQ = [] → s.capClosed = false → waitStep f1 f2 s = s) ∧
    (s.ifQ = [] → s.capClosed = true → waitStep f1 f2 s = { s with fatal := true, cause := 10#4 }) ∧
    (∀ (x : Chunk) (q : List Chunk), s.ifQ = x :: q →
      (s.seqState = .terminating → (waitStep f1 f2 s).seqState = .stopped) ∧
      (s.seqState = .running → (waitStep f1 f2 s).seqState = .running) ∧
      (waitStep f1 f2 s).seqPhase = .poll ∧ (waitStep f1 f2 s).ifQ = q ∧
      (∃ y, (waitStep f1 f2 s).afQ = s.afQ ++ [y] ∧ y.length = x.length) ∧
      (waitStep f1 f2 s).fatal = s.fatal)

/-- Telemetry: an enabled sink gets one event with its handle, the metric for sink 1 and the raw chunk
for sink 2; a failed send disables its sink and does nothing else; a disabled sink gets
nothing and its draw has no effect (R202, R203).
That the event of sink 1 stands before that of sink 2 is the model's choice (log entry 7, DESIGN CHOICE). -/
def Obligations.TelemetryEventsAndFailures : Prop :=
  ∀ (s : State) (x : Chunk) (q : List Chunk) (f1 f2 : Bool), s.ifQ = x :: q →
    (let t := waitStep f1 f2 s
     t.events = s.events ++ (if s.sink1En then [.sink1 s.sink1Sel t.rssi] else []) ++
       (if s.sink2En then [.sink2 s.sink2Sel x] else []) ∧
     (t.sink1En = true ↔ s.sink1En = true ∧ f1 = false) ∧
     (t.sink2En = true ↔ s.sink2En = true ∧ f2 = false) ∧
     t.sink1Sel = s.sink1Sel ∧ t.sink2Sel = s.sink2Sel ∧
     ∀ g1 g2 : Bool, waitStep g1 g2 s =
       { t with sink1En := (waitStep g1 g2 s).sink1En, sink2En := (waitStep g1 g2 s).sink2En })

/-- What the chain forwards depends on the IF chunk, the filter and AGC instances, the parameters and the
NaN draws alone: two states that agree on these forward the same chunk and metric, whatever their sinks,
queues, ring buffer and NCO (R206).
That two states of equal step number take equal NaN draws is the model's choice (log entry 3, DESIGN CHOICE,
unsafe for such a claim): here it is a premise, so equality is claimed for equal draws only. -/
def Obligations.ChainOutputIsDetermined : Prop :=
  ∀ (s t : State) (x : Chunk) (p q : List Chunk) (f1 f2 g1 g2 : Bool),
    s.ifQ = x :: p → t.ifQ = x :: q → s.cfg = t.cfg → s.tick = t.tick →
    s.ifSpec = t.ifSpec → s.ifHist = t.ifHist → s.afSpec = t.afSpec → s.afHist = t.afHist →
    s.agcSpec = t.agcSpec → s.agcHist = t.agcHist →
    ∃ y : Chunk, (waitStep f1 f2 s).afQ = s.afQ ++ [y] ∧ (waitStep g1 g2 t).afQ = t.afQ ++ [y] ∧
      (waitStep f1 f2 s).rssi = (waitStep g1 g2 t).rssi

/-! ## Registers -/

/-- CSR.READ of each register at a fixed address, in both modes, halted or not, and with no state change
(R42, R220, R221). -/
def Obligations.CsrReadFixedRegisters : Prop :=
  ∀ (s : State) (r : Request) (rs : List Request), s.waiting .direct = r :: rs →
    ∀ (a : BitVec 16) (v : BitVec 32),
      (a, v) ∈ [
        (0x0000#16, 0x54485344#32), (0x0001#16, BitVec.ofNat 32 s.cfg.n),
        (0x0002#16, statusWord s), (0x0003#16, (codeOfIfSpec s.ifSpec).setWidth 32),
        (0x0004#16, (codeOfAfSpec s.afSpec).setWidth 32),
        (0x0005#16, (codeOfAgcSpec s.agcSpec).setWidth 32),
        (0x0006#16, BitVec.ofNat 32 (s.cfg.ifRom s.ifSpec).length),
        (0x0007#16, BitVec.ofNat 32 (s.cfg.afRom s.afSpec).length),
        (0x0008#16, s.rssi)] ++ [
        (0x0009#16, s.agcHist.t0), (0x000A#16, s.agcHist.t1), (0x000B#16, s.agcHist.t2),
        (0x000C#16, s.ncoFreq), (0x000D#16, s.ncoDelta), (0x000E#16, s.ncoPhase),
        (0x000F#16, s.cfg.fs), (0x0010#16, BitVec.ofNat 32 s.rbHead),
        (0x0011#16, BitVec.ofNat 32 s.rbTail), (0x0012#16, BitVec.ofNat 32 s.rbSize),
        (0x0013#16, BitVec.ofNat 32 (2 * s.cfg.n))] ++ [
        (0x0014#16, s.sink1Sel), (0x0015#16, s.sink2Sel),
        (0x0016#16, BitVec.ofNat 32 (min s.cmdQ.length (2 ^ 32 - 1))),
        (0x0017#16, BitVec.ofNat 32 (min s.ifQ.length (2 ^ 32 - 1))),
        (0x0018#16, BitVec.ofNat 32 (min s.afQ.length (2 ^ 32 - 1)))] →
      exec (.csrRead a) s = .next (answered .direct .ok (.value v) rs s)

/-- CSR.READ of the history windows, and ILLEGAL with no state change for every address that is no
register in the current state (R42, R222). -/
def Obligations.CsrReadHistoriesAndHoles : Prop :=
  ∀ (s : State) (r : Request) (rs : List Request) (a : BitVec 16),
    s.waiting .direct = r :: rs → HistoryInv s →
    1 ≤ s.ifHist.length → s.ifHist.length ≤ 4096 → 1 ≤ s.afHist.length → s.afHist.length ≤ 4096 →
    (∀ (i : Nat) (v : F32), a.toNat = 0x1000 + i → s.ifHist[i]? = some v →
      exec (.csrRead a) s = .next (answered .direct .ok (.value v) rs s)) ∧
    (∀ (i : Nat) (v : F32), a.toNat = 0x2000 + i → s.afHist[i]? = some v →
      exec (.csrRead a) s = .next (answered .direct .ok (.value v) rs s)) ∧
    (0x0018 < a.toNat →
      (∀ i < s.ifHist.length, a.toNat ≠ 0x1000 + i) →
      (∀ i < s.afHist.length, a.toNat ≠ 0x2000 + i) →
      exec (.csrRead a) s = .next (answered .direct .illegal .none rs s))

/-- The fields of STATUS (R43). -/
def Obligations.StatusRegisterFields : Prop :=
  ∀ s : State,
    (statusWord s).extractLsb' 0 2 =
      (match s.seqState with | .running => 0#2 | .terminating => 1#2 | .stopped => 2#2) ∧
    ((statusWord s).getLsbD 2 = true ↔ s.seqPhase = .wait) ∧
    ((statusWord s).getLsbD 3 = true ↔ s.mode = .direct) ∧
    (statusWord s).getLsbD 4 = s.capClosed ∧ (statusWord s).getLsbD 5 = s.cmdClosed ∧
    (statusWord s).extractLsb' 6 2 = 0#2 ∧ (statusWord s).getLsbD 8 = s.fatal ∧
    (statusWord s).extractLsb' 9 3 = 0#3 ∧ (statusWord s).extractLsb' 12 4 = s.cause ∧
    (statusWord s).getLsbD 16 = s.sink1En ∧ (statusWord s).getLsbD 17 = s.sink2En ∧
    (statusWord s).extractLsb' 18 14 = 0#14

/-! ## Reset and the whole machine -/

/-- The state after reset (R261). -/
def Obligations.ResetState : Prop :=
  ∀ c : Params,
    (let s := State.resetWith c
     s.ifSpec = c.resetIf ∧ s.afSpec = c.resetAf ∧ s.agcSpec = c.resetAgc ∧
     s.ifHist = List.replicate (c.ifRom c.resetIf).length 0#32 ∧
     s.afHist = List.replicate (c.afRom c.resetAf).length 0#32 ∧
     s.agcHist = ⟨0#32, 0#32, 0#32⟩ ∧ s.rssi = 0#32 ∧
     s.ncoFreq = 0#32 ∧ s.ncoDelta = 0#32 ∧ s.ncoPhase = 0#32 ∧
     s.rbSize = 0 ∧ s.rbHead = 0 ∧ s.rbTail = 0 ∧
     s.cmdQ = [] ∧ s.ifQ = [] ∧ s.afQ = [] ∧ s.seqState = .running ∧ s.seqPhase = .poll ∧
     s.capClosed = false ∧ s.cmdClosed = false ∧
     s.sink1En = false ∧ s.sink2En = false ∧ s.sink1Sel = 0#32 ∧ s.sink2Sel = 0#32 ∧
     s.fatal = false ∧ s.cause = 0#4 ∧ s.mode = c.mode)

/-- The reset input sets the reset state for the same parameters and drops every request with no
response (R260).
That the outputs already given stay listed is the model's choice (log entry 7). -/
def Obligations.ResetInputResets : Prop :=
  ∀ s : State, nextInput s = .reset →
    step s = .next { State.resetWith s.cfg with
      responses := s.responses, events := s.events, script := s.script.tail, tick := s.tick + 1 }

/-- The fatal halt is sticky: from a halted state every input but reset leaves the block halted with the
same cause, and every state field of the block unchanged but the requests on the ports (R236, R241). -/
def Obligations.HaltLastsUntilReset : Prop :=
  ∀ s t : State, s.fatal = true → nextInput s ≠ .reset → step s = .next t →
    t = { s with
      pending := t.pending, responses := t.responses,
      script := s.script.tail, tick := s.tick + 1 } ∧
    ∀ r, t.responses = s.responses ++ [r] →
      r.status = .halted ∨ (r.port = .direct ∧ (r.status = .ok ∨ r.status = .illegal))

/-- Single writer: in CHAIN mode no port operation writes the filter and AGC instances and the metric, and
only RB.FILL the ring buffer; in DIRECT mode the sequencer's turn changes nothing, and only the direct port
writes any of them; an arriving request writes none of them (R205). -/
def Obligations.SingleWriterPerUnit : Prop :=
  ∀ (s t : State) (p : Port), step s = .next t →
    (nextInput s = .port p → (s.mode = .chain ∨ p ≠ .direct) →
      t.ifSpec = s.ifSpec ∧ t.ifHist = s.ifHist ∧ t.afSpec = s.afSpec ∧ t.afHist = s.afHist ∧
      t.agcSpec = s.agcSpec ∧ t.agcHist = s.agcHist ∧ t.rssi = s.rssi) ∧
    (nextInput s = .port p →
      (s.mode = .chain ∧ p ≠ .playback) ∨ (s.mode = .direct ∧ p ≠ .direct) →
      t.rbBuf = s.rbBuf ∧ t.rbHead = s.rbHead ∧ t.rbTail = s.rbTail ∧ t.rbSize = s.rbSize) ∧
    (∀ f1 f2, nextInput s = .sequencer f1 f2 →
      t.rbBuf = s.rbBuf ∧ t.rbHead = s.rbHead ∧ t.rbTail = s.rbTail ∧ t.rbSize = s.rbSize ∧
      (s.mode = .direct → t = { s with script := s.script.tail, tick := s.tick + 1 })) ∧
    (∀ q r, nextInput s = .arrive q r →
      t = { s with pending := t.pending, script := s.script.tail, tick := s.tick + 1 })

/-- No step writes a parameter, and no step changes the mode (R7, R20, R35). -/
def Obligations.ParametersAndModeAreFixed : Prop :=
  ∀ s t : State, step s = .next t →
    t.cfg = s.cfg ∧ (s.mode = s.cfg.mode → t.mode = s.mode)

/-- Every step keeps the invariant of the machine, from every state that meets it. -/
def Obligations.EveryStepKeepsInvariant : Prop :=
  ∀ s t : State, s.Inv → step s = .next t → t.Inv

/-- The state after reset meets the invariant, for every parameters R263 allows, those of
`State.reset` among them. -/
def Obligations.ResetMeetsInvariant : Prop :=
  (∀ c : Params, c.wf = true → (State.resetWith c).Inv) ∧ State.reset.Inv

/-! ## Binary32 arithmetic -/

/-- fadd on finite operands is the exact sum rounded to nearest, ties to even: no NaN; where the result
is finite no finite value is nearer, and a value just as near means the result is even; it is infinite
exactly when the exact sum is at or past the midpoint above the largest finite value. The sign is that of
the exact sum; the result is zero exactly when that is zero, and negative then only where both operands are.
An infinite operand is the result, unless the other is NaN or the opposite infinity. fsub adds the second
operand with bit 31 flipped (R11, R12).
The overflow bound, the signs and the infinite operands are taken from IEEE 754, to which R11 refers
(log entry 20, PRESUMED). -/
def Obligations.AddRoundsToNearestEven : Prop :=
  (∀ (d : DrawSite) (a b : F32), isFinite a = true → isFinite b = true →
    (let r := fadd d a b
     let z := signedValue a + signedValue b
     isNan r = false ∧
     (isInf r = true ↔ (2 ^ 25 - 1) * 2 ^ 252 ≤ |z|) ∧
     (isFinite r = true → ∀ c : F32, isFinite c = true →
       |signedValue r - z| ≤ |signedValue c - z| ∧
       (|signedValue r - z| = |signedValue c - z| → signedValue c ≠ signedValue r →
         r.toNat % 2 = 0)) ∧
     (isZero r = true ↔ z = 0) ∧ (z ≠ 0 → isNeg r = decide (z < 0)) ∧
     (z = 0 → isNeg r = (isNeg a && isNeg b)))) ∧
  (∀ (d : DrawSite) (a b : F32), isInf a = true → isNan b = false →
    (isInf b = true → isNeg a = isNeg b) → fadd d a b = a ∧ fadd d b a = a) ∧
  (∀ (d : DrawSite) (a b : F32), fsub d a b = fadd d a (b ^^^ 0x80000000#32))

/-- fmul on finite operands is the exact product rounded to nearest, ties to even (values in units of
2^-149, so the product is in units of 2^-298). An infinite operand gives an infinite result, unless the
other is NaN or zero. The sign of every result that is not NaN is the exclusive or of the operands' signs
(R11, R12).
The overflow bound, the signs and the infinite operands are taken from IEEE 754, to which R11 refers
(log entry 20, PRESUMED). -/
def Obligations.MulRoundsToNearestEven : Prop :=
  (∀ (d : DrawSite) (a b : F32), isFinite a = true → isFinite b = true →
    (let r := fmul d a b
     let z := signedValue a * signedValue b
     isNan r = false ∧
     (isInf r = true ↔ (2 ^ 25 - 1) * 2 ^ 252 * 2 ^ 149 ≤ |z|) ∧
     (isFinite r = true → ∀ c : F32, isFinite c = true →
       |signedValue r * 2 ^ 149 - z| ≤ |signedValue c * 2 ^ 149 - z| ∧
       (|signedValue r * 2 ^ 149 - z| = |signedValue c * 2 ^ 149 - z| →
         signedValue c ≠ signedValue r → r.toNat % 2 = 0)))) ∧
  (∀ (d : DrawSite) (a b : F32), isInf a = true → isNan b = false → isZero b = false →
    isInf (fmul d a b) = true ∧ isInf (fmul d b a) = true) ∧
  (∀ (d : DrawSite) (a b : F32), isNan (fmul d a b) = false →
    isNeg (fmul d a b) = (isNeg a != isNeg b))

/-- fdiv of finite operands by a value that is not zero is the exact quotient rounded to nearest, ties
to even (compared after multiplying by the divisor). A finite number that is not zero over zero, and an
infinity over a finite number, are infinite; a finite number over an infinity is zero. The sign of every
result that is not NaN is the exclusive or of the operands' signs (R11, R12).
The overflow bound, the signs, the infinite operands and the zero divisor are taken from IEEE 754, to which
R11 refers (log entry 20, PRESUMED). -/
def Obligations.DivRoundsToNearestEven : Prop :=
  (∀ (d : DrawSite) (a b : F32), isFinite a = true → isFinite b = true → isZero b = false →
    (let r := fdiv d a b
     let z := signedValue a * 2 ^ 149
     isNan r = false ∧
     (isInf r = true ↔ (2 ^ 25 - 1) * 2 ^ 252 * |signedValue b| ≤ |z|) ∧
     (isFinite r = true → ∀ c : F32, isFinite c = true →
       |signedValue r * signedValue b - z| ≤ |signedValue c * signedValue b - z| ∧
       (|signedValue r * signedValue b - z| = |signedValue c * signedValue b - z| →
         signedValue c ≠ signedValue r → r.toNat % 2 = 0)))) ∧
  (∀ (d : DrawSite) (a b : F32), isFinite a = true → isZero a = false → isZero b = true →
    isInf (fdiv d a b) = true) ∧
  (∀ (d : DrawSite) (a b : F32), isInf a = true → isFinite b = true →
    isInf (fdiv d a b) = true ∧ isZero (fdiv d b a) = true) ∧
  (∀ (d : DrawSite) (a b : F32), isNan (fdiv d a b) = false →
    isNeg (fdiv d a b) = (isNeg a != isNeg b))

/-- When an operation's result is NaN: a NaN operand, ∞ − ∞, 0 × ∞, ∞ / ∞ or 0 / 0; and the NaN is then a
quiet NaN (R12, R13).
The list of these cases is IEEE 754's, to which R11 refers, and stands in no rule: it is what the model
takes "invalid operations" of R12 to be (log entry 20, PRESUMED). That a quiet NaN is one with fraction bit
22 set is the model's choice too (log entry 24, PRESUMED). -/
def Obligations.NanResultsAreQuiet : Prop :=
  ∀ (d : DrawSite) (a b : F32),
    (isNan (fadd d a b) = true ↔ isNan a = true ∨ isNan b = true ∨
      (isInf a = true ∧ isInf b = true ∧ isNeg a ≠ isNeg b)) ∧
    (isNan (fmul d a b) = true ↔ isNan a = true ∨ isNan b = true ∨
      (isInf a = true ∧ isZero b = true) ∨ (isZero a = true ∧ isInf b = true)) ∧
    (isNan (fdiv d a b) = true ↔ isNan a = true ∨ isNan b = true ∨
      (isInf a = true ∧ isInf b = true) ∨ (isZero a = true ∧ isZero b = true)) ∧
    (isNan (fadd d a b) = true → isQuietNan (fadd d a b) = true) ∧
    (isNan (fsub d a b) = true → isQuietNan (fsub d a b) = true) ∧
    (isNan (fmul d a b) = true → isQuietNan (fmul d a b) = true) ∧
    (isNan (fdiv d a b) = true → isQuietNan (fdiv d a b) = true)

/-- fabs clears bit 31 and no other bit, for every value, NaN included (R14); fgt is the order of the
reals, false on NaN, +0.0 and −0.0 equal, and the infinities at its ends (R15). -/
def Obligations.FabsAndFgtMeanings : Prop :=
  (∀ (x : F32) (k : Nat), (fabs x).getLsbD k = (x.getLsbD k && decide (k ≠ 31))) ∧
  (∀ a b : F32, isNan a = true ∨ isNan b = true → fgt a b = false) ∧
  (∀ a b : F32, isFinite a = true → isFinite b = true →
    (fgt a b = true ↔ ratValue b < ratValue a)) ∧
  (∀ a : F32, isFinite a = true →
    fgt 0x7F800000#32 a = true ∧ fgt a 0xFF800000#32 = true ∧
    fgt a 0x7F800000#32 = false ∧ fgt 0xFF800000#32 a = false) ∧
  fgt 0x7F800000#32 0xFF800000#32 = true ∧ fgt 0xFF800000#32 0x7F800000#32 = false ∧
  fgt 0x7F800000#32 0x7F800000#32 = false ∧ fgt 0xFF800000#32 0xFF800000#32 = false ∧
  fgt 0#32 0x80000000#32 = false ∧ fgt 0x80000000#32 0#32 = false

/-! ## Text command protocol -/

/-- The lines of the text command protocol and their words (R82): a decimal number in the i32 range after
AM, AGC or AF; a sink name, None or the empty name after RSSI or IFOUT; END. A line whose keyword, the text
before its first space, is none of the six is rejected whole, and so is a selector line whose number does
not parse or lies outside [−2^31, 2^31 − 1].
That one space ends the keyword, that RSSI and IFOUT may stand alone, that leading zeros are read and that
END with trailing text is rejected is the model's choice (log entry 14, PRESUMED). -/
def Obligations.TextCommandLines : Prop :=
  ∀ names : List Char → BitVec 32,
    (∀ (k : List Char) (op : BitVec 8),
      (k, op) ∈ [("AM".toList, 0x01#8), ("AGC".toList, 0x02#8), ("AF".toList, 0x03#8)] →
      (∀ ds : List (Fin 10), ds ≠ [] →
        (let o := ds.map (fun d => Char.ofNat (48 + d.val))
         let v := ds.foldl (fun acc d => 10 * acc + d.val) 0
         wordOfLine names (k ++ ' ' :: o) =
           (if v < 2 ^ 31 then some (mkWord op 0#8 0#16 (BitVec.ofNat 32 v)) else none) ∧
         wordOfLine names (k ++ ' ' :: '-' :: o) =
           (if v ≤ 2 ^ 31 then some (mkWord op 0#8 0#16 (BitVec.ofInt 32 (-(v : Int)))) else none))) ∧
      (∀ o : List Char,
        (∀ ds : List (Fin 10), ds ≠ [] →
          o ≠ ds.map (fun d => Char.ofNat (48 + d.val)) ∧
          o ≠ '-' :: ds.map (fun d => Char.ofNat (48 + d.val))) →
        wordOfLine names (k ++ ' ' :: o) = none) ∧
      wordOfLine names k = none) ∧
    (∀ (k : List Char) (op : BitVec 8),
      (k, op) ∈ [("RSSI".toList, 0x04#8), ("IFOUT".toList, 0x05#8)] →
      (∀ o : List Char, o ≠ [] → o ≠ "None".toList →
        wordOfLine names (k ++ ' ' :: o) = some (mkWord op 0#8 0#16 (names o))) ∧
      wordOfLine names (k ++ " None".toList) = some (mkWord op 0#8 0#16 0#32) ∧
      wordOfLine names (k ++ " ".toList) = some (mkWord op 0#8 0#16 0#32) ∧
      wordOfLine names k = some (mkWord op 0#8 0#16 0#32)) ∧
    wordOfLine names "END".toList = some 0x0F00000000000000#64 ∧
    (∀ o : List Char, wordOfLine names ("END".toList ++ ' ' :: o) = none) ∧
    (∀ k o : List Char, ' ' ∉ k →
      k ∉ ["AM".toList, "AGC".toList, "AF".toList, "RSSI".toList, "IFOUT".toList, "END".toList] →
      wordOfLine names (k ++ ' ' :: o) = none ∧ wordOfLine names k = none)
end

