-- ==== Sys2Proof/Laws/Arithmetic.lean ====
section
/-! SUPPORT. The laws of NaN results: the quiet NaN of an operation is a quiet NaN, whatever its draw; and that the
AGC tables of `State.reset` sum to 1. -/

namespace Sys2Proof.Machine

/-- The bits of a quiet NaN as a number: sign, exponent, quiet bit and payload apart. -/
theorem quietNan_toNat (v : BitVec 23) :
    (quietNan v).toNat =
      v.toNat / 2 ^ 22 * 2 ^ 31 + 255 * 2 ^ 23 + 2 ^ 22 + v.toNat % 2 ^ 22 := by
  have h : v.toNat < 2 ^ 23 := v.isLt
  simp only [quietNan, BitVec.toNat_append, BitVec.extractLsb'_toNat, BitVec.toNat_ofNat,
    Nat.shiftRight_eq_div_pow]
  rw [← Nat.shiftLeft_add_eq_or_of_lt (by omega), ← Nat.shiftLeft_add_eq_or_of_lt (by omega),
    ← Nat.shiftLeft_add_eq_or_of_lt (by omega)]
  simp only [Nat.shiftLeft_eq]
  omega

@[simp] theorem isNan_nanq (d : DrawSite) : isNan (nanq d) = true := by
  have h : (Config.nanDraw d).toNat < 2 ^ 23 := (Config.nanDraw d).isLt
  simp only [isNan, expField, fracField, nanq, quietNan_toNat, Bool.and_eq_true, beq_iff_eq,
    bne_iff_ne]
  omega

@[simp] theorem isQuietNan_nanq (d : DrawSite) : isQuietNan (nanq d) = true := by
  have h : (Config.nanDraw d).toNat < 2 ^ 23 := (Config.nanDraw d).isLt
  have e : (nanq d).getLsbD 22 = true := by
    simp only [BitVec.getLsbD, nanq, quietNan_toNat, Nat.testBit_eq_decide_div_mod_eq,
      decide_eq_true_eq]
    omega
  simp [isQuietNan, e]

/-- The AGC tables the platform fixes meet the constraint of R263, whatever is drawn. -/
theorem agcTaps_sumsToOne (k : Fin 5) : (Config.agcTaps k).sumsToOne = true := by
  unfold Config.agcTaps
  split_ifs with h
  · exact h
  · decide +kernel

end Sys2Proof.Machine
end

