-- ==== Sys2Proof/Laws/Encoding.lean ====
section
/-! SUPPORT. The fields of an operation word made by the encoder. -/

namespace Sys2Proof

/-- The value of a word from the values of its fields (30_encoding.md R71). -/
theorem mkWord_toNat (op sub : BitVec 8) (res : BitVec 16) (arg : BitVec 32) :
    (mkWord op sub res arg).toNat =
      op.toNat * 2 ^ 56 + sub.toNat * 2 ^ 48 + res.toNat * 2 ^ 32 + arg.toNat := by
  have h1 := sub.isLt
  have h2 := res.isLt
  have h3 := arg.isLt
  simp only [mkWord, BitVec.toNat_append]
  rw [← Nat.shiftLeft_add_eq_or_of_lt h3, ← Nat.shiftLeft_add_eq_or_of_lt h2,
    ← Nat.shiftLeft_add_eq_or_of_lt h1]
  simp only [Nat.shiftLeft_eq]
  ring

/-- OP of a word made from its fields. -/
@[simp] theorem opField_mkWord (op sub : BitVec 8) (res : BitVec 16) (arg : BitVec 32) :
    opField (mkWord op sub res arg) = op := by
  apply BitVec.eq_of_toNat_eq
  have h0 := op.isLt
  have h1 := sub.isLt
  have h2 := res.isLt
  have h3 := arg.isLt
  simp only [opField, BitVec.extractLsb'_toNat, mkWord_toNat, Nat.shiftRight_eq_div_pow]
  omega

/-- SUB of a word made from its fields. -/
@[simp] theorem subField_mkWord (op sub : BitVec 8) (res : BitVec 16) (arg : BitVec 32) :
    subField (mkWord op sub res arg) = sub := by
  apply BitVec.eq_of_toNat_eq
  have h0 := op.isLt
  have h1 := sub.isLt
  have h2 := res.isLt
  have h3 := arg.isLt
  simp only [subField, BitVec.extractLsb'_toNat, mkWord_toNat, Nat.shiftRight_eq_div_pow]
  omega

/-- RES of a word made from its fields. -/
@[simp] theorem resField_mkWord (op sub : BitVec 8) (res : BitVec 16) (arg : BitVec 32) :
    resField (mkWord op sub res arg) = res := by
  apply BitVec.eq_of_toNat_eq
  have h0 := op.isLt
  have h1 := sub.isLt
  have h2 := res.isLt
  have h3 := arg.isLt
  simp only [resField, BitVec.extractLsb'_toNat, mkWord_toNat, Nat.shiftRight_eq_div_pow]
  omega

/-- ARG of a word made from its fields. -/
@[simp] theorem argField_mkWord (op sub : BitVec 8) (res : BitVec 16) (arg : BitVec 32) :
    argField (mkWord op sub res arg) = arg := by
  apply BitVec.eq_of_toNat_eq
  have h0 := op.isLt
  have h1 := sub.isLt
  have h2 := res.isLt
  have h3 := arg.isLt
  simp only [argField, BitVec.extractLsb'_toNat, mkWord_toNat, Nat.shiftRight_eq_div_pow]
  omega

/-- A word is made from its own fields. -/
theorem mkWord_fields (w : OpWord) :
    mkWord (opField w) (subField w) (resField w) (argField w) = w := by
  apply BitVec.eq_of_toNat_eq
  have h := w.isLt
  simp only [mkWord_toNat, opField, subField, resField, argField, BitVec.extractLsb'_toNat,
    Nat.shiftRight_eq_div_pow]
  omega

/-- The spec codes are read back. -/
@[simp] theorem ifSpecOfCode_codeOfIfSpec (k : IfSpec) : ifSpecOfCode (codeOfIfSpec k) = k := by
  cases k <;> rfl

@[simp] theorem afSpecOfCode_codeOfAfSpec (k : AfSpec) :
    afSpecOfCode (codeOfAfSpec k) = some k := by cases k <;> rfl

@[simp] theorem agcSpecOfCode_codeOfAgcSpec (k : AgcSpec) :
    agcSpecOfCode (codeOfAgcSpec k) = some k := by cases k <;> rfl

end Sys2Proof
end

