-- ==== Sys2Proof/Laws/State.lean ====
section
/-! SUPPORT. One lemma per field for every named update of the state, each true by rfl, so that no later
proof unfolds a record update. -/

namespace Sys2Proof.Machine

/-! ## respond -/

section

variable (p : Port) (st : Status) (res : Result) (s : State)

@[simp] theorem respond_cfg : (respond p st res s).cfg = s.cfg := rfl
@[simp] theorem respond_ifSpec : (respond p st res s).ifSpec = s.ifSpec := rfl
@[simp] theorem respond_ifHist : (respond p st res s).ifHist = s.ifHist := rfl
@[simp] theorem respond_afSpec : (respond p st res s).afSpec = s.afSpec := rfl
@[simp] theorem respond_afHist : (respond p st res s).afHist = s.afHist := rfl
@[simp] theorem respond_agcSpec : (respond p st res s).agcSpec = s.agcSpec := rfl
@[simp] theorem respond_agcHist : (respond p st res s).agcHist = s.agcHist := rfl
@[simp] theorem respond_rssi : (respond p st res s).rssi = s.rssi := rfl
@[simp] theorem respond_ncoFreq : (respond p st res s).ncoFreq = s.ncoFreq := rfl
@[simp] theorem respond_ncoDelta : (respond p st res s).ncoDelta = s.ncoDelta := rfl
@[simp] theorem respond_ncoPhase : (respond p st res s).ncoPhase = s.ncoPhase := rfl
@[simp] theorem respond_rbBuf : (respond p st res s).rbBuf = s.rbBuf := rfl
@[simp] theorem respond_rbHead : (respond p st res s).rbHead = s.rbHead := rfl
@[simp] theorem respond_rbTail : (respond p st res s).rbTail = s.rbTail := rfl
@[simp] theorem respond_rbSize : (respond p st res s).rbSize = s.rbSize := rfl
@[simp] theorem respond_seqState : (respond p st res s).seqState = s.seqState := rfl
@[simp] theorem respond_seqPhase : (respond p st res s).seqPhase = s.seqPhase := rfl
@[simp] theorem respond_cmdQ : (respond p st res s).cmdQ = s.cmdQ := rfl
@[simp] theorem respond_ifQ : (respond p st res s).ifQ = s.ifQ := rfl
@[simp] theorem respond_afQ : (respond p st res s).afQ = s.afQ := rfl
@[simp] theorem respond_capClosed : (respond p st res s).capClosed = s.capClosed := rfl
@[simp] theorem respond_cmdClosed : (respond p st res s).cmdClosed = s.cmdClosed := rfl
@[simp] theorem respond_sink1Sel : (respond p st res s).sink1Sel = s.sink1Sel := rfl
@[simp] theorem respond_sink2Sel : (respond p st res s).sink2Sel = s.sink2Sel := rfl
@[simp] theorem respond_sink1En : (respond p st res s).sink1En = s.sink1En := rfl
@[simp] theorem respond_sink2En : (respond p st res s).sink2En = s.sink2En := rfl
@[simp] theorem respond_fatal : (respond p st res s).fatal = s.fatal := rfl
@[simp] theorem respond_cause : (respond p st res s).cause = s.cause := rfl
@[simp] theorem respond_mode : (respond p st res s).mode = s.mode := rfl
@[simp] theorem respond_pending : (respond p st res s).pending = s.pending.set p (s.waiting p).tail := rfl
@[simp] theorem respond_responses : (respond p st res s).responses = s.responses ++ [⟨p, st, res⟩] := rfl
@[simp] theorem respond_events : (respond p st res s).events = s.events := rfl
@[simp] theorem respond_script : (respond p st res s).script = s.script := rfl
@[simp] theorem respond_tick : (respond p st res s).tick = s.tick := rfl

end

/-! ## haltWith -/

section

variable (code : Status) (s : State)

@[simp] theorem haltWith_cfg : (haltWith code s).cfg = s.cfg := rfl
@[simp] theorem haltWith_ifSpec : (haltWith code s).ifSpec = s.ifSpec := rfl
@[simp] theorem haltWith_ifHist : (haltWith code s).ifHist = s.ifHist := rfl
@[simp] theorem haltWith_afSpec : (haltWith code s).afSpec = s.afSpec := rfl
@[simp] theorem haltWith_afHist : (haltWith code s).afHist = s.afHist := rfl
@[simp] theorem haltWith_agcSpec : (haltWith code s).agcSpec = s.agcSpec := rfl
@[simp] theorem haltWith_agcHist : (haltWith code s).agcHist = s.agcHist := rfl
@[simp] theorem haltWith_rssi : (haltWith code s).rssi = s.rssi := rfl
@[simp] theorem haltWith_ncoFreq : (haltWith code s).ncoFreq = s.ncoFreq := rfl
@[simp] theorem haltWith_ncoDelta : (haltWith code s).ncoDelta = s.ncoDelta := rfl
@[simp] theorem haltWith_ncoPhase : (haltWith code s).ncoPhase = s.ncoPhase := rfl
@[simp] theorem haltWith_rbBuf : (haltWith code s).rbBuf = s.rbBuf := rfl
@[simp] theorem haltWith_rbHead : (haltWith code s).rbHead = s.rbHead := rfl
@[simp] theorem haltWith_rbTail : (haltWith code s).rbTail = s.rbTail := rfl
@[simp] theorem haltWith_rbSize : (haltWith code s).rbSize = s.rbSize := rfl
@[simp] theorem haltWith_seqState : (haltWith code s).seqState = s.seqState := rfl
@[simp] theorem haltWith_seqPhase : (haltWith code s).seqPhase = s.seqPhase := rfl
@[simp] theorem haltWith_cmdQ : (haltWith code s).cmdQ = s.cmdQ := rfl
@[simp] theorem haltWith_ifQ : (haltWith code s).ifQ = s.ifQ := rfl
@[simp] theorem haltWith_afQ : (haltWith code s).afQ = s.afQ := rfl
@[simp] theorem haltWith_capClosed : (haltWith code s).capClosed = s.capClosed := rfl
@[simp] theorem haltWith_cmdClosed : (haltWith code s).cmdClosed = s.cmdClosed := rfl
@[simp] theorem haltWith_sink1Sel : (haltWith code s).sink1Sel = s.sink1Sel := rfl
@[simp] theorem haltWith_sink2Sel : (haltWith code s).sink2Sel = s.sink2Sel := rfl
@[simp] theorem haltWith_sink1En : (haltWith code s).sink1En = s.sink1En := rfl
@[simp] theorem haltWith_sink2En : (haltWith code s).sink2En = s.sink2En := rfl
@[simp] theorem haltWith_fatal : (haltWith code s).fatal = true := rfl
@[simp] theorem haltWith_cause : (haltWith code s).cause = code.code := rfl
@[simp] theorem haltWith_mode : (haltWith code s).mode = s.mode := rfl
@[simp] theorem haltWith_pending : (haltWith code s).pending = s.pending := rfl
@[simp] theorem haltWith_responses : (haltWith code s).responses = s.responses := rfl
@[simp] theorem haltWith_events : (haltWith code s).events = s.events := rfl
@[simp] theorem haltWith_script : (haltWith code s).script = s.script := rfl
@[simp] theorem haltWith_tick : (haltWith code s).tick = s.tick := rfl

end

/-! ## answered -/

section

variable (p : Port) (st : Status) (res : Result) (rs : List Request) (s : State)

@[simp] theorem answered_cfg : (answered p st res rs s).cfg = s.cfg := rfl
@[simp] theorem answered_ifSpec : (answered p st res rs s).ifSpec = s.ifSpec := rfl
@[simp] theorem answered_ifHist : (answered p st res rs s).ifHist = s.ifHist := rfl
@[simp] theorem answered_afSpec : (answered p st res rs s).afSpec = s.afSpec := rfl
@[simp] theorem answered_afHist : (answered p st res rs s).afHist = s.afHist := rfl
@[simp] theorem answered_agcSpec : (answered p st res rs s).agcSpec = s.agcSpec := rfl
@[simp] theorem answered_agcHist : (answered p st res rs s).agcHist = s.agcHist := rfl
@[simp] theorem answered_rssi : (answered p st res rs s).rssi = s.rssi := rfl
@[simp] theorem answered_ncoFreq : (answered p st res rs s).ncoFreq = s.ncoFreq := rfl
@[simp] theorem answered_ncoDelta : (answered p st res rs s).ncoDelta = s.ncoDelta := rfl
@[simp] theorem answered_ncoPhase : (answered p st res rs s).ncoPhase = s.ncoPhase := rfl
@[simp] theorem answered_rbBuf : (answered p st res rs s).rbBuf = s.rbBuf := rfl
@[simp] theorem answered_rbHead : (answered p st res rs s).rbHead = s.rbHead := rfl
@[simp] theorem answered_rbTail : (answered p st res rs s).rbTail = s.rbTail := rfl
@[simp] theorem answered_rbSize : (answered p st res rs s).rbSize = s.rbSize := rfl
@[simp] theorem answered_seqState : (answered p st res rs s).seqState = s.seqState := rfl
@[simp] theorem answered_seqPhase : (answered p st res rs s).seqPhase = s.seqPhase := rfl
@[simp] theorem answered_cmdQ : (answered p st res rs s).cmdQ = s.cmdQ := rfl
@[simp] theorem answered_ifQ : (answered p st res rs s).ifQ = s.ifQ := rfl
@[simp] theorem answered_afQ : (answered p st res rs s).afQ = s.afQ := rfl
@[simp] theorem answered_capClosed : (answered p st res rs s).capClosed = s.capClosed := rfl
@[simp] theorem answered_cmdClosed : (answered p st res rs s).cmdClosed = s.cmdClosed := rfl
@[simp] theorem answered_sink1Sel : (answered p st res rs s).sink1Sel = s.sink1Sel := rfl
@[simp] theorem answered_sink2Sel : (answered p st res rs s).sink2Sel = s.sink2Sel := rfl
@[simp] theorem answered_sink1En : (answered p st res rs s).sink1En = s.sink1En := rfl
@[simp] theorem answered_sink2En : (answered p st res rs s).sink2En = s.sink2En := rfl
@[simp] theorem answered_fatal : (answered p st res rs s).fatal = s.fatal := rfl
@[simp] theorem answered_cause : (answered p st res rs s).cause = s.cause := rfl
@[simp] theorem answered_mode : (answered p st res rs s).mode = s.mode := rfl
@[simp] theorem answered_pending : (answered p st res rs s).pending = s.pending.set p rs := rfl
@[simp] theorem answered_responses : (answered p st res rs s).responses = s.responses ++ [⟨p, st, res⟩] := rfl
@[simp] theorem answered_events : (answered p st res rs s).events = s.events := rfl
@[simp] theorem answered_script : (answered p st res rs s).script = s.script := rfl
@[simp] theorem answered_tick : (answered p st res rs s).tick = s.tick := rfl

end

/-! ## takeInput -/

section

variable (s : State)

@[simp] theorem takeInput_cfg : (takeInput s).cfg = s.cfg := rfl
@[simp] theorem takeInput_ifSpec : (takeInput s).ifSpec = s.ifSpec := rfl
@[simp] theorem takeInput_ifHist : (takeInput s).ifHist = s.ifHist := rfl
@[simp] theorem takeInput_afSpec : (takeInput s).afSpec = s.afSpec := rfl
@[simp] theorem takeInput_afHist : (takeInput s).afHist = s.afHist := rfl
@[simp] theorem takeInput_agcSpec : (takeInput s).agcSpec = s.agcSpec := rfl
@[simp] theorem takeInput_agcHist : (takeInput s).agcHist = s.agcHist := rfl
@[simp] theorem takeInput_rssi : (takeInput s).rssi = s.rssi := rfl
@[simp] theorem takeInput_ncoFreq : (takeInput s).ncoFreq = s.ncoFreq := rfl
@[simp] theorem takeInput_ncoDelta : (takeInput s).ncoDelta = s.ncoDelta := rfl
@[simp] theorem takeInput_ncoPhase : (takeInput s).ncoPhase = s.ncoPhase := rfl
@[simp] theorem takeInput_rbBuf : (takeInput s).rbBuf = s.rbBuf := rfl
@[simp] theorem takeInput_rbHead : (takeInput s).rbHead = s.rbHead := rfl
@[simp] theorem takeInput_rbTail : (takeInput s).rbTail = s.rbTail := rfl
@[simp] theorem takeInput_rbSize : (takeInput s).rbSize = s.rbSize := rfl
@[simp] theorem takeInput_seqState : (takeInput s).seqState = s.seqState := rfl
@[simp] theorem takeInput_seqPhase : (takeInput s).seqPhase = s.seqPhase := rfl
@[simp] theorem takeInput_cmdQ : (takeInput s).cmdQ = s.cmdQ := rfl
@[simp] theorem takeInput_ifQ : (takeInput s).ifQ = s.ifQ := rfl
@[simp] theorem takeInput_afQ : (takeInput s).afQ = s.afQ := rfl
@[simp] theorem takeInput_capClosed : (takeInput s).capClosed = s.capClosed := rfl
@[simp] theorem takeInput_cmdClosed : (takeInput s).cmdClosed = s.cmdClosed := rfl
@[simp] theorem takeInput_sink1Sel : (takeInput s).sink1Sel = s.sink1Sel := rfl
@[simp] theorem takeInput_sink2Sel : (takeInput s).sink2Sel = s.sink2Sel := rfl
@[simp] theorem takeInput_sink1En : (takeInput s).sink1En = s.sink1En := rfl
@[simp] theorem takeInput_sink2En : (takeInput s).sink2En = s.sink2En := rfl
@[simp] theorem takeInput_fatal : (takeInput s).fatal = s.fatal := rfl
@[simp] theorem takeInput_cause : (takeInput s).cause = s.cause := rfl
@[simp] theorem takeInput_mode : (takeInput s).mode = s.mode := rfl
@[simp] theorem takeInput_pending : (takeInput s).pending = s.pending := rfl
@[simp] theorem takeInput_responses : (takeInput s).responses = s.responses := rfl
@[simp] theorem takeInput_events : (takeInput s).events = s.events := rfl
@[simp] theorem takeInput_script : (takeInput s).script = s.script.tail := rfl
@[simp] theorem takeInput_tick : (takeInput s).tick = s.tick + 1 := rfl

end

/-! ## selectIf -/

section

variable (k : IfSpec) (s : State)

@[simp] theorem selectIf_cfg : (selectIf k s).cfg = s.cfg := rfl
@[simp] theorem selectIf_ifSpec : (selectIf k s).ifSpec = k := rfl
@[simp] theorem selectIf_ifHist : (selectIf k s).ifHist = zeros (s.cfg.ifTaps k) := rfl
@[simp] theorem selectIf_afSpec : (selectIf k s).afSpec = s.afSpec := rfl
@[simp] theorem selectIf_afHist : (selectIf k s).afHist = s.afHist := rfl
@[simp] theorem selectIf_agcSpec : (selectIf k s).agcSpec = s.agcSpec := rfl
@[simp] theorem selectIf_agcHist : (selectIf k s).agcHist = s.agcHist := rfl
@[simp] theorem selectIf_rssi : (selectIf k s).rssi = s.rssi := rfl
@[simp] theorem selectIf_ncoFreq : (selectIf k s).ncoFreq = s.ncoFreq := rfl
@[simp] theorem selectIf_ncoDelta : (selectIf k s).ncoDelta = s.ncoDelta := rfl
@[simp] theorem selectIf_ncoPhase : (selectIf k s).ncoPhase = s.ncoPhase := rfl
@[simp] theorem selectIf_rbBuf : (selectIf k s).rbBuf = s.rbBuf := rfl
@[simp] theorem selectIf_rbHead : (selectIf k s).rbHead = s.rbHead := rfl
@[simp] theorem selectIf_rbTail : (selectIf k s).rbTail = s.rbTail := rfl
@[simp] theorem selectIf_rbSize : (selectIf k s).rbSize = s.rbSize := rfl
@[simp] theorem selectIf_seqState : (selectIf k s).seqState = s.seqState := rfl
@[simp] theorem selectIf_seqPhase : (selectIf k s).seqPhase = s.seqPhase := rfl
@[simp] theorem selectIf_cmdQ : (selectIf k s).cmdQ = s.cmdQ := rfl
@[simp] theorem selectIf_ifQ : (selectIf k s).ifQ = s.ifQ := rfl
@[simp] theorem selectIf_afQ : (selectIf k s).afQ = s.afQ := rfl
@[simp] theorem selectIf_capClosed : (selectIf k s).capClosed = s.capClosed := rfl
@[simp] theorem selectIf_cmdClosed : (selectIf k s).cmdClosed = s.cmdClosed := rfl
@[simp] theorem selectIf_sink1Sel : (selectIf k s).sink1Sel = s.sink1Sel := rfl
@[simp] theorem selectIf_sink2Sel : (selectIf k s).sink2Sel = s.sink2Sel := rfl
@[simp] theorem selectIf_sink1En : (selectIf k s).sink1En = s.sink1En := rfl
@[simp] theorem selectIf_sink2En : (selectIf k s).sink2En = s.sink2En := rfl
@[simp] theorem selectIf_fatal : (selectIf k s).fatal = s.fatal := rfl
@[simp] theorem selectIf_cause : (selectIf k s).cause = s.cause := rfl
@[simp] theorem selectIf_mode : (selectIf k s).mode = s.mode := rfl
@[simp] theorem selectIf_pending : (selectIf k s).pending = s.pending := rfl
@[simp] theorem selectIf_responses : (selectIf k s).responses = s.responses := rfl
@[simp] theorem selectIf_events : (selectIf k s).events = s.events := rfl
@[simp] theorem selectIf_script : (selectIf k s).script = s.script := rfl
@[simp] theorem selectIf_tick : (selectIf k s).tick = s.tick := rfl

end

/-! ## selectAf -/

section

variable (k : AfSpec) (s : State)

@[simp] theorem selectAf_cfg : (selectAf k s).cfg = s.cfg := rfl
@[simp] theorem selectAf_ifSpec : (selectAf k s).ifSpec = s.ifSpec := rfl
@[simp] theorem selectAf_ifHist : (selectAf k s).ifHist = s.ifHist := rfl
@[simp] theorem selectAf_afSpec : (selectAf k s).afSpec = k := rfl
@[simp] theorem selectAf_afHist : (selectAf k s).afHist = zeros (s.cfg.afTaps k) := rfl
@[simp] theorem selectAf_agcSpec : (selectAf k s).agcSpec = s.agcSpec := rfl
@[simp] theorem selectAf_agcHist : (selectAf k s).agcHist = s.agcHist := rfl
@[simp] theorem selectAf_rssi : (selectAf k s).rssi = s.rssi := rfl
@[simp] theorem selectAf_ncoFreq : (selectAf k s).ncoFreq = s.ncoFreq := rfl
@[simp] theorem selectAf_ncoDelta : (selectAf k s).ncoDelta = s.ncoDelta := rfl
@[simp] theorem selectAf_ncoPhase : (selectAf k s).ncoPhase = s.ncoPhase := rfl
@[simp] theorem selectAf_rbBuf : (selectAf k s).rbBuf = s.rbBuf := rfl
@[simp] theorem selectAf_rbHead : (selectAf k s).rbHead = s.rbHead := rfl
@[simp] theorem selectAf_rbTail : (selectAf k s).rbTail = s.rbTail := rfl
@[simp] theorem selectAf_rbSize : (selectAf k s).rbSize = s.rbSize := rfl
@[simp] theorem selectAf_seqState : (selectAf k s).seqState = s.seqState := rfl
@[simp] theorem selectAf_seqPhase : (selectAf k s).seqPhase = s.seqPhase := rfl
@[simp] theorem selectAf_cmdQ : (selectAf k s).cmdQ = s.cmdQ := rfl
@[simp] theorem selectAf_ifQ : (selectAf k s).ifQ = s.ifQ := rfl
@[simp] theorem selectAf_afQ : (selectAf k s).afQ = s.afQ := rfl
@[simp] theorem selectAf_capClosed : (selectAf k s).capClosed = s.capClosed := rfl
@[simp] theorem selectAf_cmdClosed : (selectAf k s).cmdClosed = s.cmdClosed := rfl
@[simp] theorem selectAf_sink1Sel : (selectAf k s).sink1Sel = s.sink1Sel := rfl
@[simp] theorem selectAf_sink2Sel : (selectAf k s).sink2Sel = s.sink2Sel := rfl
@[simp] theorem selectAf_sink1En : (selectAf k s).sink1En = s.sink1En := rfl
@[simp] theorem selectAf_sink2En : (selectAf k s).sink2En = s.sink2En := rfl
@[simp] theorem selectAf_fatal : (selectAf k s).fatal = s.fatal := rfl
@[simp] theorem selectAf_cause : (selectAf k s).cause = s.cause := rfl
@[simp] theorem selectAf_mode : (selectAf k s).mode = s.mode := rfl
@[simp] theorem selectAf_pending : (selectAf k s).pending = s.pending := rfl
@[simp] theorem selectAf_responses : (selectAf k s).responses = s.responses := rfl
@[simp] theorem selectAf_events : (selectAf k s).events = s.events := rfl
@[simp] theorem selectAf_script : (selectAf k s).script = s.script := rfl
@[simp] theorem selectAf_tick : (selectAf k s).tick = s.tick := rfl

end

/-! ## selectAgc -/

section

variable (k : AgcSpec) (s : State)

@[simp] theorem selectAgc_cfg : (selectAgc k s).cfg = s.cfg := rfl
@[simp] theorem selectAgc_ifSpec : (selectAgc k s).ifSpec = s.ifSpec := rfl
@[simp] theorem selectAgc_ifHist : (selectAgc k s).ifHist = s.ifHist := rfl
@[simp] theorem selectAgc_afSpec : (selectAgc k s).afSpec = s.afSpec := rfl
@[simp] theorem selectAgc_afHist : (selectAgc k s).afHist = s.afHist := rfl
@[simp] theorem selectAgc_agcSpec : (selectAgc k s).agcSpec = k := rfl
@[simp] theorem selectAgc_agcHist : (selectAgc k s).agcHist = ⟨0#32, 0#32, 0#32⟩ := rfl
@[simp] theorem selectAgc_rssi : (selectAgc k s).rssi = s.rssi := rfl
@[simp] theorem selectAgc_ncoFreq : (selectAgc k s).ncoFreq = s.ncoFreq := rfl
@[simp] theorem selectAgc_ncoDelta : (selectAgc k s).ncoDelta = s.ncoDelta := rfl
@[simp] theorem selectAgc_ncoPhase : (selectAgc k s).ncoPhase = s.ncoPhase := rfl
@[simp] theorem selectAgc_rbBuf : (selectAgc k s).rbBuf = s.rbBuf := rfl
@[simp] theorem selectAgc_rbHead : (selectAgc k s).rbHead = s.rbHead := rfl
@[simp] theorem selectAgc_rbTail : (selectAgc k s).rbTail = s.rbTail := rfl
@[simp] theorem selectAgc_rbSize : (selectAgc k s).rbSize = s.rbSize := rfl
@[simp] theorem selectAgc_seqState : (selectAgc k s).seqState = s.seqState := rfl
@[simp] theorem selectAgc_seqPhase : (selectAgc k s).seqPhase = s.seqPhase := rfl
@[simp] theorem selectAgc_cmdQ : (selectAgc k s).cmdQ = s.cmdQ := rfl
@[simp] theorem selectAgc_ifQ : (selectAgc k s).ifQ = s.ifQ := rfl
@[simp] theorem selectAgc_afQ : (selectAgc k s).afQ = s.afQ := rfl
@[simp] theorem selectAgc_capClosed : (selectAgc k s).capClosed = s.capClosed := rfl
@[simp] theorem selectAgc_cmdClosed : (selectAgc k s).cmdClosed = s.cmdClosed := rfl
@[simp] theorem selectAgc_sink1Sel : (selectAgc k s).sink1Sel = s.sink1Sel := rfl
@[simp] theorem selectAgc_sink2Sel : (selectAgc k s).sink2Sel = s.sink2Sel := rfl
@[simp] theorem selectAgc_sink1En : (selectAgc k s).sink1En = s.sink1En := rfl
@[simp] theorem selectAgc_sink2En : (selectAgc k s).sink2En = s.sink2En := rfl
@[simp] theorem selectAgc_fatal : (selectAgc k s).fatal = s.fatal := rfl
@[simp] theorem selectAgc_cause : (selectAgc k s).cause = s.cause := rfl
@[simp] theorem selectAgc_mode : (selectAgc k s).mode = s.mode := rfl
@[simp] theorem selectAgc_pending : (selectAgc k s).pending = s.pending := rfl
@[simp] theorem selectAgc_responses : (selectAgc k s).responses = s.responses := rfl
@[simp] theorem selectAgc_events : (selectAgc k s).events = s.events := rfl
@[simp] theorem selectAgc_script : (selectAgc k s).script = s.script := rfl
@[simp] theorem selectAgc_tick : (selectAgc k s).tick = s.tick := rfl

end

/-! ## constructNco -/

section

variable (f delta : F32) (s : State)

@[simp] theorem constructNco_cfg : (constructNco f delta s).cfg = s.cfg := rfl
@[simp] theorem constructNco_ifSpec : (constructNco f delta s).ifSpec = s.ifSpec := rfl
@[simp] theorem constructNco_ifHist : (constructNco f delta s).ifHist = s.ifHist := rfl
@[simp] theorem constructNco_afSpec : (constructNco f delta s).afSpec = s.afSpec := rfl
@[simp] theorem constructNco_afHist : (constructNco f delta s).afHist = s.afHist := rfl
@[simp] theorem constructNco_agcSpec : (constructNco f delta s).agcSpec = s.agcSpec := rfl
@[simp] theorem constructNco_agcHist : (constructNco f delta s).agcHist = s.agcHist := rfl
@[simp] theorem constructNco_rssi : (constructNco f delta s).rssi = s.rssi := rfl
@[simp] theorem constructNco_ncoFreq : (constructNco f delta s).ncoFreq = f := rfl
@[simp] theorem constructNco_ncoDelta : (constructNco f delta s).ncoDelta = delta := rfl
@[simp] theorem constructNco_ncoPhase : (constructNco f delta s).ncoPhase = 0#32 := rfl
@[simp] theorem constructNco_rbBuf : (constructNco f delta s).rbBuf = s.rbBuf := rfl
@[simp] theorem constructNco_rbHead : (constructNco f delta s).rbHead = s.rbHead := rfl
@[simp] theorem constructNco_rbTail : (constructNco f delta s).rbTail = s.rbTail := rfl
@[simp] theorem constructNco_rbSize : (constructNco f delta s).rbSize = s.rbSize := rfl
@[simp] theorem constructNco_seqState : (constructNco f delta s).seqState = s.seqState := rfl
@[simp] theorem constructNco_seqPhase : (constructNco f delta s).seqPhase = s.seqPhase := rfl
@[simp] theorem constructNco_cmdQ : (constructNco f delta s).cmdQ = s.cmdQ := rfl
@[simp] theorem constructNco_ifQ : (constructNco f delta s).ifQ = s.ifQ := rfl
@[simp] theorem constructNco_afQ : (constructNco f delta s).afQ = s.afQ := rfl
@[simp] theorem constructNco_capClosed : (constructNco f delta s).capClosed = s.capClosed := rfl
@[simp] theorem constructNco_cmdClosed : (constructNco f delta s).cmdClosed = s.cmdClosed := rfl
@[simp] theorem constructNco_sink1Sel : (constructNco f delta s).sink1Sel = s.sink1Sel := rfl
@[simp] theorem constructNco_sink2Sel : (constructNco f delta s).sink2Sel = s.sink2Sel := rfl
@[simp] theorem constructNco_sink1En : (constructNco f delta s).sink1En = s.sink1En := rfl
@[simp] theorem constructNco_sink2En : (constructNco f delta s).sink2En = s.sink2En := rfl
@[simp] theorem constructNco_fatal : (constructNco f delta s).fatal = s.fatal := rfl
@[simp] theorem constructNco_cause : (constructNco f delta s).cause = s.cause := rfl
@[simp] theorem constructNco_mode : (constructNco f delta s).mode = s.mode := rfl
@[simp] theorem constructNco_pending : (constructNco f delta s).pending = s.pending := rfl
@[simp] theorem constructNco_responses : (constructNco f delta s).responses = s.responses := rfl
@[simp] theorem constructNco_events : (constructNco f delta s).events = s.events := rfl
@[simp] theorem constructNco_script : (constructNco f delta s).script = s.script := rfl
@[simp] theorem constructNco_tick : (constructNco f delta s).tick = s.tick := rfl

end

/-! ## Compositions -/

/-- The requests waiting on a port. -/
theorem waiting_def (s : State) (p : Port) : s.waiting p = s.pending.get p := rfl

/-- The requests of a port after they are replaced. -/
@[simp] theorem get_set_same (q : PortQueues) (p : Port) (rs : List Request) :
    (q.set p rs).get p = rs := by cases p <;> rfl

/-- Replacing the requests of one port leaves the other ports alone. -/
theorem get_set_other (q : PortQueues) (p p' : Port) (rs : List Request) (h : p' ≠ p) :
    (q.set p rs).get p' = q.get p' := by cases p <;> cases p' <;> first | rfl | exact absurd rfl h

/-- A response is `answered` with the requests that wait behind the one answered. -/
theorem respond_eq_answered (p : Port) (st : Status) (res : Result) (s : State) (r : Request)
    (rs : List Request) (h : s.waiting p = r :: rs) : respond p st res s = answered p st res rs s := by
  unfold respond answered
  rw [h]
  rfl

/-- A halted port operation is `answered` on the halted state. -/
theorem raiseFatal_eq_answered (p : Port) (code : Status) (s : State) (r : Request)
    (rs : List Request) (h : s.waiting p = r :: rs) :
    raiseFatal p code s = answered p code .none rs { s with fatal := true, cause := code.code } :=
  respond_eq_answered p code .none (haltWith code s) r rs h

end Sys2Proof.Machine
end

