-- ==== Sys2Proof/Laws/Memory.lean ====
section
/-! SUPPORT. The laws of the ring-buffer store: a read after a write gives the value written, a write
leaves every other slot alone, and a write keeps the canonical form. -/

namespace Sys2Proof.Machine

/-- A write is found at its slot. -/
@[simp] theorem find_write_same (m : Memory) (i : Nat) (v : F32) :
    Memory.find (Memory.write m i v) i = some v := by
  induction m with
  | nil => simp [Memory.write, Memory.find]
  | cons e m ih =>
    obtain ⟨k, u⟩ := e
    unfold Memory.write
    split_ifs with h1 h2
    · simp [Memory.find]
    · simp [Memory.find]
    · have : k ≠ i := fun h => h2 h.symm
      simp [Memory.find, this, ih]

/-- A write leaves every other slot as it was. -/
theorem find_write_other (m : Memory) (i a : Nat) (v : F32) (h : a ≠ i) :
    Memory.find (Memory.write m i v) a = Memory.find m a := by
  induction m with
  | nil => simp [Memory.write, Memory.find, h.symm]
  | cons e m ih =>
    obtain ⟨k, u⟩ := e
    unfold Memory.write
    split_ifs with h1 h2
    · simp [Memory.find, h.symm]
    · subst h2
      simp [Memory.find, h.symm]
    · simp [Memory.find, ih]

/-- A read after a write to the same slot. -/
@[simp] theorem read_write_same (m : Memory) (i : Nat) (v : F32) :
    Memory.read (Memory.write m i v) i = v := by simp [Memory.read]

/-- A read after a write to another slot. -/
theorem read_write_other (m : Memory) (i a : Nat) (v : F32) (h : a ≠ i) :
    Memory.read (Memory.write m i v) a = Memory.read m a := by
  simp [Memory.read, find_write_other m i a v h]

/-- A lower bound of a rising list may be lowered. -/
theorem risingFrom_le {lo lo' : Nat} (m : Memory) (hle : lo' ≤ lo)
    (h : Memory.risingFrom lo m = true) : Memory.risingFrom lo' m = true := by
  cases m with
  | nil => rfl
  | cons e m =>
    simp only [Memory.risingFrom, Bool.and_eq_true, decide_eq_true_eq] at h ⊢
    exact ⟨hle.trans h.1, h.2⟩

/-- A write keeps the slots strictly rising. -/
theorem risingFrom_write (m : Memory) (lo i : Nat) (v : F32) (hi : lo ≤ i)
    (h : Memory.risingFrom lo m = true) : Memory.risingFrom lo (Memory.write m i v) = true := by
  induction m generalizing lo with
  | nil => simp [Memory.write, Memory.risingFrom, hi]
  | cons e m ih =>
    obtain ⟨k, u⟩ := e
    simp only [Memory.risingFrom, Bool.and_eq_true, decide_eq_true_eq] at h
    unfold Memory.write
    split_ifs with h1 h2
    · simp only [Memory.risingFrom, Bool.and_eq_true, decide_eq_true_eq]
      exact ⟨hi, h1, h.2⟩
    · subst h2
      simp only [Memory.risingFrom, Bool.and_eq_true, decide_eq_true_eq]
      exact ⟨hi, h.2⟩
    · simp only [Memory.risingFrom, Bool.and_eq_true, decide_eq_true_eq]
      exact ⟨h.1, ih (k + 1) (by omega) h.2⟩

/-- Every slot listed after a write was listed before or is the slot written. -/
theorem mem_write (m : Memory) (i : Nat) (v : F32) (e : Nat × F32) (h : e ∈ Memory.write m i v) :
    e ∈ m ∨ e.1 = i := by
  induction m with
  | nil => simp only [Memory.write, List.mem_singleton] at h; right; rw [h]
  | cons d m ih =>
    obtain ⟨k, u⟩ := d
    unfold Memory.write at h
    split_ifs at h with h1 h2
    · rcases List.mem_cons.1 h with h | h
      · right; rw [h]
      · exact .inl h
    · rcases List.mem_cons.1 h with h | h
      · right; rw [h]
      · exact .inl (List.mem_cons_of_mem _ h)
    · rcases List.mem_cons.1 h with h | h
      · left; rw [h]; exact List.mem_cons_self
      · exact (ih h).imp (List.mem_cons_of_mem _) id

/-- A write of a slot below `cap` keeps the canonical form. -/
theorem wf_write (m : Memory) (cap i : Nat) (v : F32) (hi : i < cap) (h : Memory.wf cap m = true) :
    Memory.wf cap (Memory.write m i v) = true := by
  simp only [Memory.wf, Bool.and_eq_true, List.all_eq_true, decide_eq_true_eq] at h ⊢
  refine ⟨risingFrom_write m 0 i v (Nat.zero_le _) h.1, fun e he => ?_⟩
  rcases mem_write m i v e he with he | he
  · exact h.2 e he
  · rw [he]; exact hi

/-- The empty store has the canonical form. -/
@[simp] theorem wf_nil (cap : Nat) : Memory.wf cap [] = true := rfl

/-- The store at reset has the canonical form. -/
theorem wf_reset (c : Params) : Memory.wf c.cap (State.resetWith c).rbBuf = true := rfl

/-! ## A chunk written around the end of the store -/

/-- Writing a chunk keeps the canonical form. -/
theorem wf_writeSlots (cap : Nat) (hc : 0 < cap) (x : Chunk) (m : Memory) (i : Nat)
    (h : Memory.wf cap m = true) : Memory.wf cap (writeSlots cap m i x) = true := by
  induction x generalizing m i with
  | nil => exact h
  | cons v x ih => exact ih _ _ (wf_write m cap (i % cap) v (Nat.mod_lt _ hc) h)

/-- Writing a chunk leaves every slot outside it as it was. -/
theorem find_writeSlots_other (cap : Nat) (x : Chunk) (m : Memory) (i a : Nat)
    (h : ∀ j < x.length, a ≠ (i + j) % cap) :
    Memory.find (writeSlots cap m i x) a = Memory.find m a := by
  induction x generalizing m i with
  | nil => rfl
  | cons v x ih =>
    have h0 : a ≠ i % cap := by simpa using h 0 (by simp)
    have hs : ∀ j < x.length, a ≠ (i + 1 + j) % cap := fun j hj => by
      have := h (j + 1) (by simpa using hj)
      rwa [show i + 1 + j = i + (j + 1) by omega]
    rw [writeSlots, ih _ _ hs, find_write_other _ _ _ _ h0]

/-- Two offsets of less than `cap` from one slot are different slots. -/
theorem mod_offset_ne (cap i j k : Nat) (hjk : j < k) (hk : k < cap) :
    (i + j) % cap ≠ (i + k) % cap := fun h => by
  have h' : (k - j) % cap = 0 := by
    have := Nat.sub_mod_eq_zero_of_mod_eq h.symm
    rwa [show i + k - (i + j) = k - j by omega] at this
  rw [Nat.mod_eq_of_lt (by omega)] at h'
  omega

/-- Writing a chunk no longer than the store puts sample j in slot (i + j) mod cap. -/
theorem find_writeSlots_at (cap : Nat) (x : Chunk) (m : Memory) (i j : Nat) (v : F32)
    (hx : x.length ≤ cap) (h : x[j]? = some v) :
    Memory.find (writeSlots cap m i x) ((i + j) % cap) = some v := by
  induction x generalizing m i j with
  | nil => simp at h
  | cons u x ih =>
    have hlen : x.length + 1 ≤ cap := by simpa using hx
    cases j with
    | zero =>
      simp only [List.getElem?_cons_zero, Option.some.injEq] at h
      rw [writeSlots, find_writeSlots_other _ _ _ _ _ (fun j hj => ?_), Nat.add_zero, h]
      · exact find_write_same _ _ _
      · have := mod_offset_ne cap i 0 (j + 1) (by omega) (by omega)
        rwa [show i + 1 + j = i + (j + 1) by omega]
    | succ j =>
      rw [writeSlots, show i + (j + 1) = i + 1 + j by omega]
      exact ih _ _ _ (by omega) (by simpa using h)

end Sys2Proof.Machine
end

