-- ==== Sys2Proof/Laws/Ops.lean ====
section
/-! SUPPORT. What each shared operation can do, said once: the checks of a port operation, push and pop,
the top-up and output of RB.FILL, command acceptance, the sequencer and the step. -/

namespace Sys2Proof.Machine

/-! ## The checks (60_exceptions.md R238) -/

/-- The own part of an operation decides where every check passes. -/
theorem checked_own {i : Instr} {s own : State} (hf : s.fatal = false ∨ admittedHalted i = true)
    (hw : i.wf = true) (hm : admittedIn i s.mode = true) : checked i s own = own := by
  unfold checked
  rcases hf with h | h <;> simp [h, hw, hm]

/-- A halted block answers HALTED. -/
theorem checked_halted {i : Instr} {s own : State} (hf : s.fatal = true)
    (hi : admittedHalted i = false) : checked i s own = respond i.port .halted .none s := by
  simp [checked, hf, hi]

/-- A mode that does not admit the operation answers MODE. -/
theorem checked_mode {i : Instr} {s own : State} (hf : s.fatal = false ∨ admittedHalted i = true)
    (hw : i.wf = true) (hm : admittedIn i s.mode = false) :
    checked i s own = respond i.port .mode .none s := by
  unfold checked
  rcases hf with h | h <;> simp [h, hw, hm]

/-- Everything `checked` can answer. -/
theorem checked_cases (i : Instr) (s own : State) :
    (checked i s own = respond i.port .halted .none s ∧ s.fatal = true ∧ admittedHalted i = false) ∨
    (checked i s own = respond i.port .illegal .none s ∧ i.wf = false) ∨
    (checked i s own = respond i.port .mode .none s ∧ admittedIn i s.mode = false) ∨
    (checked i s own = own ∧ (s.fatal = false ∨ admittedHalted i = true) ∧ i.wf = true ∧
      admittedIn i s.mode = true) := by
  unfold checked
  split_ifs with h1 h2 h3
  · exact .inl ⟨rfl, by simpa using h1⟩
  · exact .inr (.inl ⟨rfl, by simpa using h2⟩)
  · exact .inr (.inr (.inl ⟨rfl, by simpa using h3⟩))
  · refine .inr (.inr (.inr ⟨rfl, ?_, by simpa using h2, by simpa using h3⟩))
    cases hf : s.fatal
    · exact .inl rfl
    · exact .inr (by simpa [hf] using h1)

/-- Everything the answer to a word that is no operation of its port can be. -/
theorem refuseWord_cases (p : Port) (w : OpWord) (s : State) :
    (refuseWord p w s = respond p .halted .none s ∧ s.fatal = true ∧
      isRegisterReadWord p w = false) ∨
    (refuseWord p w s = respond p .rejected .none s ∧ s.fatal = false ∧ p = .command) ∨
    (refuseWord p w s = respond p .illegal .none s ∧
      (s.fatal = false ∨ isRegisterReadWord p w = true) ∧ p ≠ .command) := by
  unfold refuseWord
  split_ifs with h1 h2
  · exact .inl ⟨rfl, by simpa using h1⟩
  · refine .inr (.inl ⟨rfl, ?_, h2⟩)
    subst h2
    simpa [isRegisterReadWord] using h1
  · refine .inr (.inr ⟨rfl, ?_, h2⟩)
    cases hf : s.fatal
    · exact .inl rfl
    · exact .inr (by simpa [hf] using h1)

/-! ## Push and pop (43_ring_buffer.md R160) -/

/-- What a push that succeeds does. -/
theorem rbPushChunk_some {x : Chunk} {s t : State} (h : rbPushChunk x s = some t) :
    s.rbSize + s.cfg.n ≤ s.cfg.cap ∧
    t = { s with
      rbBuf := writeSlots s.cfg.cap s.rbBuf s.rbTail x
      rbTail := (s.rbTail + s.cfg.n) % s.cfg.cap
      rbSize := s.rbSize + s.cfg.n } := by
  unfold rbPushChunk at h
  split_ifs at h with hc
  exact ⟨by omega, by simpa using h.symm⟩

/-- A push succeeds where there is room. -/
theorem rbPushChunk_of_room {x : Chunk} {s : State} (h : s.rbSize + s.cfg.n ≤ s.cfg.cap) :
    rbPushChunk x s = some { s with
      rbBuf := writeSlots s.cfg.cap s.rbBuf s.rbTail x
      rbTail := (s.rbTail + s.cfg.n) % s.cfg.cap
      rbSize := s.rbSize + s.cfg.n } := by
  unfold rbPushChunk
  rw [if_neg (by omega)]

/-- A push fails where there is no room. -/
theorem rbPushChunk_none {x : Chunk} {s : State} :
    rbPushChunk x s = none ↔ s.cfg.cap < s.rbSize + s.cfg.n := by
  unfold rbPushChunk
  split_ifs with h <;> simp <;> omega

/-- What a pop that succeeds does. -/
theorem rbPopSample_some {s t : State} {v : F32} (h : rbPopSample s = some (v, t)) :
    s.rbSize ≠ 0 ∧ v = Memory.read s.rbBuf s.rbHead ∧
    t = { s with rbHead := (s.rbHead + 1) % s.cfg.cap, rbSize := s.rbSize - 1 } := by
  unfold rbPopSample at h
  split_ifs at h with hz
  simp only [Option.some.injEq, Prod.mk.injEq] at h
  exact ⟨hz, h.1.symm, h.2.symm⟩

/-- A pop succeeds where the buffer is not empty. -/
theorem rbPopSample_of_nonempty {s : State} (h : s.rbSize ≠ 0) :
    rbPopSample s = some (Memory.read s.rbBuf s.rbHead,
      { s with rbHead := (s.rbHead + 1) % s.cfg.cap, rbSize := s.rbSize - 1 }) := by
  unfold rbPopSample
  rw [if_neg h]

/-- The output loop of RB.FILL gives as many samples as it was asked for, and changes only the read
cursor and the size. -/
theorem fillOutput_frame {c left k : Nat} {v : F32} {s t : State} {out : List F32}
    (h : fillOutput c left k v s = some (out, t)) :
    out.length = left ∧ t = { s with rbHead := t.rbHead, rbSize := t.rbSize } := by
  induction left generalizing k v s t out with
  | zero =>
    simp only [fillOutput, Option.some.injEq, Prod.mk.injEq] at h
    obtain ⟨rfl, rfl⟩ := h
    exact ⟨rfl, rfl⟩
  | succ left ih =>
    rw [fillOutput] at h
    split_ifs at h with hk
    · cases hp : rbPopSample s with
      | none => simp [hp] at h
      | some r =>
        obtain ⟨v', u⟩ := r
        cases ho : fillOutput c left (k + 1) v' u with
        | none => simp [hp, ho] at h
        | some o =>
          obtain ⟨out', w⟩ := o
          simp only [hp, ho, Option.some.injEq, Prod.mk.injEq] at h
          obtain ⟨rfl, rfl⟩ := h
          obtain ⟨hl, ht⟩ := ih ho
          obtain ⟨-, -, hu⟩ := rbPopSample_some hp
          refine ⟨by simp [hl], ?_⟩
          rw [hu] at ht
          exact ht
    · cases ho : fillOutput c left (k + 1) v s with
      | none => simp [ho] at h
      | some o =>
        obtain ⟨out', w⟩ := o
        simp only [ho, Option.some.injEq, Prod.mk.injEq] at h
        obtain ⟨rfl, rfl⟩ := h
        obtain ⟨hl, ht⟩ := ih ho
        exact ⟨by simp [hl], ht⟩

/-- Everything a top-up can do. -/
theorem fillTopUp_cases (s : State) :
    (s.afQ = [] ∧ s.seqState ≠ .stopped ∧ fillTopUp s = s) ∨
    (s.afQ = [] ∧ s.seqState = .stopped ∧
      fillTopUp s = raiseFatal .playback .channelDisconnect s) ∨
    (∃ x q, s.afQ = x :: q ∧ s.cfg.cap < s.rbSize + s.cfg.n ∧
      fillTopUp s = raiseFatal .playback .rbOverflow s) ∨
    (∃ x q, s.afQ = x :: q ∧ s.rbSize + s.cfg.n ≤ s.cfg.cap ∧
      fillTopUp s = { s with
        afQ := q
        rbBuf := writeSlots s.cfg.cap s.rbBuf s.rbTail x
        rbTail := (s.rbTail + s.cfg.n) % s.cfg.cap
        rbSize := s.rbSize + s.cfg.n }) := by
  unfold fillTopUp
  cases hq : s.afQ with
  | nil =>
    by_cases hs : s.seqState = .stopped
    · exact .inr (.inl ⟨rfl, hs, by simp [hs]⟩)
    · exact .inl ⟨rfl, hs, by simp [hs]⟩
  | cons x q =>
    by_cases hr : s.rbSize + s.cfg.n ≤ s.cfg.cap
    · refine .inr (.inr (.inr ⟨x, q, rfl, hr, ?_⟩))
      simp only [rbPushChunk_of_room (s := { s with afQ := q }) (x := x) hr]
    · refine .inr (.inr (.inl ⟨x, q, rfl, by omega, ?_⟩))
      have : rbPushChunk x { s with afQ := q } = none := rbPushChunk_none.2 (by simpa using hr)
      simp only [this]

/-! ## Command acceptance (44_chain.md R181) -/

/-- Everything acceptance can do once the checks are passed. -/
theorem acceptCommand_cases (i : Instr) (s : State) :
    ((s.cmdClosed = true ∨ s.seqState = .stopped) ∧
      acceptCommand i s = respond .command .stopped .none s) ∨
    (s.cmdClosed = false ∧ s.seqState ≠ .stopped ∧
      acceptCommand i s = respond .command .ok .none
        { s with cmdQ := s.cmdQ ++ [encodeWord i], cmdClosed := i.op == 0x0F#8 }) := by
  unfold acceptCommand
  cases hc : s.cmdClosed <;> cases hs : s.seqState <;> simp

/-! ## The sequencer (44_chain.md R196 to R198) -/

/-- Everything the sequencer's turn can do. -/
theorem sequencerStep_cases (f1 f2 : Bool) (s : State) :
    (sequencerEnabled s = false ∧ sequencerStep f1 f2 s = s) ∨
    (sequencerEnabled s = true ∧ s.seqPhase = .poll ∧ sequencerStep f1 f2 s = pollStep s) ∨
    (sequencerEnabled s = true ∧ s.seqPhase = .wait ∧ sequencerStep f1 f2 s = waitStep f1 f2 s) := by
  unfold sequencerStep
  cases he : sequencerEnabled s <;> cases hp : s.seqPhase <;> simp

/-- Everything the Wait step can do. -/
theorem waitStep_cases (f1 f2 : Bool) (s : State) :
    (s.ifQ = [] ∧ s.capClosed = false ∧ waitStep f1 f2 s = s) ∨
    (s.ifQ = [] ∧ s.capClosed = true ∧ waitStep f1 f2 s = haltWith .channelDisconnect s) ∨
    (∃ x q, s.ifQ = x :: q ∧ waitStep f1 f2 s = forwardChunk f1 f2 x q s) := by
  unfold waitStep
  cases hq : s.ifQ <;> cases hc : s.capClosed <;> simp

/-! ## The step -/

/-- Everything a port's turn can do. -/
theorem portStep_cases (p : Port) (s : State) :
    (s.waiting p = [] ∧ portStep p s = .next s) ∨
    (∃ r rs i, s.waiting p = r :: rs ∧ decodeWord r.word = .ok i ∧ i.port = p ∧
      portStep p s = exec i s) ∨
    (∃ r rs, s.waiting p = r :: rs ∧ (∀ i, decodeWord r.word = .ok i → i.port ≠ p) ∧
      portStep p s = .next (refuseWord p r.word s)) := by
  unfold portStep fetchRequest
  cases hq : s.waiting p with
  | nil => exact .inl ⟨rfl, rfl⟩
  | cons r rs =>
    right
    cases hd : decodeWord r.word with
    | error e => exact .inr ⟨r, rs, rfl, by simp [hd], by simp [decodeOnPort, hd]⟩
    | ok i =>
      by_cases hp : i.port = p
      · exact .inl ⟨r, rs, i, rfl, hd, hp, by simp [decodeOnPort, hd, hp]⟩
      · refine .inr ⟨r, rs, rfl, ?_, by simp [decodeOnPort, hd, hp]⟩
        intro j hj
        rw [hd] at hj
        cases hj
        exact hp

/-- Everything a step can do, by the input that comes next. -/
theorem step_cases (s : State) :
    (∃ p r, nextInput s = .arrive p r ∧ step s = .next (arrive p r (takeInput s))) ∨
    (∃ p, nextInput s = .port p ∧ step s = portStep p (takeInput s)) ∨
    (∃ f1 f2, nextInput s = .sequencer f1 f2 ∧
      step s = .next (sequencerStep f1 f2 (takeInput s))) ∨
    (nextInput s = .reset ∧ step s = .next (assertReset (takeInput s))) := by
  unfold step
  cases h : nextInput s with
  | arrive p r => exact .inl ⟨p, r, rfl, rfl⟩
  | port p => exact .inr (.inl ⟨p, rfl, rfl⟩)
  | sequencer f1 f2 => exact .inr (.inr (.inl ⟨f1, f2, rfl, rfl⟩))
  | reset => exact .inr (.inr (.inr ⟨rfl, rfl⟩))

end Sys2Proof.Machine
end

