-- ==== Sys2Proof/Laws/PerInstr.lean ====
section
/-! SUPPORT. The per-instruction family `Fields`: the fields of an operation's word are its OP, its SUB, a
zero RES and its ARG (30_encoding.md R71, R73). -/

namespace Sys2Proof.Laws.Fields

/-- The four fields of an operation's word. -/
def Statement (i : Instr) : Prop :=
  opField (encodeWord i) = i.op ∧ subField (encodeWord i) = i.sub ∧
    resField (encodeWord i) = 0#16 ∧ argField (encodeWord i) = i.arg

/-- The encoder makes a word from exactly these fields. -/
theorem of_encode (i : Instr) : Statement i := by simp [Statement, encodeWord]

theorem cmdAm (n : BitVec 32) : Statement (.cmdAm n) := of_encode _
theorem cmdAgc (n : BitVec 32) : Statement (.cmdAgc n) := of_encode _
theorem cmdAf (n : BitVec 32) : Statement (.cmdAf n) := of_encode _
theorem cmdRssi (h : BitVec 32) : Statement (.cmdRssi h) := of_encode _
theorem cmdIfout (h : BitVec 32) : Statement (.cmdIfout h) := of_encode _
theorem cmdEnd : Statement .cmdEnd := of_encode _
theorem firSelIf (k : IfSpec) : Statement (.firSelIf k) := of_encode _
theorem firSelAf (k : AfSpec) : Statement (.firSelAf k) := of_encode _
theorem firRunIf : Statement .firRunIf := of_encode _
theorem firRunAf : Statement .firRunAf := of_encode _
theorem agcSel (k : AgcSpec) : Statement (.agcSel k) := of_encode _
theorem agcRun : Statement .agcRun := of_encode _
theorem envRun : Statement .envRun := of_encode _
theorem ncoInit (f : F32) : Statement (.ncoInit f) := of_encode _
theorem ncoGen : Statement .ncoGen := of_encode _
theorem rbPush : Statement .rbPush := of_encode _
theorem rbPop : Statement .rbPop := of_encode _
theorem rbFill (c : BitVec 8) (l : BitVec 32) : Statement (.rbFill c l) := of_encode _
theorem ifSend : Statement .ifSend := of_encode _
theorem ifClose : Statement .ifClose := of_encode _
theorem csrRead (a : BitVec 16) : Statement (.csrRead a) := of_encode _

end Sys2Proof.Laws.Fields
end

