-- ==== Sys2Proof/Laws/Units.lean ====
section
/-! SUPPORT. What each unit's function can do: lengths of filtered chunks, samples of mapped chunks, and
when the output of RB.FILL is there. -/

namespace Sys2Proof.Machine

/-! ## Ports -/

/-- Answering from a state whose ports hold what they held. -/
theorem respond_of_same_ports {s t : State} {p : Port} {r : Request} {rs : List Request} (st : Status)
    (res : Result) (hw : s.waiting p = r :: rs) (ht : t.pending = s.pending) :
    respond p st res t = answered p st res rs t := by
  have h : t.waiting p = r :: rs := by rw [← hw]; simp [State.waiting, ht]
  simp [respond, answered, h]

/-- The payload of the request in progress. -/
theorem payload_of_waiting {s : State} {p : Port} {r : Request} {rs : List Request}
    (hw : s.waiting p = r :: rs) : s.payload p = r.payload := by
  simp [State.payload, hw]

/-! ## Filters (40_filter_bank.md R100, R106) -/

/-- The FIR function keeps the length of the history and of the chunk. -/
theorem firChunk_length (c : List F32) (x : Chunk) (d : DrawSite) (h : List F32) (hl : 1 ≤ h.length) :
    (firChunk d c h x).1.length = h.length ∧ (firChunk d c h x).2.length = x.length := by
  induction x generalizing d h with
  | nil => simp [firChunk]
  | cons v x ih =>
    have := ih d.nextSample (h.drop 1 ++ [v]) (by simp)
    simp only [firChunk, this, List.length_cons, and_true, List.length_append, List.length_drop,
      List.length_nil]
    omega

/-! ## Per-sample maps -/

@[simp] theorem mapSamples_length (f : DrawSite → F32 → F32) (d : DrawSite) (x : Chunk) :
    (mapSamples f d x).length = x.length := by
  induction x generalizing d with
  | nil => rfl
  | cons v x ih => simp [mapSamples, ih]

/-- Each sample of a mapped chunk is the map of its sample at some site. -/
theorem mapSamples_get (f : DrawSite → F32 → F32) (d : DrawSite) (x : Chunk) (n : Nat) (v : F32)
    (h : x[n]? = some v) : ∃ e : DrawSite, (mapSamples f d x)[n]? = some (f e v) := by
  induction x generalizing d n with
  | nil => simp at h
  | cons u x ih =>
    cases n with
    | zero =>
      simp only [List.getElem?_cons_zero, Option.some.injEq] at h
      exact ⟨d, by simp [mapSamples, h]⟩
    | succ n => simpa [mapSamples] using ih d.nextSample n (by simpa using h)

/-- The AGC keeps the length of the chunk. -/
@[simp] theorem agcStage_length (s : State) (x : Chunk) : (agcStage s x).out.length = x.length := by
  unfold agcStage agcChunk
  simp only
  split_ifs <;> simp

/-- The envelope detector keeps the length of the chunk. -/
@[simp] theorem envChunk_length (tick : Nat) (x : Chunk) : (envChunk tick x).length = x.length := by
  simp [envChunk]

/-- The NCO gives as many samples as asked for. -/
@[simp] theorem ncoSamples_length (delta : F32) (k : Nat) (d : DrawSite) (p : F32) :
    (ncoSamples delta k d p).2.length = k := by
  induction k generalizing d p with
  | zero => rfl
  | succ k ih => simp [ncoSamples, ih]

/-! ## The output of RB.FILL (43_ring_buffer.md R168) -/

/-- The output finds a sample at every pop while the samples held, with the rest of the frame begun,
cover what is left. -/
theorem fillOutput_isSome (c left k : Nat) (v : F32) (s : State) (hc : 0 < c)
    (h : left + k % c ≤ s.rbSize * c + (if k % c = 0 then 0 else c)) :
    (fillOutput c left k v s).isSome = true := by
  induction left generalizing k v s with
  | zero => rfl
  | succ left ih =>
    have hlt := Nat.mod_lt k hc
    have hm : (k + 1) % c = if k % c + 1 = c then 0 else k % c + 1 := by
      by_cases h1 : c = 1
      · subst h1
        simp [Nat.mod_one]
      · rw [Nat.add_mod, Nat.mod_eq_of_lt (show 1 < c by omega)]
        split_ifs with h2
        · rw [h2, Nat.mod_self]
        · exact Nat.mod_eq_of_lt (by omega)
    unfold fillOutput
    split_ifs with hk
    · rw [if_pos hk] at h
      have hne : s.rbSize ≠ 0 := fun h0 => by simp [h0] at h
      have hsz : (s.rbSize - 1) * c + c = s.rbSize * c := by
        obtain ⟨m, hm'⟩ := Nat.exists_eq_succ_of_ne_zero hne
        rw [hm']
        simp [Nat.succ_mul]
      rw [rbPopSample_of_nonempty hne]
      simp only
      obtain ⟨r, hr⟩ := Option.isSome_iff_exists.1 (ih (k + 1) (Memory.read s.rbBuf s.rbHead)
        { s with rbHead := (s.rbHead + 1) % s.cfg.cap, rbSize := s.rbSize - 1 } (by
          show left + (k + 1) % c ≤ (s.rbSize - 1) * c + _
          rw [hm, hk]
          split_ifs <;> first | omega | simp_all))
      rw [hr]
      rfl
    · rw [if_neg hk] at h
      obtain ⟨r, hr⟩ := Option.isSome_iff_exists.1 (ih (k + 1) v s (by
        rw [hm]
        by_cases h2 : k % c + 1 = c
        · rw [if_pos h2, if_pos rfl]
          omega
        · rw [if_neg h2, if_neg (by omega)]
          omega))
      rw [hr]
      rfl

end Sys2Proof.Machine
end

