-- ==== Sys2Proof/Tests/Slice0.lean ====
section
/-! SUPPORT. Tests whose expected results are the worked vectors of 95_test_vectors.md (each names its
vector), the smoke test of the operand check, and for every statement with hypotheses a witness that
meets them. -/

namespace Sys2Proof.Tests

open Sys2Proof.Machine

-- One thread for the many small theorems below: each thread reserves a large stack.
set_option Elab.async false

/-! ## The example parameters and small states -/

/-- The parameter set EX of 95_test_vectors.md section 1. -/
def EX (m : Mode) : Params where
  n := 4
  fs := 0x41000000#32
  ifTab3k := [0x3F000000#32, 0x3F000000#32]
  ifTab6k := [0x3F000000#32, 0x3E800000#32, 0x3E000000#32]
  ifTab11k := [0x3E800000#32, 0x3F000000#32, 0x3E800000#32]
  afTab3k := [0x3F000000#32, 0x3F000000#32]
  afTab6k := [0x3E800000#32, 0x3F000000#32, 0x3E800000#32]
  afTab11k := [0x3F800000#32]
  agcTab0 := ⟨0#32, 0#32, 0x3F800000#32⟩
  agcTab1 := ⟨0#32, 0x3F000000#32, 0x3F000000#32⟩
  agcTab2 := ⟨0x3E800000#32, 0x3E800000#32, 0x3F000000#32⟩
  agcTab3 := ⟨0x3E800000#32, 0x3EC00000#32, 0x3EC00000#32⟩
  agcTab4 := ⟨0x3EC00000#32, 0x3EC00000#32, 0x3E800000#32⟩
  mode := m
  resetIf := .none
  resetAgc := .none
  resetAf := .k11

/-- After reset with EX in DIRECT mode. -/
def direct0 : State := State.resetWith (EX .direct)

/-- After reset with EX in CHAIN mode. -/
def chain0 : State := State.resetWith (EX .chain)

/-- A halted state. -/
def halted0 : State := { direct0 with fatal := true, cause := 8#4 }

/-- A request waits on a port and that port has the next turn. -/
def ask (s : State) (p : Port) (w : OpWord) (x : Chunk) : State :=
  { s with pending := s.pending.set p [⟨w, x⟩], script := [.port p] }

/-- The sequencer has the next turn. -/
def seqTurn (s : State) (f1 f2 : Bool) : State := { s with script := [.sequencer f1 f2] }

/-- The state after one step. -/
def after (s : State) : State :=
  match step s with
  | .next t => t
  | .fault _ => s
  | .refused _ => s

/-- The responses of one step on a request. -/
def reply (s : State) (p : Port) (w : OpWord) (x : Chunk) : List Response :=
  (after (ask s p w x)).responses

/-- {0.5, −0.5, 0.5, −0.5}, the input of section 3.2. -/
def halves : Chunk := [0x3F000000#32, 0xBF000000#32, 0x3F000000#32, 0xBF000000#32]

/-- {1.0, 0.0, −1.0, 0.0}, the input of program P2. -/
def square : Chunk := [0x3F800000#32, 0#32, 0xBF800000#32, 0#32]

/-- {1.0, 2.0, 3.0, 4.0}, the first chunk of program P3. -/
def ramp : Chunk := [0x3F800000#32, 0x40000000#32, 0x40400000#32, 0x40800000#32]

/-! ## Operand check -/

theorem test_wf_refuses_fill_without_channels : (Instr.rbFill 0#8 4#32).wf = false := by decide

theorem test_wf_admits_fill_with_channels :
    (Instr.rbFill 1#8 0#32).wf = true ∧ (Instr.rbFill 255#8 0xFFFFFFFF#32).wf = true := by decide

/-! ## Decoding: words written out from R71 and R73, as OP ++ SUB ++ RES ++ ARG -/

theorem test_decode_command_class :
    decodeWord (0x01#8 ++ 0#8 ++ 0#16 ++ 0x80000000#32) = .ok (.cmdAm 0x80000000#32) ∧
    decodeWord (0x02#8 ++ 0#8 ++ 0#16 ++ 0x00000004#32) = .ok (.cmdAgc 4#32) ∧
    decodeWord (0x03#8 ++ 0#8 ++ 0#16 ++ 0xFFFFFFFB#32) = .ok (.cmdAf (BitVec.ofInt 32 (-5))) ∧
    decodeWord (0x04#8 ++ 0#8 ++ 0#16 ++ 0x00000005#32) = .ok (.cmdRssi 5#32) ∧
    decodeWord (0x05#8 ++ 0#8 ++ 0#16 ++ 0x00000007#32) = .ok (.cmdIfout 7#32) ∧
    decodeWord (0x0F#8 ++ 0#8 ++ 0#16 ++ 0x00000000#32) = .ok .cmdEnd := by decide +kernel

theorem test_decode_filter_class :
    decodeWord (0x10#8 ++ 0#8 ++ 0#16 ++ 0x00000001#32) = .ok (.firSelIf .k6) ∧
    decodeWord (0x10#8 ++ 0#8 ++ 0#16 ++ 0x00000000#32) = .ok (.firSelIf .k3) ∧
    decodeWord (0x11#8 ++ 0#8 ++ 0#16 ++ 0x00000000#32) = .ok (.firSelAf .k3) ∧
    decodeWord (0x11#8 ++ 0#8 ++ 0#16 ++ 0x00000001#32) = .ok (.firSelAf .k6) ∧
    decodeWord (0x12#8 ++ 0#8 ++ 0#16 ++ 0x00000000#32) = .ok .firRunIf ∧
    decodeWord (0x13#8 ++ 0#8 ++ 0#16 ++ 0x00000000#32) = .ok .firRunAf := by decide +kernel

theorem test_decode_level_class :
    decodeWord (0x20#8 ++ 0#8 ++ 0#16 ++ 0x00000000#32) = .ok (.agcSel .tc0) ∧
    decodeWord (0x20#8 ++ 0#8 ++ 0#16 ++ 0x00000003#32) = .ok (.agcSel .tc3) ∧
    decodeWord (0x21#8 ++ 0#8 ++ 0#16 ++ 0x00000000#32) = .ok .agcRun ∧
    decodeWord (0x28#8 ++ 0#8 ++ 0#16 ++ 0x00000000#32) = .ok .envRun := by decide +kernel

theorem test_decode_nco_ring_capture_register :
    decodeWord (0x30#8 ++ 0#8 ++ 0#16 ++ 0x7FC00000#32) = .ok (.ncoInit 0x7FC00000#32) ∧
    decodeWord (0x31#8 ++ 0#8 ++ 0#16 ++ 0x00000000#32) = .ok .ncoGen ∧
    decodeWord (0x40#8 ++ 0#8 ++ 0#16 ++ 0x00000000#32) = .ok .rbPush ∧
    decodeWord (0x41#8 ++ 0#8 ++ 0#16 ++ 0x00000000#32) = .ok .rbPop ∧
    decodeWord (0x42#8 ++ 3#8 ++ 0#16 ++ 0x00000004#32) = .ok (.rbFill 3#8 4#32) ∧
    decodeWord (0x50#8 ++ 0#8 ++ 0#16 ++ 0x00000000#32) = .ok .ifSend ∧
    decodeWord (0x51#8 ++ 0#8 ++ 0#16 ++ 0x00000000#32) = .ok .ifClose ∧
    decodeWord (0x60#8 ++ 0#8 ++ 0#16 ++ 0x0000FFFF#32) = .ok (.csrRead 0xFFFF#16) := by
  decide +kernel

/-- Section 3.6, F16, F17, B7, 3.7: each with the reason it is refused. -/
theorem test_decode_refuses_by_name :
    decodeWord 0x0000000000000000#64 = .error .reservedOp ∧
    decodeWord 0x0600000000000000#64 = .error .reservedOp ∧
    decodeWord 0xFF00000000000000#64 = .error .reservedOp ∧
    decodeWord 0x0100000100000003#64 = .error .resNotZero ∧
    decodeWord 0x0101000000000003#64 = .error .subNotZero ∧
    decodeWord 0x0F00000000000001#64 = .error .argNotZero ∧
    decodeWord 0x1100000000000003#64 = .error .illegalCode ∧
    decodeWord 0x1000000000000004#64 = .error .argNotZero ∧
    decodeWord 0x2000000000000006#64 = .error .illegalCode ∧
    decodeWord 0x4200000000000004#64 = .error .zeroChannels ∧
    decodeWord 0x4201000100000004#64 = .error .resNotZero ∧
    decodeWord 0x6000000000010000#64 = .error .argNotZero ∧
    decodeBytes [0x0F#8] = .error .notEightBytes := by decide +kernel

/-- R54: byte 0 holds bits 7:0, so OP is the last of the 8 bytes. -/
theorem test_decode_bytes_of_fill :
    decodeBytes [0x08#8, 0#8, 0#8, 0#8, 0#8, 0#8, 0x02#8, 0x42#8] = .ok (.rbFill 2#8 8#32) ∧
    decodeTableWord 64 0x4202000000000008 = some (.rbFill 2#8 8#32) := by decide +kernel

/-- Section 3.6: a word of another port is refused on this one. -/
theorem test_decode_wrong_port :
    decodeOnPort .command 0x1000000000000000#64 = none ∧
    decodeOnPort .direct 0x0100000000000003#64 = none ∧
    decodeOnPort .direct 0x5000000000000000#64 = none ∧
    decodeOnPort .capture 0x1200000000000000#64 = none := by decide +kernel

/-! ## Filter Bank -/

/-- F13. -/
theorem test_firSelIf :
    (after (ask direct0 .direct 0x1000000000000001#64 [])).ifSpec = .k6 ∧
    (after (ask direct0 .direct 0x1000000000000001#64 [])).ifHist = [0#32, 0#32, 0#32] := by
  decide +kernel

/-- F16 and F18. -/
theorem test_firSelAf_refused :
    reply direct0 .direct 0x1100000000000003#64 [] = [⟨.direct, .illegal, .none⟩] ∧
    reply chain0 .direct 0x1100000000000000#64 [] = [⟨.direct, .mode, .none⟩] := by decide +kernel

/-- F1, the asymmetric table: index 0 pairs with the oldest sample. -/
theorem test_firRunIf_impulse :
    reply { direct0 with ifSpec := .k6, ifHist := [0#32, 0#32, 0#32] } .direct 0x1200000000000000#64
        [0x3F800000#32, 0#32, 0#32, 0#32] =
      [⟨.direct, .ok, .chunk [0x3E000000#32, 0x3E800000#32, 0x3F000000#32, 0#32]⟩] := by
  decide +kernel

/-- F10, the identity with a NaN payload and −0.0. -/
theorem test_firRunIf_none :
    reply direct0 .direct 0x1200000000000000#64
        [0x3F800000#32, 0x80000000#32, 0x7FC00001#32, 0x40000000#32] =
      [⟨.direct, .ok, .chunk [0x3F800000#32, 0x80000000#32, 0x7FC00001#32, 0x40000000#32]⟩] := by
  decide +kernel

/-- F11. -/
theorem test_firRunAf :
    reply { direct0 with afSpec := .k3, afHist := [0#32, 0#32] } .direct 0x1300000000000000#64
        [0x3F19999A#32, 0x3F19999A#32, 0x3F19999A#32, 0x3F19999A#32] =
      [⟨.direct, .ok, .chunk [0x3E99999A#32, 0x3F19999A#32, 0x3F19999A#32, 0x3F19999A#32]⟩] := by
  decide +kernel

/-- F8 in the IF role: half of the largest value twice does not overflow. -/
theorem test_firRunIf_largest :
    (firChunk ⟨0, 0, 0, 0⟩ [0x3F000000#32, 0x3F000000#32] [0#32, 0#32]
        [0x7F7FFFFF#32, 0x7F7FFFFF#32]).2 = [0x7EFFFFFF#32, 0x7F7FFFFF#32] := by decide +kernel

/-! ## AGC -/

/-- Section 3.2, selection: RSSI is not changed. -/
theorem test_agcSel :
    (after (ask { direct0 with rssi := 7#32, agcHist := ⟨1#32, 2#32, 3#32⟩ } .direct
        0x2000000000000004#64 [])).agcSpec = .tc4 ∧
    (after (ask { direct0 with rssi := 7#32, agcHist := ⟨1#32, 2#32, 3#32⟩ } .direct
        0x2000000000000004#64 [])).agcHist = ⟨0#32, 0#32, 0#32⟩ ∧
    (after (ask { direct0 with rssi := 7#32 } .direct 0x2000000000000004#64 [])).rssi = 7#32 := by
  decide +kernel

/-- Section 3.2, TC4 chunk 2. -/
theorem test_agcRun_scaled :
    reply { direct0 with agcSpec := .tc4, agcHist := ⟨0#32, 0#32, 0x3F000000#32⟩ } .direct
        0x2100000000000000#64 halves =
      [⟨.direct, .ok, .chunkMetric
        [0x3FA3D70B#32, 0xBFA3D70B#32, 0x3FA3D70B#32, 0xBFA3D70B#32] 0x3EA00000#32⟩] := by
  decide +kernel

/-- A2: a smoothed level of exactly the floor does not scale. -/
theorem test_agcRun_floor_is_strict :
    reply { direct0 with agcSpec := .tc0 } .direct 0x2100000000000000#64
        [0x3C23D70A#32, 0x3C23D70A#32, 0x3C23D70A#32, 0x3C23D70A#32] =
      [⟨.direct, .ok, .chunkMetric
        [0x3C23D70A#32, 0x3C23D70A#32, 0x3C23D70A#32, 0x3C23D70A#32] 0x3C23D70A#32⟩] := by
  decide +kernel

/-- Where R120 and R127 disagree (log entry 22): the steps of R120 by hand on EX, TC2, history [0, 0, +∞] and
a zero chunk give history [0, +∞, 0] and the smoothed level +∞, which they report; the chunk is unchanged. -/
theorem test_agcRun_zero_chunk_after_infinity :
    reply { direct0 with agcSpec := .tc2, agcHist := ⟨0#32, 0#32, 0x7F800000#32⟩ } .direct
        0x2100000000000000#64 [0#32, 0x80000000#32, 0#32, 0#32] =
      [⟨.direct, .ok, .chunkMetric [0#32, 0x80000000#32, 0#32, 0#32] 0x7F800000#32⟩] := by
  decide +kernel

/-! ## Envelope detector -/

/-- Section 3.3, and the illegal word there. -/
theorem test_envRun :
    reply chain0 .direct 0x2800000000000000#64
        [0x80000000#32, 0x3E99999A#32, 0xBF4CCCCD#32, 0x7F7FFFFF#32] =
      [⟨.direct, .ok, .chunk [0xBF800000#32, 0xBECCCCCC#32, 0x3F19999A#32, 0x7F800000#32]⟩] ∧
    reply chain0 .direct 0x2800000000000001#64 [] = [⟨.direct, .illegal, .none⟩] := by decide +kernel

/-! ## NCO -/

/-- Section 3.4: just below 8.0 is legal, 8.0 is not. -/
theorem test_ncoInit :
    (after (ask chain0 .direct 0x3000000040FFFFFF#64 [])).ncoDelta = 0x40C90FDA#32 ∧
    reply chain0 .direct 0x3000000040FFFFFF#64 [] = [⟨.direct, .ok, .none⟩] ∧
    reply chain0 .direct 0x3000000041000000#64 [] = [⟨.direct, .illegal, .none⟩] := by decide +kernel

/-- Section 3.4: the phases p0, p4, p8 and p12 at the chunk boundaries, the last across a wrap. -/
theorem test_ncoGen_phases :
    (after (ask { direct0 with ncoDelta := 0x3F490FDB#32 } .direct
      0x3100000000000000#64 [])).ncoPhase = 0x40490FDB#32 ∧
    (after (ask { direct0 with ncoDelta := 0x3F490FDB#32, ncoPhase := 0x40C90FDA#32 } .direct
      0x3100000000000000#64 [])).ncoPhase = 0x40490FD9#32 := by decide +kernel

/-- Section 3.4, the last row: the guard of R143 gives +0.0. -/
theorem test_wrap_guard :
    nextPhase ⟨0, 0, 0, 0⟩ 0xB2490FDB#32 0#32 = 0#32 ∧
    nextPhase ⟨0, 0, 0, 0⟩ 0xBF490FDB#32 0#32 = 0x40AFEDE0#32 := by decide +kernel

/-! ## Ring buffer -/

/-- P3 step 8: a push around the end of the store. -/
def ring5 : State := { direct0 with
  rbHead := 5, rbTail := 0, rbSize := 3,
  rbBuf := [(5, 0x40C00000#32), (6, 0x40E00000#32), (7, 0x41000000#32)] }

theorem test_rbPush_wraps :
    (after (ask ring5 .direct 0x4000000000000000#64 ramp)).rbTail = 4 ∧
    (after (ask ring5 .direct 0x4000000000000000#64 ramp)).rbSize = 7 ∧
    (after (ask ring5 .direct 0x4000000000000000#64 ramp)).buffered =
      [0x40C00000#32, 0x40E00000#32, 0x41000000#32] ++ ramp := by
  decide +kernel

/-- X9 and P3 step 12: the overflow halts the block and leaves the buffer. -/
theorem test_rbPush_overflow :
    (after (ask { direct0 with rbSize := 5, rbTail := 5 } .direct 0x4000000000000000#64 ramp)).rbSize = 5 ∧
    reply { direct0 with rbSize := 5, rbTail := 5 } .direct 0x4000000000000000#64 ramp =
      [⟨.direct, .rbOverflow, .none⟩] ∧
    statusWord (after (ask { direct0 with rbSize := 5, rbTail := 5 } .direct
      0x4000000000000000#64 ramp)) = 0x00008108#32 := by decide +kernel

/-- P3 step 6 and vector S6. -/
theorem test_rbPop :
    reply ring5 .direct 0x4100000000000000#64 [] = [⟨.direct, .ok, .sample 0x40C00000#32⟩] ∧
    (after (ask ring5 .direct 0x4100000000000000#64 [])).rbHead = 6 ∧
    reply direct0 .direct 0x4100000000000000#64 [] = [⟨.direct, .empty, .none⟩] := by decide +kernel

/-- A CHAIN state whose buffer holds one chunk. -/
def filled : State := { chain0 with
  rbBuf := [(0, 1#32), (1, 2#32), (2, 3#32), (3, 4#32)], rbTail := 4, rbSize := 4 }

/-- B3: three channels, the last frame partial. -/
theorem test_rbFill_replicates :
    reply filled .playback 0x4203000000000004#64 [] =
      [⟨.playback, .ok, .samples [1#32, 1#32, 1#32, 2#32]⟩] ∧
    (after (ask filled .playback 0x4203000000000004#64 [])).rbSize = 2 := by decide +kernel

/-- B8, and B9's hold: no response and the request stays. -/
theorem test_rbFill_empty_channel :
    reply { chain0 with seqState := .stopped } .playback 0x4202000000000002#64 [] =
      [⟨.playback, .channelDisconnect, .none⟩] ∧
    reply chain0 .playback 0x4202000000000002#64 [] = [] ∧
    (after (ask chain0 .playback 0x4202000000000002#64 [])).pending.playback =
      [⟨0x4202000000000002#64, []⟩] := by decide +kernel

/-! ## Commands -/

/-- Section 3.6 at the limits of the ranges. -/
theorem test_cmd_applied :
    (pollStep { chain0 with cmdQ := [0x0100000080000000#64] }).ifSpec = .k3 ∧
    (pollStep { chain0 with cmdQ := [0x010000007FFFFFFF#64] }).ifSpec = .none ∧
    (pollStep { chain0 with cmdQ := [0x02000000FFFFFFFF#64] }).agcSpec = .none ∧
    (pollStep { chain0 with cmdQ := [0x020000007FFFFFFF#64] }).agcSpec = .tc4 ∧
    (pollStep { chain0 with cmdQ := [0x03000000FFFFFFFB#64] }).afSpec = .k3 ∧
    (pollStep { chain0 with cmdQ := [0x030000000000000E#64] }).afSpec = .k11 := by decide +kernel

/-- Section 3.6: the sinks. -/
theorem test_cmd_sinks :
    (pollStep { chain0 with cmdQ := [0x0400000000000005#64] }).sink1Sel = 5#32 ∧
    (pollStep { chain0 with cmdQ := [0x0400000000000005#64] }).sink1En = true ∧
    (pollStep { chain0 with cmdQ := [0x0500000000000000#64], sink2En := true }).sink2En = false := by
  decide +kernel

/-- Section 3.6: acceptance, rejection, MODE and STOPPED at the command port. -/
theorem test_cmd_replies :
    reply chain0 .command 0x0100000000000004#64 [] = [⟨.command, .ok, .none⟩] ∧
    reply chain0 .command 0x0F00000000000001#64 [] = [⟨.command, .rejected, .none⟩] ∧
    reply direct0 .command 0x0600000000000000#64 [] = [⟨.command, .rejected, .none⟩] ∧
    reply direct0 .command 0x0100000000000003#64 [] = [⟨.command, .mode, .none⟩] ∧
    reply { chain0 with cmdClosed := true } .command 0x0100000000000003#64 [] =
      [⟨.command, .stopped, .none⟩] := by decide +kernel

/-- Section 3.7: STATUS after END is accepted, applied, and its last chunk processed. -/
theorem test_cmdEnd_status :
    statusWord (after (ask chain0 .command 0x0F00000000000000#64 [])) = 0x00000020#32 ∧
    statusWord (pollStep { chain0 with cmdClosed := true, cmdQ := [0x0F00000000000000#64] }) =
      0x00000025#32 ∧
    statusWord (waitStep false false { chain0 with
      cmdClosed := true, seqState := .terminating, seqPhase := .wait, ifQ := [square] }) =
      0x00000022#32 := by decide +kernel

/-! ## Capture port and sequencer -/

/-- P2 step 5, X6 and X7. -/
theorem test_ifSend :
    (after (ask chain0 .capture 0x5000000000000000#64 square)).ifQ = [square] ∧
    reply { chain0 with seqState := .stopped } .capture 0x5000000000000001#64 [] =
      [⟨.capture, .illegal, .none⟩] ∧
    reply { chain0 with seqState := .stopped } .capture 0x5000000000000000#64 square =
      [⟨.capture, .stopped, .none⟩] := by decide +kernel

/-- Section 3.7: STATUS after IF.CLOSE, with the sequencer in Wait. -/
theorem test_ifClose :
    statusWord (after (ask { chain0 with seqPhase := .wait } .capture 0x5100000000000000#64 [])) =
      0x00000014#32 := by decide +kernel

/-- P2 step 9, the second iteration of the end-to-end example. -/
theorem test_chain_iteration :
    (after (seqTurn { chain0 with
      seqPhase := .wait, ifSpec := .k3, ifHist := [0xBF800000#32, 0#32], agcSpec := .tc0,
      ifQ := [square] } false false)).afQ =
      [[0x3F19999A#32, 0x3F19999A#32, 0x3F19999A#32, 0x3F19999A#32]] := by decide +kernel

/-- X8. -/
theorem test_wait_disconnect :
    (waitStep false false { chain0 with seqPhase := .wait, capClosed := true }).fatal = true ∧
    (waitStep false false { chain0 with seqPhase := .wait, capClosed := true }).cause = 10#4 := by
  decide +kernel

/-- Section 3.9. -/
def telemetryState : State := { chain0 with
  seqPhase := .wait, ifQ := [square],
  sink1Sel := 5#32, sink1En := true, sink2Sel := 7#32, sink2En := true }

theorem test_telemetry :
    (waitStep true false telemetryState).events = [.sink1 5#32 0x3F000000#32, .sink2 7#32 square] ∧
    statusWord telemetryState = 0x00030004#32 ∧
    statusWord (waitStep true false telemetryState) = 0x00020000#32 ∧
    Event.bytes (.sink1 5#32 0x3F000000#32) = [0#8, 0#8, 0#8, 0x3F#8] := by decide +kernel

/-! ## Registers -/

/-- Section 3.7, in CHAIN mode after reset. -/
theorem test_csrRead :
    reply chain0 .direct 0x6000000000000000#64 [] = [⟨.direct, .ok, .value 0x54485344#32⟩] ∧
    reply chain0 .direct 0x6000000000000013#64 [] = [⟨.direct, .ok, .value 8#32⟩] ∧
    reply chain0 .direct 0x6000000000002000#64 [] = [⟨.direct, .ok, .value 0#32⟩] ∧
    reply chain0 .direct 0x6000000000001001#64 [] = [⟨.direct, .illegal, .none⟩] ∧
    reply chain0 .direct 0x6000000000000019#64 [] = [⟨.direct, .illegal, .none⟩] := by decide +kernel

/-- X1 and X2. -/
theorem test_halted_replies :
    reply halted0 .direct 0x4100000000000000#64 [] = [⟨.direct, .halted, .none⟩] ∧
    reply halted0 .direct 0x7000000000000000#64 [] = [⟨.direct, .halted, .none⟩] ∧
    reply halted0 .direct 0x6000000000000002#64 [] =
      [⟨.direct, .ok, .value 0x00008108#32⟩] := by decide +kernel

/-- R221 and R238: a CSR.READ word that breaks a field rule answers ILLEGAL, halted or not; a word of
another port is HALTED while the block is. -/
theorem test_halted_illegal_register_word :
    reply halted0 .direct 0x6001000000000002#64 [] = [⟨.direct, .illegal, .none⟩] ∧
    reply halted0 .direct 0x6000000100000002#64 [] = [⟨.direct, .illegal, .none⟩] ∧
    reply halted0 .direct 0x6000000000010000#64 [] = [⟨.direct, .illegal, .none⟩] ∧
    reply halted0 .direct 0x0100000000000003#64 [] = [⟨.direct, .halted, .none⟩] := by decide +kernel

/-- R74, R76: a chunk word of another port arrives bare and is refused there; on its own port it needs its
chunk (R79). -/
theorem test_arrive_bare_word_of_another_port :
    (after { chain0 with script := [.arrive .direct ⟨0x5000000000000000#64, []⟩] }).pending.direct =
      [⟨0x5000000000000000#64, []⟩] ∧
    reply chain0 .direct 0x5000000000000000#64 [] = [⟨.direct, .illegal, .none⟩] ∧
    (after { chain0 with script := [.arrive .command ⟨0x2100000000000000#64, []⟩] }).pending.command =
      [⟨0x2100000000000000#64, []⟩] ∧
    reply chain0 .command 0x2100000000000000#64 [] = [⟨.command, .rejected, .none⟩] ∧
    (after { chain0 with script := [.arrive .capture ⟨0x5000000000000000#64, []⟩] }).pending.capture =
      [] := by decide +kernel

/-- X10. -/
theorem test_reset_input :
    (after { halted0 with rssi := 7#32, rbSize := 3, script := [.reset] }).fatal = false ∧
    (after { halted0 with rssi := 7#32, rbSize := 3, script := [.reset] }).rssi = 0#32 ∧
    (after { halted0 with rssi := 7#32, rbSize := 3, script := [.reset] }).rbSize = 0 := by
  decide +kernel

/-- The word placed for the host is the one the very next step runs. -/
theorem test_withFetchWord :
    (after (direct0.withFetchWord 64 0x6000000000000001)).responses =
      [⟨.direct, .ok, .value 4#32⟩] := by decide +kernel

/-! ## Arithmetic -/

/-- Ties to even, subnormals and overflow (R10, R11), from the format by hand: 2^24 + 1 and 2^24 + 3 in
units of the last place of 1.0, the smallest subnormal halved and its triple halved. -/
theorem test_rounding :
    fadd ⟨0, 0, 0, 0⟩ 0x4B800000#32 0x3F800000#32 = 0x4B800000#32 ∧
    fadd ⟨0, 0, 0, 0⟩ 0x4B800001#32 0x3F800000#32 = 0x4B800002#32 ∧
    fmul ⟨0, 0, 0, 0⟩ 0x00000001#32 0x3F000000#32 = 0x00000000#32 ∧
    fmul ⟨0, 0, 0, 0⟩ 0x00000003#32 0x3F000000#32 = 0x00000002#32 ∧
    fdiv ⟨0, 0, 0, 0⟩ 0xBF800000#32 0x00000000#32 = 0xFF800000#32 ∧
    fadd ⟨0, 0, 0, 0⟩ 0x80000000#32 0x80000000#32 = 0x80000000#32 := by decide +kernel

/-- Infinite operands, signs and the zero divisor, from IEEE 754 by hand (log entry 20). -/
theorem test_infinities_and_signs :
    fsub ⟨0, 0, 0, 0⟩ 0x3F800000#32 0x3F800000#32 = 0x00000000#32 ∧
    fsub ⟨0, 0, 0, 0⟩ 0x3F800000#32 0x7F800000#32 = 0xFF800000#32 ∧
    fmul ⟨0, 0, 0, 0⟩ 0xFF800000#32 0xBF800000#32 = 0x7F800000#32 ∧
    fmul ⟨0, 0, 0, 0⟩ 0x80000001#32 0x00000001#32 = 0x80000000#32 ∧
    fdiv ⟨0, 0, 0, 0⟩ 0x3F800000#32 0xFF800000#32 = 0x80000000#32 ∧
    fdiv ⟨0, 0, 0, 0⟩ 0xFF800000#32 0x00000000#32 = 0xFF800000#32 := by decide +kernel

/-- R126: what a table that sums to 1 is, at the tables of EX, one ulp off 1, and two. -/
theorem test_taps_sum :
    (EX .chain).agcTab3.sumsToOne = true ∧
    (⟨0#32, 0#32, 0x3F800001#32⟩ : Taps).sumsToOne = true ∧
    (⟨0#32, 0#32, 0x3F800002#32⟩ : Taps).sumsToOne = false ∧
    (⟨0x3EAAAAAB#32, 0x3EAAAAAB#32, 0x3EAAAAAB#32⟩ : Taps).sumsToOne = true ∧
    (⟨0x7F800000#32, 0xFF800000#32, 0x3F800000#32⟩ : Taps).sumsToOne = false := by decide +kernel

/-! ## Text forms (section 3.6) -/

theorem test_text_lines :
    wordOfLine (fun _ => 9#32) "AGC -1".toList = some 0x02000000FFFFFFFF#64 ∧
    wordOfLine (fun _ => 9#32) "RSSI None".toList = some 0x0400000000000000#64 ∧
    wordOfLine (fun _ => 9#32) "END".toList = some 0x0F00000000000000#64 ∧
    wordOfLine (fun _ => 9#32) "FOO 1".toList = none ∧
    wordOfLine (fun _ => 9#32) "AM x".toList = none ∧
    wordOfLine (fun _ => 9#32) "AM 2147483648".toList = none ∧
    wordOfLine (fun _ => 9#32) "am 3".toList = none := by decide +kernel

/-- R82: both ends of the range, a name, and the lines with no name. -/
theorem test_text_lines_accepted :
    wordOfLine (fun _ => 9#32) "AM -2147483648".toList = some 0x0100000080000000#64 ∧
    wordOfLine (fun _ => 9#32) "AM -2147483649".toList = none ∧
    wordOfLine (fun _ => 9#32) "AF 2147483647".toList = some 0x030000007FFFFFFF#64 ∧
    wordOfLine (fun _ => 9#32) "IFOUT scope".toList = some 0x0500000000000009#64 ∧
    wordOfLine (fun _ => 9#32) "RSSI ".toList = some 0x0400000000000000#64 := by decide +kernel

theorem test_assembler_lines :
    assembleLine 4 "RB.FILL 8, 2".toList = some ⟨0x4202000000000008#64, []⟩ ∧
    assembleLine 4 "CSR.READ AGC_HIST2".toList = some ⟨0x600000000000000B#64, []⟩ ∧
    assembleLine 4 "NCO.INIT 1.0".toList = some ⟨0x300000003F800000#64, []⟩ := by decide +kernel

/-! ## Witnesses: for every statement with hypotheses, values that meet all of them together

Where a statement has several clauses, each clause has its own values, at the ends of its range. -/

/-- The site of a draw, where the values below need one. -/
def site0 : DrawSite := ⟨0, 0, 0, 0⟩

/-- A chunk request in DIRECT mode, a second request behind it. -/
def runHalves : State := { direct0 with
  pending := ⟨[], [], [], [⟨0#64, halves⟩, ⟨0#64, square⟩]⟩ }

/-- Requests on the command, capture and playback ports in CHAIN mode. -/
def chainAsked : State := { chain0 with
  pending := ⟨[⟨0x0100000000000003#64, []⟩], [⟨0x5000000000000000#64, square⟩],
    [⟨0x4202000000000002#64, []⟩], []⟩ }

theorem witness_DecodeOfEncodedOperation :
    (Instr.rbFill 255#8 0xFFFFFFFF#32).wf = true ∧ (Instr.rbFill 1#8 0#32).wf = true ∧
    (Instr.csrRead 0xFFFF#16).wf = true := by decide

theorem witness_EncodeOfDecodedWord :
    decodeWord 0x42FF0000FFFFFFFF#64 = .ok (.rbFill 255#8 0xFFFFFFFF#32) ∧
    decodeWord 0x1000000000000003#64 = .ok (.firSelIf .none) := by decide +kernel

theorem witness_DecoderAcceptsExactlyTheTable :
    ((∃ row ∈ opTable, 0x2000000000000005#64 &&& row.mask = row.pattern) ∧
      decodeWord 0x2000000000000005#64 = .ok (.agcSel .none)) ∧
    ((∃ row ∈ opTable, 0x2000000000000006#64 &&& row.mask = row.pattern) ∧
      decodeWord 0x2000000000000006#64 = .error .illegalCode) := by decide +kernel

theorem witness_BytesAreLittleEndian :
    (bytesOfWord 0x0123456789ABCDEF#64)[0]? = some 0xEF#8 ∧
    (bytesOfWord 0x0123456789ABCDEF#64)[7]? = some 0x01#8 ∧
    (bytesOfValue 0x3F000000#32)[3]? = some 0x3F#8 ∧ square[3]? = some 0#32 ∧
    (Event.sink2 7#32 square).bytes[4 * 2 + 3]? = some 0xBF#8 := by decide +kernel

/-- A turn, an arrival that can be formed, and two that cannot. -/
theorem witness_StepRunsDecodedRequest :
    let s := ask direct0 .direct 0x2800000000000000#64 halves
    let q : Request := ⟨0x2800000000000000#64, halves⟩
    let q' : Request := ⟨0x2800000000000000#64, []⟩
    let f : Request := ⟨0x3100000000000000#64, halves⟩
    (nextInput s = .port .direct ∧ s.waiting .direct = [q] ∧
      decodeWord 0x2800000000000000#64 = .ok .envRun ∧ Instr.envRun.port = .direct) ∧
    (nextInput { s with script := [.arrive .direct q] } = .arrive .direct q ∧
      q.formed s.cfg.n .direct = true) ∧
    (nextInput { s with script := [.arrive .direct q'] } = .arrive .direct q' ∧
      q'.formed s.cfg.n .direct = false) ∧
    f.formed s.cfg.n .direct = false := by decide +kernel

/-- The word of another port on the command port, a reserved word and a CSR.READ word with SUB ≠ 0 on a
halted block, and the arrivals. -/
theorem witness_IllegalWordAnswer :
    let s := ask chain0 .command 0x5100000000000000#64 []
    let h := ask halted0 .direct 0x7000000000000000#64 []
    (nextInput s = .port .command ∧ s.waiting .command = [⟨0x5100000000000000#64, []⟩] ∧
      ∀ i, decodeWord 0x5100000000000000#64 = .ok i → i.port ≠ .command) ∧
    (nextInput h = .port .direct ∧ h.waiting .direct = [⟨0x7000000000000000#64, []⟩] ∧
      ∀ i, decodeWord 0x7000000000000000#64 = .ok i → i.port ≠ .direct) ∧
    (opField 0x6001000000000000#64 = 0x60#8 ∧
      ∀ i, decodeWord 0x6001000000000000#64 = .ok i → i.port ≠ .direct) ∧
    (nextInput { chain0 with script := [.arrive .command ⟨0x5100000000000000#64, square⟩] } =
      .arrive .command ⟨0x5100000000000000#64, square⟩ ∧ square.length = chain0.cfg.n) := by
  have h1 : decodeWord 0x5100000000000000#64 = .ok .ifClose := by decide +kernel
  have h2 : decodeWord 0x7000000000000000#64 = .error .reservedOp := by decide +kernel
  have h3 : decodeWord 0x6001000000000000#64 = .error .subNotZero := by decide +kernel
  refine ⟨⟨by decide +kernel, by decide +kernel, fun i hi => ?_⟩,
    ⟨by decide +kernel, by decide +kernel, fun i hi => ?_⟩,
    ⟨by decide +kernel, fun i hi => by rw [h3] at hi; cases hi⟩, by decide +kernel⟩
  · rw [h1] at hi
    cases hi
    decide
  · rw [h2] at hi
    cases hi

theorem witness_HaltedBlockAnswersHalted :
    let s := ask halted0 .direct 0x4100000000000000#64 []
    s.fatal = true ∧ s.waiting .direct = [⟨0x4100000000000000#64, []⟩] ∧
    readRegister s 0x0018#16 = some 0#32 ∧ readRegister s 0x0019#16 = none := by decide +kernel

theorem witness_HaltedBlockAnswersHalted_other :
    ∀ a, Instr.rbPop ≠ .csrRead a := by intro a h; cases h

/-- Refused in DIRECT, refused in CHAIN, and admitted in CHAIN. -/
theorem witness_ModeRefusal :
    let d := { chainAsked with mode := .direct }
    let c := ask chain0 .direct 0x4100000000000000#64 []
    (d.fatal = false ∧ (Instr.rbFill 2#8 2#32).wf = true ∧
      d.waiting .playback = [⟨0x4202000000000002#64, []⟩] ∧ d.mode = .direct ∧
      (Instr.rbFill 2#8 2#32).port ≠ .direct) ∧
    (c.fatal = false ∧ c.waiting .direct = [⟨0x4100000000000000#64, []⟩] ∧ c.mode = .chain ∧
      Instr.rbPop.port = .direct) ∧
    (∃ t, exec .ncoGen c = .next t) := by
  refine ⟨by decide +kernel, by decide +kernel, ⟨_, rfl⟩⟩

/-- Both causes of STOPPED, on both ports. -/
theorem witness_StoppedRefusal :
    let a := { chainAsked with cmdClosed := true, capClosed := true }
    let b := { chainAsked with seqState := .stopped }
    (Instr.cmdAm 3#32).port = .command ∧
    (a.fatal = false ∧ a.mode = .chain ∧ a.waiting .command = [⟨0x0100000000000003#64, []⟩] ∧
      a.cmdClosed = true ∧ a.waiting .capture = [⟨0x5000000000000000#64, square⟩] ∧
      a.capClosed = true) ∧
    (b.fatal = false ∧ b.mode = .chain ∧ b.cmdClosed = false ∧ b.capClosed = false ∧
      b.seqState = .stopped) := by decide +kernel

/-- The hypotheses of every statement about a direct-port operation in DIRECT mode. -/
theorem witness_FirSelectionIsFresh :
    runHalves.fatal = false ∧ runHalves.mode = .direct ∧
    runHalves.waiting .direct = [⟨0#64, halves⟩, ⟨0#64, square⟩] := by decide +kernel

/-- IF with two taps, AF with one, the least a table has. -/
theorem witness_FirRunConvolves :
    let s := { runHalves with ifSpec := .k3, ifHist := [0#32, 0x3F800000#32] }
    s.fatal = false ∧ s.mode = .direct ∧
    s.waiting .direct = [⟨0#64, halves⟩, ⟨0#64, square⟩] ∧
    s.ifSpec ≠ .none ∧ s.ifHist.length = (s.cfg.ifRom s.ifSpec).length ∧ 1 ≤ s.ifHist.length ∧
    s.afHist.length = (s.cfg.afRom s.afSpec).length ∧ s.afHist.length = 1 := by decide +kernel

theorem witness_IfNoneIsIdentity :
    (runHalves.fatal = false ∧ runHalves.mode = .direct ∧
      runHalves.waiting .direct = [⟨0#64, halves⟩, ⟨0#64, square⟩] ∧ runHalves.ifSpec = .none ∧
      halves.getLast? = some 0xBF000000#32) ∧
    isNan 0x7F800000#32 = false ∧ isNan 0x00000001#32 = false ∧
    halves.all (fun u => !isNan u) = true := by decide +kernel

theorem witness_DotIsLeftToRightSum :
    ([] : List F32).length = ([] : List F32).length ∧ halves.length = square.length := by decide

theorem witness_AgcSelectionIsFresh :
    runHalves.fatal = false ∧ runHalves.mode = .direct ∧
    runHalves.waiting .direct = [⟨0#64, halves⟩, ⟨0#64, square⟩] := by decide +kernel

/-- Both branches: TC0 is above the floor, None is not. -/
theorem witness_AgcRunNormalizes :
    let inst := meanAbs site0 4 halves
    runHalves.fatal = false ∧ runHalves.mode = .direct ∧
    runHalves.waiting .direct = [⟨0#64, halves⟩, ⟨0#64, square⟩] ∧
    fgt (dot site0 [0#32, 0#32, inst] [0#32, 0#32, 0x3F800000#32]) 0x3C23D70A#32 = true ∧
    fgt (dot site0 [0#32, 0#32, inst] [0#32, 0#32, 0#32]) 0x3C23D70A#32 = false ∧
    halves[3]? = some 0xBF000000#32 := by decide +kernel

theorem witness_AgcNonePassesUnscaled :
    runHalves.fatal = false ∧ runHalves.mode = .direct ∧
    runHalves.waiting .direct = [⟨0#64, halves⟩, ⟨0#64, square⟩] ∧
    runHalves.agcSpec = .none := by decide +kernel

/-- The exact values of 0.5, −0.5 and 0.25. -/
theorem halves_values :
    ratValue 0x3F000000#32 = 1 / 2 ∧ ratValue 0xBF000000#32 = -1 / 2 ∧
    ratValue 0x3E800000#32 = 1 / 4 := by
  have h1 : signedValue 0x3F000000#32 = 2 ^ 148 := by decide +kernel
  have h2 : signedValue 0xBF000000#32 = -2 ^ 148 := by decide +kernel
  have h3 : signedValue 0x3E800000#32 = 2 ^ 147 := by decide +kernel
  simp only [ratValue, h1, h2, h3]
  norm_num

/-- A4: zeros of both signs after loud chunks, the bound of the last clause met; and zero levels. -/
theorem witness_AgcZeroChunkUnchanged :
    let x : Chunk := [0#32, 0x80000000#32, 0#32, 0#32]
    let s : State := { direct0 with
      agcSpec := .tc2, agcHist := ⟨0x3F000000#32, 0x3F000000#32, 0x3F000000#32⟩,
      pending := ⟨[], [], [], [⟨0x2100000000000000#64, x⟩]⟩ }
    let a := s.cfg.agcRom s.agcSpec
    (s.fatal = false ∧ s.mode = .direct ∧ s.waiting .direct = [⟨0x2100000000000000#64, x⟩] ∧
      1 ≤ s.cfg.n) ∧
    (∀ v ∈ x, v = 0#32 ∨ v = 0x80000000#32) ∧
    (isFinite s.agcHist.t1 = true ∧ isFinite s.agcHist.t2 = true ∧ isFinite a.t0 = true ∧
      isFinite a.t1 = true) ∧
    |ratValue s.agcHist.t1 * ratValue a.t0| + |ratValue s.agcHist.t2 * ratValue a.t1| ≤ 2 ^ 126 ∧
    (isZero direct0.agcHist.t1 = true ∧ isZero direct0.agcHist.t2 = true) := by
  refine ⟨by decide +kernel, by simp, by decide +kernel, ?_, by decide +kernel⟩
  show |ratValue 0x3F000000#32 * ratValue 0x3E800000#32| +
    |ratValue 0x3F000000#32 * ratValue 0x3E800000#32| ≤ 2 ^ 126
  rw [halves_values.1, halves_values.2.2]
  norm_num

/-- Four halves of either sign, TC2, whose taps' magnitudes sum to 1. -/
theorem witness_AgcHistorySettlesInThreeChunks :
    let s : State := { direct0 with agcSpec := .tc2 }
    let a := s.cfg.agcRom s.agcSpec
    (s.fatal = false ∧ s.cfg.wf = true ∧ halves ≠ [] ∧ halves.all (fun u => !isNan u) = true ∧
      s.cfg.n ≤ 2 ^ 16 ∧ halves.length = s.cfg.n ∧ s.agcSpec ≠ .none) ∧
    (∀ v ∈ halves, isFinite v = true ∧ |ratValue v| = 1 / 2) ∧
    (11 / 1000 : Rat) ≤ 1 / 2 ∧ (1 / 2 : Rat) ≤ 2 ^ 100 ∧
    |ratValue a.t0| + |ratValue a.t1| + |ratValue a.t2| ≤ 2 ^ 10 := by
  refine ⟨by decide +kernel, ?_, by norm_num, by norm_num, ?_⟩
  · intro v hv
    have h : v = 0x3F000000#32 ∨ v = 0xBF000000#32 := by
      simp only [halves, List.mem_cons, List.not_mem_nil, or_false] at hv
      tauto
    rcases h with rfl | rfl
    · exact ⟨by decide +kernel, by rw [halves_values.1]; norm_num⟩
    · exact ⟨by decide +kernel, by rw [halves_values.2.1]; norm_num⟩
  · show |ratValue 0x3E800000#32| + |ratValue 0x3E800000#32| + |ratValue 0x3F000000#32| ≤ 2 ^ 10
    rw [halves_values.1, halves_values.2.2]
    norm_num

theorem witness_MeanAbsIsMeanOfAbsoluteValues :
    natValue (2 ^ 24) = 0x4B800000#32 ∧ natValue 0 = 0#32 := by decide +kernel

theorem witness_EnvRunDetectsEnvelope :
    runHalves.fatal = false ∧ runHalves.waiting .direct = [⟨0#64, halves⟩, ⟨0#64, square⟩] ∧
    halves[0]? = some 0x3F000000#32 := by decide +kernel

/-- Legal and illegal increments next to TWO_PI, with FS = 8.0. -/
theorem witness_NcoInitConstructs :
    let a := fdiv site0 (fmul site0 0x40C90FDB#32 0x40FFFFFF#32) 0x41000000#32
    let b := fdiv site0 (fmul site0 0x40C90FDB#32 0x41000000#32) 0x41000000#32
    runHalves.fatal = false ∧ runHalves.waiting .direct = [⟨0#64, halves⟩, ⟨0#64, square⟩] ∧
    runHalves.cfg.fs = 0x41000000#32 ∧
    (isFinite a = true ∧ fgt 0x40C90FDB#32 (fabs a) = true) ∧
    ¬ (isFinite b = true ∧ fgt 0x40C90FDB#32 (fabs b) = true) := by decide +kernel

theorem witness_NcoGenFollowsPhase :
    runHalves.fatal = false ∧ runHalves.waiting .direct = [⟨0#64, halves⟩, ⟨0#64, square⟩] ∧
    runHalves.cfg.n = 4 := by decide +kernel

/-- The ends of the phase range and increments of either sign next to the bound. -/
theorem witness_WrapKeepsPhaseInRange :
    PhaseInRange 0#32 ∧ PhaseInRange 0x40C90FDA#32 ∧ ncoLegal 0x40C90FDA#32 = true ∧
    ncoLegal 0xC0C90FDA#32 = true ∧ ncoLegal 0x80000000#32 = true := by decide +kernel

theorem witness_NcoChunksAreContinuous :
    PhaseInRange 0x40490FDB#32 ∧ ncoLegal 0xBF490FDB#32 = true := by decide +kernel

/-- The chunk that just fits, the one that just does not, and the slots it is written to. -/
theorem witness_RbPushStoresChunk :
    let s := { runHalves with rbSize := 4, rbHead := 6, rbTail := 2 }
    let t := { runHalves with rbSize := 5, rbHead := 6, rbTail := 3 }
    (s.fatal = false ∧ s.mode = .direct ∧ s.waiting .direct = [⟨0#64, halves⟩, ⟨0#64, square⟩] ∧
      halves.length = s.cfg.n ∧ 1 ≤ s.cfg.n ∧ s.rbSize + s.cfg.n ≤ s.cfg.cap ∧
      halves[3]? = some 0xBF000000#32 ∧ ∀ j < s.cfg.n, 6 ≠ (s.rbTail + j) % s.cfg.cap) ∧
    (t.fatal = false ∧ t.mode = .direct ∧ t.waiting .direct = [⟨0#64, halves⟩, ⟨0#64, square⟩] ∧
      t.cfg.cap < t.rbSize + t.cfg.n) := by decide +kernel

theorem witness_RbPopRemovesOldest :
    runHalves.fatal = false ∧ runHalves.mode = .direct ∧
    runHalves.waiting .direct = [⟨0#64, halves⟩, ⟨0#64, square⟩] ∧ runHalves.rbSize = 0 ∧
    ring5.fatal = false ∧ ring5.rbSize ≠ 0 := by decide +kernel

theorem witness_RingBufferIsFifo :
    (RingInv ring5 ∧ ramp.length = ring5.cfg.n ∧ 1 ≤ ring5.cfg.n ∧
      (rbPushChunk ramp ring5).isSome = true) ∧
    (rbPopSample ring5).isSome = true := by decide +kernel

/-- The least and the most that the coverage admits. -/
theorem witness_RbFillReplicates :
    let s := { filled with pending := ⟨[], [], [⟨0x4202000000000008#64, []⟩], []⟩ }
    s.fatal = false ∧ s.mode = .chain ∧ s.waiting .playback = [⟨0x4202000000000008#64, []⟩] ∧
    (2#8 : BitVec 8) ≠ 0#8 ∧ (8#32).toNat ≤ s.rbSize * (2#8).toNat ∧ s.rbHead < s.cfg.cap ∧
    (0#32).toNat ≤ s.rbSize * (2#8).toNat := by decide +kernel

/-- The four clauses: room, no room, an empty channel held, an empty channel of a stopped sequencer. -/
theorem witness_RbFillTopsUp :
    let a := { chainAsked with afQ := [square] }
    let b := { chainAsked with
      rbBuf := writeSlots 8 [] 0 (ramp ++ halves), rbSize := 8, afQ := [square] }
    let c := chainAsked
    let d := { chainAsked with seqState := .stopped }
    (a.fatal = false ∧ a.mode = .chain ∧ a.waiting .playback = [⟨0x4202000000000002#64, []⟩] ∧
      a.rbSize * (2#8).toNat < (2#32).toNat ∧ RingInv a ∧ 1 ≤ a.cfg.n ∧
      square.length = a.cfg.n ∧ a.rbSize + a.cfg.n ≤ a.cfg.cap) ∧
    (b.fatal = false ∧ b.mode = .chain ∧ b.waiting .playback = [⟨0x4202000000000002#64, []⟩] ∧
      b.rbSize * (1#8).toNat < (9#32).toNat ∧ RingInv b ∧ b.cfg.cap < b.rbSize + b.cfg.n) ∧
    (c.afQ = [] ∧ c.seqState ≠ .stopped ∧ RingInv c) ∧
    (d.afQ = [] ∧ d.seqState = .stopped ∧ RingInv d) := by decide +kernel

theorem witness_RbFillNeedsChannels :
    chainAsked.fatal = false ∧ chainAsked.waiting .playback = [⟨0x4202000000000002#64, []⟩] := by
  decide +kernel

/-! ### States that meet the invariant of the machine -/

/-- A chunk in the AF channel, RB.FILL 8, 2 waiting and the playback port's next two turns. -/
def fillReady : State := { chain0 with
  afQ := [square], pending := ⟨[], [], [⟨0x4202000000000008#64, []⟩], []⟩,
  script := [.port .playback, .port .playback] }

theorem inv_fillReady : fillReady.Inv :=
  ⟨by decide +kernel, by decide +kernel, by decide +kernel, by decide +kernel,
    ⟨fun w h => (List.not_mem_nil h).elim, by decide +kernel, by decide +kernel⟩,
    by decide +kernel, by decide +kernel, by decide +kernel, by decide +kernel, by decide +kernel⟩

/-- A halted block in DIRECT mode with data in the ring buffer around the end of the store, an
oscillator running, and a request waiting. -/
def busy : State := { ring5 with
  ncoFreq := 0x3F800000#32, ncoDelta := 0x3F490FDB#32, ncoPhase := 0x40C90FDA#32,
  fatal := true, cause := 8#4, pending := ⟨[], [], [], [⟨0x4000000000000000#64, ramp⟩]⟩,
  script := [.port .direct] }

theorem inv_busy : busy.Inv :=
  ⟨by decide +kernel, by decide +kernel, by decide +kernel, by decide +kernel,
    ⟨fun w h => (List.not_mem_nil h).elim, by decide +kernel, by decide +kernel⟩,
    by decide +kernel, by decide +kernel, by decide +kernel, by decide +kernel, by decide +kernel⟩

/-- Terminating, with the last chunk in the IF channel and the sequencer's turn next. -/
def ending : State := { chain0 with
  cmdClosed := true, seqState := .terminating, seqPhase := .wait, ifQ := [square],
  sink1Sel := 5#32, sink1En := true, script := [.sequencer false false] }

theorem inv_ending : ending.Inv :=
  ⟨by decide +kernel, by decide +kernel, by decide +kernel, by decide +kernel,
    ⟨fun w h => (List.not_mem_nil h).elim, by decide +kernel, by decide +kernel⟩,
    by decide +kernel, by decide +kernel, by decide +kernel, by decide +kernel, by decide +kernel⟩

/-- L = 8 and C = 2: four frames, all that one chunk gives. -/
theorem witness_RbFillCompletesInTwoTurns :
    fillReady.Inv ∧ fillReady.fatal = false ∧ fillReady.mode = .chain ∧ (2#8 : BitVec 8) ≠ 0#8 ∧
    framesOf (8#32).toNat (2#8).toNat ≤ fillReady.cfg.n ∧
    fillReady.waiting .playback = [⟨encodeWord (.rbFill 2#8 8#32), []⟩] ∧
    fillReady.afQ = [square] ∧ fillReady.script = [.port .playback, .port .playback] := by
  refine ⟨inv_fillReady, ?_⟩
  decide +kernel

theorem witness_UnderflowIsUnreachable :
    (∃ t, fillReady.Inv ∧ step fillReady = .next t) ∧ (∃ t, busy.Inv ∧ step busy = .next t) :=
  ⟨⟨_, inv_fillReady, rfl⟩, ⟨_, inv_busy, rfl⟩⟩

theorem witness_CommandIsQueued :
    (Instr.cmdAm 3#32).port = .command ∧ Instr.cmdEnd.port = .command ∧
    chainAsked.fatal = false ∧ chainAsked.mode = .chain ∧ chainAsked.cmdClosed = false ∧
    chainAsked.seqState ≠ .stopped ∧
    chainAsked.waiting .command = [⟨0x0100000000000003#64, []⟩] := by decide +kernel

/-- Each clause at the ends of its range; a value is in one clause of each selector only. -/
theorem witness_SelectorDecoding :
    decodeAm 4 = .k3 ∧ decodeAm 5 = .k6 ∧ decodeAm 8 = .k6 ∧ decodeAm 9 = .k11 ∧
    decodeAm 13 = .k11 ∧ decodeAm 14 = .none ∧ decodeAf 4 = .k3 ∧ decodeAf 5 = .k6 ∧
    decodeAf 8 = .k6 ∧ decodeAf 9 = .k11 ∧ decodeAgc (-1) = .none ∧ decodeAgc 0 = .tc0 ∧
    decodeAgc 3 = .tc3 ∧ decodeAgc 4 = .tc4 := by decide

theorem witness_CapturePortOperations :
    chainAsked.fatal = false ∧ chainAsked.mode = .chain ∧
    chainAsked.waiting .capture = [⟨0x5000000000000000#64, square⟩] ∧
    chainAsked.capClosed = false ∧ chainAsked.seqState ≠ .stopped := by decide +kernel

theorem witness_SequencerStepsOnlyWhenEnabled :
    let a := seqTurn halted0 false false
    let b := seqTurn chain0 false false
    let c := seqTurn { chain0 with seqPhase := .wait } true true
    (nextInput a = .sequencer false false ∧
      ¬ (a.fatal = false ∧ a.mode = .chain ∧ a.seqState ≠ .stopped)) ∧
    (nextInput b = .sequencer false false ∧ b.fatal = false ∧ b.mode = .chain ∧
      b.seqState ≠ .stopped ∧ b.seqPhase = .poll) ∧
    (nextInput c = .sequencer true true ∧ c.fatal = false ∧ c.mode = .chain ∧
      c.seqState ≠ .stopped ∧ c.seqPhase = .wait) := by decide +kernel

theorem witness_PollAppliesOneCommand :
    chain0.cmdQ = [] ∧
    ({ chain0 with cmdQ := [0x0F00000000000000#64] } : State).cmdQ = [encodeWord .cmdEnd] ∧
    ({ chain0 with cmdQ := [0x0100000000000003#64] } : State).cmdQ = [encodeWord (.cmdAm 3#32)] ∧
    ({ chain0 with cmdQ := [0x0400000000000000#64] } : State).cmdQ = [encodeWord (.cmdRssi 0#32)] := by
  decide +kernel

theorem witness_ChainEqualsUnitsInTurn :
    let s := seqTurn telemetryState true false
    s.fatal = false ∧ s.mode = .chain ∧ s.seqState ≠ .stopped ∧ s.seqPhase = .wait ∧
    s.ifQ = [square] ∧ nextInput s = .sequencer true false := by decide +kernel

theorem witness_WaitStepOutcomes :
    (chain0.ifQ = [] ∧ chain0.capClosed = false) ∧
    (({ chain0 with capClosed := true } : State).ifQ = [] ∧
      ({ chain0 with capClosed := true } : State).capClosed = true) ∧
    (ending.ifQ = [square] ∧ ending.seqState = .terminating) ∧
    (telemetryState.ifQ = [square] ∧ telemetryState.seqState = .running) := by decide +kernel

theorem witness_TelemetryEventsAndFailures :
    telemetryState.ifQ = [square] ∧ telemetryState.sink1En = true ∧ telemetryState.sink2En = true := by
  decide +kernel

/-- Two states that agree on what the chain reads and differ in their sinks and ring buffer. -/
theorem witness_ChainOutputIsDetermined :
    let s := telemetryState
    let t : State := { chain0 with seqPhase := .wait, ifQ := [square], rbSize := 4, rbTail := 4 }
    s.ifQ = [square] ∧ t.ifQ = [square] ∧ s.cfg = t.cfg ∧ s.tick = t.tick ∧
    s.ifSpec = t.ifSpec ∧ s.ifHist = t.ifHist ∧ s.afSpec = t.afSpec ∧ s.afHist = t.afHist ∧
    s.agcSpec = t.agcSpec ∧ s.agcHist = t.agcHist ∧ s.sink1En ≠ t.sink1En := by decide +kernel

theorem witness_CsrReadFixedRegisters :
    runHalves.waiting .direct = [⟨0#64, halves⟩, ⟨0#64, square⟩] ∧
    ((0x0018#16, 0#32) : BitVec 16 × BitVec 32) ∈
      [(0x0018#16, BitVec.ofNat 32 (min runHalves.afQ.length (2 ^ 32 - 1)))] := by decide +kernel

/-- The last entry of a window, and the first address after it, after the fixed registers. -/
theorem witness_CsrReadHistoriesAndHoles :
    let s := { runHalves with ifSpec := .k6, ifHist := [1#32, 2#32, 3#32] }
    s.waiting .direct = [⟨0#64, halves⟩, ⟨0#64, square⟩] ∧ HistoryInv s ∧
    1 ≤ s.ifHist.length ∧ s.ifHist.length ≤ 4096 ∧ 1 ≤ s.afHist.length ∧ s.afHist.length ≤ 4096 ∧
    ((0x1002#16).toNat = 0x1000 + 2 ∧ s.ifHist[2]? = some 3#32) ∧
    ((0x2000#16).toNat = 0x2000 + 0 ∧ s.afHist[0]? = some 0#32) ∧
    (0x0018 < (0x1003#16).toNat ∧ (∀ i < s.ifHist.length, (0x1003#16).toNat ≠ 0x1000 + i) ∧
      (∀ i < s.afHist.length, (0x1003#16).toNat ≠ 0x2000 + i)) ∧
    (0x0018 < (0x0019#16).toNat ∧ (∀ i < s.ifHist.length, (0x0019#16).toNat ≠ 0x1000 + i) ∧
      (∀ i < s.afHist.length, (0x0019#16).toNat ≠ 0x2000 + i)) := by decide +kernel

theorem witness_ResetInputResets : nextInput { halted0 with script := [.reset] } = .reset := by
  decide +kernel

theorem witness_HaltLastsUntilReset :
    busy.fatal = true ∧ nextInput busy ≠ .reset ∧ (∃ t, step busy = .next t) :=
  ⟨by decide +kernel, by decide +kernel, ⟨_, rfl⟩⟩

theorem witness_SingleWriterPerUnit :
    (∃ t, step fillReady = .next t) ∧ nextInput fillReady = .port .playback ∧
    fillReady.mode = .chain ∧ nextInput ending = .sequencer false false ∧ ending.mode = .chain ∧
    nextInput (ask direct0 .command 0x0100000000000003#64 []) = .port .command ∧
    direct0.mode = .direct ∧ nextInput (seqTurn direct0 true true) = .sequencer true true ∧
    nextInput { direct0 with script := [.arrive .direct ⟨0#64, []⟩] } = .arrive .direct ⟨0#64, []⟩ :=
  ⟨⟨_, rfl⟩, by decide +kernel⟩

theorem witness_ParametersAndModeAreFixed :
    (∃ t, step fillReady = .next t) ∧ fillReady.mode = fillReady.cfg.mode :=
  ⟨⟨_, rfl⟩, by decide +kernel⟩

theorem witness_EveryStepKeepsInvariant :
    (∃ t, fillReady.Inv ∧ step fillReady = .next t) ∧ (∃ t, busy.Inv ∧ step busy = .next t) ∧
    (∃ t, ending.Inv ∧ step ending = .next t) :=
  ⟨⟨_, inv_fillReady, rfl⟩, ⟨_, inv_busy, rfl⟩, ⟨_, inv_ending, rfl⟩⟩

/-- EX, and the largest chunk size. -/
theorem witness_ResetMeetsInvariant :
    (EX .direct).wf = true ∧ (EX .chain).wf = true ∧
    ({ EX .chain with n := 2 ^ 24 } : Params).wf = true := by decide +kernel

/-- A sum that overflows and one that does not. -/
theorem witness_AddRoundsToNearestEven :
    isFinite 0x7F7FFFFF#32 = true ∧ isInf (fadd site0 0x7F7FFFFF#32 0x7F7FFFFF#32) = true ∧
    isFinite (fadd site0 0x7F7FFFFF#32 0x80000001#32) = true ∧
    (isInf 0xFF800000#32 = true ∧ isNan 0x7F7FFFFF#32 = false ∧ isInf 0x7F7FFFFF#32 = false) := by
  decide +kernel

theorem witness_MulRoundsToNearestEven :
    isFinite 0x7F7FFFFF#32 = true ∧ isInf (fmul site0 0x7F7FFFFF#32 0x40000000#32) = true ∧
    isFinite (fmul site0 0x7F7FFFFF#32 0xBF800000#32) = true ∧
    (isInf 0xFF800000#32 = true ∧ isNan 0x00000001#32 = false ∧ isZero 0x00000001#32 = false) ∧
    isNan (fmul site0 0x80000001#32 0x00000001#32) = false := by decide +kernel

theorem witness_DivRoundsToNearestEven :
    isFinite 0x7F7FFFFF#32 = true ∧ isZero 0x3F000000#32 = false ∧
    isInf (fdiv site0 0x7F7FFFFF#32 0x3F000000#32) = true ∧
    isFinite (fdiv site0 0x3F800000#32 0x40400000#32) = true ∧
    (isFinite 0x00000001#32 = true ∧ isZero 0x00000001#32 = false ∧ isZero 0x80000000#32 = true) ∧
    (isInf 0xFF800000#32 = true ∧ isFinite 0#32 = true) ∧
    isNan (fdiv site0 0x00000001#32 0x80000000#32) = false := by decide +kernel

theorem witness_NanResultsAreQuiet : isNan (fadd site0 0x7F800000#32 0xFF800000#32) = true := by
  rw [fadd, if_neg (by decide +kernel), if_pos (by decide +kernel), if_pos (by decide +kernel)]
  exact isNan_nanq site0

theorem witness_FabsAndFgtMeanings :
    isNan 0x7F800001#32 = true ∧ isFinite 0x7F7FFFFF#32 = true ∧ isFinite 0x80000001#32 = true := by
  decide +kernel

/-- A number at either end of the range, text that is no number, a name, and a keyword that is none. -/
theorem witness_TextCommandLines :
    (("AM".toList, 0x01#8) ∈ [("AM".toList, 0x01#8), ("AGC".toList, 0x02#8), ("AF".toList, 0x03#8)] ∧
      ([2, 1, 4, 7, 4, 8, 3, 6, 4, 8] : List (Fin 10)).foldl (fun acc d => 10 * acc + d.val) 0 =
        2 ^ 31) ∧
    (∀ ds : List (Fin 10), ds ≠ [] →
      ([] : List Char) ≠ ds.map (fun d => Char.ofNat (48 + d.val)) ∧
      ([] : List Char) ≠ '-' :: ds.map (fun d => Char.ofNat (48 + d.val))) ∧
    (("RSSI".toList, 0x04#8) ∈ [("RSSI".toList, 0x04#8), ("IFOUT".toList, 0x05#8)] ∧
      "scope".toList ≠ [] ∧ "scope".toList ≠ "None".toList) ∧
    (' ' ∉ "FOO".toList ∧ "FOO".toList ∉
      ["AM".toList, "AGC".toList, "AF".toList, "RSSI".toList, "IFOUT".toList, "END".toList]) := by
  refine ⟨by decide +kernel, ?_, by decide +kernel, by decide +kernel⟩
  intro ds h
  cases ds with
  | nil => exact absurd rfl h
  | cons d ds => exact ⟨fun e => (List.cons_ne_nil _ _ e.symm).elim, fun e => (List.cons_ne_nil _ _ e.symm).elim⟩

end Sys2Proof.Tests
end

section
/-! PROOFS. The laws of binary32 arithmetic (00_scope.md R10 to R17): rounding is the choice of the nearest
bit pattern, each operation rounds its exact result once, and its result is NaN exactly on its invalid
operands; sums follow term by term. Settles O16, O22, O55, O56, O57, O58 and O59. -/

namespace Sys2Proof.Machine

/-! ## Magnitudes by their bits 30:0 (00_scope.md R10)

Rounding is a choice among bit patterns. `bitsValue` reads bits 30:0 as a magnitude and goes on past the largest
finite value, so that overflow needs no case of its own: the pattern of +∞ is the next one. -/

/-- Bits 30:0 as a number. -/
def lowBits (x : F32) : Nat := x.toNat % 2 ^ 31

/-- The magnitude, in units of 2^-149, of the bits 30:0 given as a number. -/
def bitsValue (n : Nat) : Nat :=
  if n / 2 ^ 23 = 0 then n % 2 ^ 23 else (n % 2 ^ 23 + 2 ^ 23) * 2 ^ (n / 2 ^ 23 - 1)

theorem magnitude_eq (x : F32) : magnitude x = bitsValue (lowBits x) := by
  have hexp : expField x = lowBits x / 2 ^ 23 := by
    unfold expField lowBits
    omega
  have hfrac : fracField x = lowBits x % 2 ^ 23 := by
    unfold fracField lowBits
    omega
  rw [magnitude, bitsValue, hexp, hfrac]

/-- Exponent and significand side by side: a significand of 2^24 carries into the exponent. -/
theorem bitsValue_of_significand {e m : Nat} (hm : m ≤ 2 ^ 24) (he : 2 ^ 23 ≤ m ∨ e = 0) :
    bitsValue (e * 2 ^ 23 + m) = m * 2 ^ e := by
  unfold bitsValue
  obtain hsub | hnorm | hcarry : m < 2 ^ 23 ∨ (2 ^ 23 ≤ m ∧ m < 2 ^ 24) ∨ m = 2 ^ 24 := by omega
  · obtain rfl : e = 0 := by omega
    rw [if_pos (by omega), Nat.pow_zero]
    omega
  · rw [if_neg (by omega), show (e * 2 ^ 23 + m) / 2 ^ 23 - 1 = e by omega,
      show (e * 2 ^ 23 + m) % 2 ^ 23 + 2 ^ 23 = m by omega]
  · subst hcarry
    rw [if_neg (by omega), show (e * 2 ^ 23 + 2 ^ 24) / 2 ^ 23 - 1 = e + 1 by omega,
      show (e * 2 ^ 23 + 2 ^ 24) % 2 ^ 23 = 0 by omega]
    ring

/-- Every number splits into an exponent and a significand of at most 24 bits. -/
theorem exists_significand (n : Nat) :
    ∃ e m : Nat, n = e * 2 ^ 23 + m ∧ m < 2 ^ 24 ∧ (2 ^ 23 ≤ m ∨ e = 0) := by
  by_cases h : n < 2 ^ 23
  · exact ⟨0, n, by omega⟩
  · exact ⟨n / 2 ^ 23 - 1, n % 2 ^ 23 + 2 ^ 23, by omega⟩

theorem bitsValue_lt_succ (n : Nat) : bitsValue n < bitsValue (n + 1) := by
  obtain ⟨e, m, rfl, hm, he⟩ := exists_significand n
  rw [Nat.add_assoc, bitsValue_of_significand hm.le he, bitsValue_of_significand hm (by omega)]
  exact Nat.mul_lt_mul_of_pos_right (Nat.lt_succ_self m) (Nat.two_pow_pos e)

theorem bitsValue_strictMono : StrictMono bitsValue := strictMono_nat_of_lt_succ bitsValue_lt_succ

/-- A number of at most 24 bits times a power of 2 has a pattern. -/
theorem exists_bitsValue_eq (e m : Nat) (hm : m ≤ 2 ^ 24) : ∃ n, bitsValue n = m * 2 ^ e := by
  induction e generalizing m with
  | zero => exact ⟨0 * 2 ^ 23 + m, bitsValue_of_significand hm (.inr rfl)⟩
  | succ e ih =>
    by_cases hnorm : 2 ^ 23 ≤ m
    · exact ⟨_, bitsValue_of_significand hm (.inl hnorm)⟩
    · obtain ⟨n, hn⟩ := ih (2 * m) (by omega)
      exact ⟨n, by rw [hn]; ring⟩

theorem bitsValue_zero : bitsValue 0 = 0 := by decide +kernel
theorem bitsValue_one : bitsValue 1 = 1 := by decide +kernel
theorem bitsValue_largestFinite : bitsValue 0x7F7FFFFF = (2 ^ 24 - 1) * 2 ^ 253 := by decide +kernel
theorem bitsValue_infinity : bitsValue 0x7F800000 = 2 ^ 24 * 2 ^ 253 := by decide +kernel

/-! ## Rounding to nearest, ties to even (R11) -/

/-- The pattern k is nearest to p/q among all patterns, and even where another is as near. -/
def NearestBits (p q k : Nat) : Prop :=
  ∀ n : Nat,
    |(bitsValue k * q : Int) - p| ≤ |(bitsValue n * q : Int) - p| ∧
    (|(bitsValue k * q : Int) - p| = |(bitsValue n * q : Int) - p| → n ≠ k → k % 2 = 0)

section

variable {p q n : Nat}

/-- Between two patterns, not past their midpoint, the lower one is nearest. -/
theorem nearestBits_of_lower_half (hq : 0 < q) (hlo : bitsValue n * q ≤ p)
    (hmid : 2 * p ≤ bitsValue n * q + bitsValue (n + 1) * q)
    (htie : 2 * p = bitsValue n * q + bitsValue (n + 1) * q → n % 2 = 0) : NearestBits p q n := by
  intro j
  simp only [Int.abs_eq_natAbs]
  obtain hlt | rfl | hgt := Nat.lt_trichotomy j n
  · have hj := Nat.mul_lt_mul_of_pos_right (bitsValue_strictMono hlt) hq
    omega
  · omega
  · have hj := Nat.mul_le_mul_right q (bitsValue_strictMono.monotone hgt)
    rw [Nat.succ_eq_add_one] at hj
    omega

/-- Between two patterns, not short of their midpoint, the upper one is nearest. -/
theorem nearestBits_of_upper_half (hq : 0 < q) (hhi : p < bitsValue (n + 1) * q)
    (hmid : bitsValue n * q + bitsValue (n + 1) * q ≤ 2 * p)
    (htie : 2 * p = bitsValue n * q + bitsValue (n + 1) * q → n % 2 = 1) :
    NearestBits p q (n + 1) := by
  intro j
  simp only [Int.abs_eq_natAbs]
  obtain hlt | rfl | hgt := Nat.lt_trichotomy j (n + 1)
  · have hj := Nat.mul_le_mul_right q (bitsValue_strictMono.monotone (Nat.le_of_lt_succ hlt))
    omega
  · omega
  · have hj := Nat.mul_lt_mul_of_pos_right (bitsValue_strictMono hgt) hq
    omega

end

/-- The exponent `roundMagnitude` takes leaves a significand of at most 24 bits, and of fewer only where
the exponent is least. -/
theorem significand_bounds (x : Nat) :
    x / 2 ^ (x.log2 - 23) < 2 ^ 24 ∧ (2 ^ 23 ≤ x / 2 ^ (x.log2 - 23) ∨ x.log2 - 23 = 0) := by
  have hlt : x < 2 ^ (x.log2 + 1) := Nat.lt_log2_self
  by_cases h : x.log2 ≤ 23
  · rw [show x.log2 - 23 = 0 by omega, Nat.pow_zero, Nat.div_one]
    exact ⟨hlt.trans_le (Nat.pow_le_pow_right (by decide) (by omega)), .inr rfl⟩
  · obtain ⟨e, he⟩ : ∃ e, x.log2 = 23 + e := ⟨x.log2 - 23, by omega⟩
    have hle : 2 ^ x.log2 ≤ x := Nat.log2_self_le (by rintro rfl; exact h (by decide))
    rw [he, show 23 + e - 23 = e by omega]
    rw [he, show 23 + e + 1 = 24 + e by omega, Nat.pow_add] at hlt
    rw [he, Nat.pow_add] at hle
    exact ⟨Nat.div_lt_of_lt_mul (by linarith), .inl ((Nat.le_div_iff_mul_le (Nat.two_pow_pos e)).2 hle)⟩

/-- `roundMagnitude` gives the nearest pattern, +∞ in place of any past it. -/
theorem exists_nearestBits_roundMagnitude (p : Nat) {q : Nat} (hq : 0 < q) :
    ∃ k, NearestBits p q k ∧ roundMagnitude p q = min k 0x7F800000 := by
  obtain ⟨hm, he⟩ := significand_bounds (p / q)
  rw [Nat.div_div_eq_div_mul] at hm he
  have hlow := bitsValue_of_significand hm.le he
  have hhigh := bitsValue_of_significand (m := p / (q * 2 ^ ((p / q).log2 - 23)) + 1) hm
    (he.imp_left Nat.le_succ_of_le)
  unfold roundMagnitude
  simp only
  generalize (p / q).log2 - 23 = e at *
  have hd : 0 < q * 2 ^ e := Nat.mul_pos hq (Nat.two_pow_pos e)
  have hmod := Nat.mod_lt p hd
  have hdiv := Nat.div_add_mod p (q * 2 ^ e)
  generalize p / (q * 2 ^ e) = m at *
  generalize p % (q * 2 ^ e) = r at *
  have hl : bitsValue (e * 2 ^ 23 + m) * q = q * 2 ^ e * m := by rw [hlow]; ring
  have hh : bitsValue (e * 2 ^ 23 + m + 1) * q = q * 2 ^ e * m + q * 2 ^ e := by
    rw [Nat.add_assoc, hhigh]; ring
  split_ifs with hup
  · refine ⟨e * 2 ^ 23 + m + 1, nearestBits_of_upper_half hq ?_ ?_ ?_, by rw [Nat.add_assoc]⟩ <;>
      rw [hh] <;> omega
  · refine ⟨e * 2 ^ 23 + m, nearestBits_of_lower_half hq ?_ ?_ ?_, rfl⟩ <;> rw [hl] <;> omega

/-! ## Consequences of being nearest -/

namespace NearestBits

variable {p q k n : Nat}

/-- A pattern whose value is exactly p/q is the nearest one. -/
theorem eq_of_exact (h : NearestBits p q k) (hq : 0 < q) (hn : bitsValue n * q = p) : k = n := by
  obtain ⟨hle, -⟩ := h n
  simp only [Int.abs_eq_natAbs] at hle
  have heq : bitsValue k * q = bitsValue n * q := by omega
  exact bitsValue_strictMono.injective (Nat.eq_of_mul_eq_mul_right hq heq)

/-- Overflow (R12): the nearest pattern is past the largest finite value exactly from the midpoint above
that value on, the tie going to +∞ because the largest finite pattern is odd. -/
theorem infinite_iff (h : NearestBits p q k) (hq : 0 < q) :
    0x7F800000 ≤ k ↔ (2 ^ 25 - 1) * 2 ^ 252 * q ≤ p := by
  have hmid : 2 * ((2 ^ 25 - 1) * 2 ^ 252 * q) =
      bitsValue 0x7F7FFFFF * q + bitsValue 0x7F800000 * q := by
    rw [bitsValue_largestFinite, bitsValue_infinity]
    ring
  have hgap := Nat.mul_lt_mul_of_pos_right
    (bitsValue_strictMono (show 0x7F7FFFFF < 0x7F800000 by decide)) hq
  obtain ⟨hfin, -⟩ := h 0x7F7FFFFF
  obtain ⟨hinf, htie⟩ := h 0x7F800000
  simp only [Int.abs_eq_natAbs] at hfin hinf htie
  generalize (2 ^ 25 - 1) * 2 ^ 252 * q = t at *
  constructor
  · intro hk
    have hk := Nat.mul_le_mul_right q (bitsValue_strictMono.monotone hk)
    omega
  · intro hp
    by_contra hk
    have hk' := Nat.mul_le_mul_right q (bitsValue_strictMono.monotone (show k ≤ 0x7F7FFFFF by omega))
    have heq : bitsValue k * q = bitsValue 0x7F7FFFFF * q := by omega
    obtain rfl := bitsValue_strictMono.injective (Nat.eq_of_mul_eq_mul_right hq heq)
    omega

/-- A whole number of units rounds to zero only when it is zero. -/
theorem eq_zero_iff (h : NearestBits p 1 k) : k = 0 ↔ p = 0 := by
  constructor
  · rintro rfl
    obtain ⟨hle, -⟩ := h 1
    simp only [Int.abs_eq_natAbs, bitsValue_zero, bitsValue_one] at hle
    omega
  · rintro rfl
    exact h.eq_of_exact Nat.one_pos bitsValue_zero

end NearestBits

/-! ## The kinds of value by their bits 30:0 (R10) -/

section

variable (x : F32)

theorem isNeg_eq : isNeg x = decide (2 ^ 31 ≤ x.toNat) := by
  have h := x.isLt
  simp only [isNeg, BitVec.getLsbD, Nat.testBit_eq_decide_div_mod_eq, decide_eq_decide]
  omega

theorem isNan_eq : isNan x = decide (0x7F800000 < lowBits x) := by
  rw [Bool.eq_iff_iff, decide_eq_true_eq]
  simp only [isNan, expField, fracField, lowBits, Bool.and_eq_true, beq_iff_eq, bne_iff_ne]
  omega

theorem isInf_eq : isInf x = decide (lowBits x = 0x7F800000) := by
  rw [Bool.eq_iff_iff, decide_eq_true_eq]
  simp only [isInf, expField, fracField, lowBits, Bool.and_eq_true, beq_iff_eq]
  omega

theorem isFinite_eq : isFinite x = decide (lowBits x < 0x7F800000) := by
  rw [Bool.eq_iff_iff, decide_eq_true_eq]
  simp only [isFinite, expField, lowBits, bne_iff_ne]
  omega

theorem isZero_eq : isZero x = decide (lowBits x = 0) := rfl

theorem toNat_eq_lowBits : x.toNat = lowBits x + if isNeg x then 2 ^ 31 else 0 := by
  have h := x.isLt
  simp only [isNeg_eq, lowBits, decide_eq_true_eq]
  split_ifs <;> omega

variable {x}

theorem isNan_of_isFinite (h : isFinite x = true) : isNan x = false := by
  simp only [isFinite_eq, isNan_eq, decide_eq_true_eq, decide_eq_false_iff_not] at *
  omega

theorem isInf_of_isFinite (h : isFinite x = true) : isInf x = false := by
  simp only [isFinite_eq, isInf_eq, decide_eq_true_eq, decide_eq_false_iff_not] at *
  omega

theorem isNan_of_isInf (h : isInf x = true) : isNan x = false := by
  simp only [isInf_eq, isNan_eq, decide_eq_true_eq, decide_eq_false_iff_not] at *
  omega

theorem isZero_of_isInf (h : isInf x = true) : isZero x = false := by
  simp only [isInf_eq, isZero_eq, decide_eq_true_eq, decide_eq_false_iff_not] at *
  omega

theorem isNan_of_isZero (h : isZero x = true) : isNan x = false := by
  simp only [isZero_eq, isNan_eq, decide_eq_true_eq, decide_eq_false_iff_not] at *
  omega

theorem isInf_of_isZero (h : isZero x = true) : isInf x = false := by
  simp only [isZero_eq, isInf_eq, decide_eq_true_eq, decide_eq_false_iff_not] at *
  omega

/-- A value is its sign and its magnitude bits. -/
theorem eq_of_isNeg_eq_of_lowBits_eq {y : F32} (hs : isNeg x = isNeg y) (hb : lowBits x = lowBits y) :
    x = y :=
  BitVec.eq_of_toNat_eq (by rw [toNat_eq_lowBits x, toNat_eq_lowBits y, hs, hb])

theorem magnitude_eq_zero_iff : magnitude x = 0 ↔ isZero x = true := by
  rw [magnitude_eq, isZero_eq, decide_eq_true_eq, ← bitsValue_zero]
  exact bitsValue_strictMono.injective.eq_iff

/-- Every finite magnitude is below the one of ±∞. -/
theorem magnitude_lt_of_isFinite_of_isInf {y : F32} (hx : isFinite x = true) (hy : isInf y = true) :
    magnitude x < magnitude y := by
  simp only [isFinite_eq, isInf_eq, decide_eq_true_eq, magnitude_eq] at *
  rw [hy]
  exact bitsValue_strictMono hx

end

/-! ## Values from a sign and a magnitude -/

section

variable {neg : Bool} {n : Nat} (h : n ≤ 0x7F800000)

include h

theorem packValue_toNat : (packValue neg n).toNat = n + if neg then 2 ^ 31 else 0 := by
  rw [packValue, BitVec.toNat_ofNat, Nat.mod_eq_of_lt]
  split_ifs <;> omega

theorem lowBits_packValue : lowBits (packValue neg n) = n := by
  rw [lowBits, packValue_toNat h]
  split_ifs <;> omega

theorem isNeg_packValue : isNeg (packValue neg n) = neg := by
  rw [isNeg_eq, packValue_toNat h]
  cases neg <;> simp only [Bool.false_eq_true, if_false, if_true, decide_eq_false_iff_not,
    decide_eq_true_eq] <;> omega

theorem isNan_packValue : isNan (packValue neg n) = false := by
  rw [isNan_eq, lowBits_packValue h, decide_eq_false_iff_not]
  omega

end

theorem isInf_infinity (neg : Bool) : isInf (infinity neg) = true := by
  rw [infinity, isInf_eq, lowBits_packValue le_rfl, decide_eq_true_eq]

theorem isZero_signedZero (neg : Bool) : isZero (signedZero neg) = true := by
  rw [signedZero, isZero_eq, lowBits_packValue (Nat.zero_le _), decide_eq_true_eq]

theorem roundMagnitude_le (p q : Nat) : roundMagnitude p q ≤ 0x7F800000 := Nat.min_le_right _ _

/-! ## Signed values -/

/-- A magnitude with its sign. -/
def withSign (neg : Bool) (z : Int) : Int := if neg then -z else z

theorem signedValue_eq (x : F32) : signedValue x = withSign (isNeg x) (magnitude x) := rfl

@[simp] theorem abs_withSign (neg : Bool) (z : Int) : |withSign neg z| = |z| := by
  cases neg <;> simp [withSign]

theorem withSign_mul (s t : Bool) (y z : Int) :
    withSign s y * withSign t z = withSign (s != t) (y * z) := by
  cases s <;> cases t <;> simp [withSign]

/-- A distance from a signed value depends on the two signs by their exclusive or alone. -/
theorem abs_mul_sub_withSign (s t : Bool) (y z q : Int) :
    |withSign s y * q - withSign t z| = |withSign (s != t) y * q - z| := by
  cases t
  · simp [withSign]
  · rw [← abs_neg]
    congr 1
    cases s <;> simp [withSign] <;> ring

/-- The sign of a factor moves to the other side of a difference. -/
theorem abs_mul_withSign_sub (s t : Bool) (v y z : Int) :
    |v * withSign t y - withSign s z| = |v * y - withSign (s != t) z| := by
  cases t
  · simp [withSign]
  · rw [← abs_neg]
    congr 1
    cases s <;> simp [withSign] <;> ring

theorem abs_signedValue (x : F32) : |signedValue x| = magnitude x := by
  rw [signedValue_eq, abs_withSign, Nat.abs_cast]

/-- The value r is z/q rounded to nearest, ties to even: no NaN, infinite exactly from the midpoint above
the largest finite value on, else as near as any finite value, and even where another is as near. -/
def RoundedToNearestEven (r : F32) (q : Nat) (z : Int) : Prop :=
  isNan r = false ∧
  (isInf r = true ↔ (2 ^ 25 - 1) * 2 ^ 252 * (q : Int) ≤ |z|) ∧
  (isFinite r = true → ∀ c : F32, isFinite c = true →
    |signedValue r * q - z| ≤ |signedValue c * q - z| ∧
    (|signedValue r * q - z| = |signedValue c * q - z| → signedValue c ≠ signedValue r →
      r.toNat % 2 = 0))

/-- A nearest pattern stays nearest among signed values: the values of the other sign are no nearer than
zero is. -/
theorem NearestBits.signed {p q k : Nat} (h : NearestBits p q k) (neg : Bool) (c : F32) :
    (let v := withSign neg (bitsValue k)
     let z := withSign neg p
     |v * q - z| ≤ |signedValue c * q - z| ∧
     (|v * q - z| = |signedValue c * q - z| → signedValue c ≠ v → k % 2 = 0)) := by
  obtain ⟨hc, hctie⟩ := h (lowBits c)
  obtain ⟨h0, h0tie⟩ := h 0
  simp only [signedValue_eq, magnitude_eq, abs_mul_sub_withSign, bne_self_eq_false]
  obtain hs | hs : isNeg c = neg ∨ (isNeg c != neg) = true := by
    cases isNeg c <;> cases neg <;> decide
  · rw [hs, bne_self_eq_false]
    exact ⟨hc, fun heq hne => hctie heq fun hb => hne (by rw [hb])⟩
  · rw [hs]
    have hpos : 0 ≤ (bitsValue (lowBits c) * q : Int) := by positivity
    simp only [withSign, Bool.false_eq_true, if_false, if_true, neg_mul, Int.abs_eq_natAbs,
      bitsValue_zero, Nat.cast_zero, zero_mul] at *
    omega

/-- Every rounded magnitude with a sign is rounded to nearest, ties to even. -/
theorem roundedToNearestEven_packValue (neg : Bool) (p : Nat) {q : Nat} (hq : 0 < q) :
    RoundedToNearestEven (packValue neg (roundMagnitude p q)) q (withSign neg p) := by
  have hle := roundMagnitude_le p q
  obtain ⟨k, hk, hround⟩ := exists_nearestBits_roundMagnitude p hq
  refine ⟨isNan_packValue hle, ?_, ?_⟩
  · rw [isInf_eq, lowBits_packValue hle, hround, decide_eq_true_eq, abs_withSign, Nat.abs_cast]
    have hinf := hk.infinite_iff hq
    rw [← Nat.cast_le (α := Int)] at hinf
    push_cast at hinf
    norm_num at hinf ⊢
    omega
  · intro hfin c hc
    rw [isFinite_eq, lowBits_packValue hle, hround, decide_eq_true_eq] at hfin
    have hmin : min k 0x7F800000 = k := by omega
    obtain ⟨hnear, heven⟩ := hk.signed neg c
    rw [signedValue_eq, magnitude_eq, isNeg_packValue hle, lowBits_packValue hle, packValue_toNat hle,
      hround, hmin]
    refine ⟨hnear, fun htie hne => ?_⟩
    have := heven htie hne
    split_ifs <;> omega

/-! ## When an operation is invalid (R12; log entry 20) -/

/-- The operands on which `fadd` gives NaN. -/
abbrev AddInvalid (a b : F32) : Prop :=
  isNan a = true ∨ isNan b = true ∨ (isInf a = true ∧ isInf b = true ∧ isNeg a ≠ isNeg b)

/-- The operands on which `fmul` gives NaN. -/
abbrev MulInvalid (a b : F32) : Prop :=
  isNan a = true ∨ isNan b = true ∨
    (isInf a = true ∧ isZero b = true) ∨ (isZero a = true ∧ isInf b = true)

/-- The operands on which `fdiv` gives NaN. -/
abbrev DivInvalid (a b : F32) : Prop :=
  isNan a = true ∨ isNan b = true ∨
    (isInf a = true ∧ isInf b = true) ∨ (isZero a = true ∧ isZero b = true)

section

variable {d : DrawSite} {a b : F32}

theorem fadd_of_invalid (h : AddInvalid a b) : fadd d a b = nanq d := by
  unfold fadd
  obtain ha | hb | ⟨ha, hb, hs⟩ := h
  · simp [ha]
  · simp [hb]
  · simp [ha, hb, hs]

theorem fadd_of_valid (h : ¬ AddInvalid a b) :
    fadd d a b = if isInf a then a else if isInf b then b
      else roundSum (isNeg a && isNeg b) (signedValue a + signedValue b) := by
  simp only [not_or, not_and, Bool.not_eq_true, ne_eq, not_not] at h
  obtain ⟨ha, hb, hs⟩ := h
  unfold fadd
  simp only [ha, hb, Bool.or_false, Bool.false_eq_true, if_false]
  by_cases hai : isInf a = true
  · have hno : ¬ (isInf b = true ∧ isNeg a ≠ isNeg b) := fun ⟨hb, hne⟩ => hne (hs hai hb)
    simp [hai, hno]
  · simp [hai]

theorem fmul_of_invalid (h : MulInvalid a b) : fmul d a b = nanq d := by
  unfold fmul
  obtain ha | hb | ⟨ha, hb⟩ | ⟨ha, hb⟩ := h
  · simp [ha]
  · simp [hb]
  · simp [ha, hb]
  · simp [ha, hb, isInf_of_isZero ha]

/-- The bits 30:0 of a product that is not invalid. -/
def mulBits (a b : F32) : Nat :=
  if isInf a || isInf b then 0x7F800000 else roundMagnitude (magnitude a * magnitude b) (2 ^ 149)

theorem mulBits_le (a b : F32) : mulBits a b ≤ 0x7F800000 := by
  unfold mulBits
  split_ifs
  · exact le_rfl
  · exact roundMagnitude_le _ _

theorem fmul_of_valid (h : ¬ MulInvalid a b) :
    fmul d a b = packValue (isNeg a != isNeg b) (mulBits a b) := by
  simp only [not_or, not_and, Bool.not_eq_true] at h
  obtain ⟨ha, hb, hab, hba⟩ := h
  unfold fmul mulBits
  simp only [ha, hb, Bool.or_false, Bool.false_eq_true, if_false]
  by_cases hai : isInf a = true
  · simp [hai, hab hai, infinity]
  · by_cases hbi : isInf b = true
    · have haz : isZero a = false := by
        by_contra hz
        simp [hba (by simpa using hz)] at hbi
      simp [hai, hbi, haz, infinity]
    · simp [hai, hbi]

theorem fdiv_of_invalid (h : DivInvalid a b) : fdiv d a b = nanq d := by
  unfold fdiv
  obtain ha | hb | ⟨ha, hb⟩ | ⟨ha, hb⟩ := h
  · simp [ha]
  · simp [hb]
  · simp [ha, hb]
  · simp [ha, hb, isInf_of_isZero ha, isInf_of_isZero hb]

/-- The bits 30:0 of a quotient that is not invalid. -/
def divBits (a b : F32) : Nat :=
  if isInf a || isZero b then 0x7F800000
  else if isInf b then 0
  else roundMagnitude (magnitude a * 2 ^ 149) (magnitude b)

theorem divBits_le (a b : F32) : divBits a b ≤ 0x7F800000 := by
  unfold divBits
  split_ifs
  · exact le_rfl
  · exact Nat.zero_le _
  · exact roundMagnitude_le _ _

theorem fdiv_of_valid (h : ¬ DivInvalid a b) :
    fdiv d a b = packValue (isNeg a != isNeg b) (divBits a b) := by
  simp only [not_or, not_and, Bool.not_eq_true] at h
  obtain ⟨ha, hb, hinf, hzero⟩ := h
  unfold fdiv divBits
  simp only [ha, hb, Bool.or_false, Bool.false_eq_true, if_false]
  by_cases hai : isInf a = true
  · simp [hai, hinf hai, infinity]
  · by_cases hbi : isInf b = true
    · simp [hai, hbi, isZero_of_isInf hbi, signedZero]
    · by_cases hbz : isZero b = true
      · have haz : isZero a = false := by
          by_contra hz
          simp [hzero (by simpa using hz)] at hbz
        simp [hai, hbi, hbz, haz, infinity]
      · simp [hai, hbi, hbz]

/-! ## Finite operands -/

theorem not_addInvalid_of_isFinite (ha : isFinite a = true) (hb : isFinite b = true) :
    ¬ AddInvalid a b := by
  simp [isNan_of_isFinite ha, isNan_of_isFinite hb, isInf_of_isFinite ha]

theorem fadd_of_isFinite (ha : isFinite a = true) (hb : isFinite b = true) :
    fadd d a b = roundSum (isNeg a && isNeg b) (signedValue a + signedValue b) := by
  simp [fadd_of_valid (not_addInvalid_of_isFinite ha hb), isInf_of_isFinite ha, isInf_of_isFinite hb]

theorem fmul_of_isFinite (ha : isFinite a = true) (hb : isFinite b = true) :
    fmul d a b = packValue (isNeg a != isNeg b)
      (roundMagnitude (magnitude a * magnitude b) (2 ^ 149)) := by
  have hvalid : ¬ MulInvalid a b := by
    simp [isNan_of_isFinite ha, isNan_of_isFinite hb, isInf_of_isFinite ha, isInf_of_isFinite hb]
  simp [fmul_of_valid hvalid, mulBits, isInf_of_isFinite ha, isInf_of_isFinite hb]

theorem fdiv_of_isFinite (ha : isFinite a = true) (hb : isFinite b = true) (hz : isZero b = false) :
    fdiv d a b = packValue (isNeg a != isNeg b)
      (roundMagnitude (magnitude a * 2 ^ 149) (magnitude b)) := by
  have hvalid : ¬ DivInvalid a b := by
    simp [isNan_of_isFinite ha, isNan_of_isFinite hb, isInf_of_isFinite ha, hz]
  simp [fdiv_of_valid hvalid, divBits, isInf_of_isFinite ha, isInf_of_isFinite hb, hz]

end

/-! ## NaN results of an operation (R13) -/

/-- The operation gives NaN exactly on the operands `Invalid`, NaN operands among them: there the quiet NaN
of its site, elsewhere one value at every site. -/
structure NanExactlyOn (f : DrawSite → F32 → F32 → F32) (Invalid : F32 → F32 → Prop) : Prop where
  of_nan_left : ∀ a b, isNan a = true → Invalid a b
  of_nan_right : ∀ a b, isNan b = true → Invalid a b
  eq_nanq : ∀ d a b, Invalid a b → f d a b = nanq d
  exists_value : ∀ a b, ¬ Invalid a b → ∃ v, isNan v = false ∧ ∀ d, f d a b = v

theorem SameValue.refl (a : F32) : SameValue a a := .inl rfl

namespace NanExactlyOn

variable {f : DrawSite → F32 → F32 → F32} {Invalid : F32 → F32 → Prop} (hf : NanExactlyOn f Invalid)

include hf

theorem isNan_iff (d : DrawSite) (a b : F32) : isNan (f d a b) = true ↔ Invalid a b := by
  by_cases h : Invalid a b
  · simp [hf.eq_nanq d a b h, h]
  · obtain ⟨v, hv, hfv⟩ := hf.exists_value a b h
    simp [hfv, hv, h]

theorem isQuietNan_of_isNan {d : DrawSite} {a b : F32} (h : isNan (f d a b) = true) :
    isQuietNan (f d a b) = true := by
  rw [hf.eq_nanq d a b ((hf.isNan_iff d a b).1 h)]
  exact isQuietNan_nanq d

/-- Operands equal up to the choice of NaN give results equal up to the choice of NaN, at any sites. -/
theorem sameValue_congr (d e : DrawSite) {a a' b b' : F32} (ha : SameValue a a') (hb : SameValue b b') :
    SameValue (f d a b) (f e a' b') := by
  obtain rfl | ⟨han, han'⟩ := ha
  · obtain rfl | ⟨hbn, hbn'⟩ := hb
    · by_cases h : Invalid a b
      · exact .inr ⟨(hf.isNan_iff d a b).2 h, (hf.isNan_iff e a b).2 h⟩
      · obtain ⟨v, -, hfv⟩ := hf.exists_value a b h
        exact .inl (by rw [hfv, hfv])
    · exact .inr ⟨(hf.isNan_iff _ _ _).2 (hf.of_nan_right _ _ hbn),
        (hf.isNan_iff _ _ _).2 (hf.of_nan_right _ _ hbn')⟩
  · exact .inr ⟨(hf.isNan_iff _ _ _).2 (hf.of_nan_left _ _ han),
      (hf.isNan_iff _ _ _).2 (hf.of_nan_left _ _ han')⟩

end NanExactlyOn

theorem isNan_roundSum (neg : Bool) (z : Int) : isNan (roundSum neg z) = false :=
  isNan_packValue (roundMagnitude_le _ _)

theorem nanExactlyOn_fadd : NanExactlyOn fadd AddInvalid where
  of_nan_left _ _ h := .inl h
  of_nan_right _ _ h := .inr (.inl h)
  eq_nanq _ _ _ := fadd_of_invalid
  exists_value a b h := by
    refine ⟨_, ?_, fun d => fadd_of_valid h⟩
    simp only [not_or, Bool.not_eq_true] at h
    obtain ⟨ha, hb, -⟩ := h
    split_ifs
    exacts [ha, hb, isNan_roundSum _ _]

theorem nanExactlyOn_fmul : NanExactlyOn fmul MulInvalid where
  of_nan_left _ _ h := .inl h
  of_nan_right _ _ h := .inr (.inl h)
  eq_nanq _ _ _ := fmul_of_invalid
  exists_value a b h := ⟨_, isNan_packValue (mulBits_le a b), fun _ => fmul_of_valid h⟩

theorem nanExactlyOn_fdiv : NanExactlyOn fdiv DivInvalid where
  of_nan_left _ _ h := .inl h
  of_nan_right _ _ h := .inr (.inl h)
  eq_nanq _ _ _ := fdiv_of_invalid
  exists_value a b h := ⟨_, isNan_packValue (divBits_le a b), fun _ => fdiv_of_valid h⟩

/-- Settles O58: each operation is NaN exactly on its invalid operands, and is then the quiet NaN of its
site. -/
theorem nanResultsAreQuiet : Obligations.NanResultsAreQuiet := by
  intro d a b
  exact ⟨nanExactlyOn_fadd.isNan_iff d a b, nanExactlyOn_fmul.isNan_iff d a b,
    nanExactlyOn_fdiv.isNan_iff d a b, nanExactlyOn_fadd.isQuietNan_of_isNan,
    nanExactlyOn_fadd.isQuietNan_of_isNan, nanExactlyOn_fmul.isQuietNan_of_isNan,
    nanExactlyOn_fdiv.isQuietNan_of_isNan⟩

/-! ## Sums -/

theorem sameValue_dotFrom (d e : DrawSite) {acc acc' : F32} (hacc : SameValue acc acc')
    {hs cs : List F32} (hlen : hs.length = cs.length) :
    SameValue (dotFrom d acc hs cs)
      ((hs.zip cs).foldl (fun acc p => fadd e acc (fmul e p.1 p.2)) acc') := by
  induction hs generalizing d acc acc' cs with
  | nil => exact hacc
  | cons h hs ih =>
    cases cs with
    | nil => simp at hlen
    | cons c cs =>
      exact ih _ (nanExactlyOn_fadd.sameValue_congr _ _ hacc
        (nanExactlyOn_fmul.sameValue_congr _ _ (.refl h) (.refl c))) (by simpa using hlen)

/-- Settles O16, by induction on the remaining products. -/
theorem dotIsLeftToRightSum : Obligations.DotIsLeftToRightSum := by
  intro d e h c hs cs hlen
  exact sameValue_dotFrom _ e (nanExactlyOn_fmul.sameValue_congr d e (.refl h) (.refl c)) hlen

theorem sameValue_absSumFrom (d e : DrawSite) {acc acc' : F32} (hacc : SameValue acc acc') (xs : Chunk) :
    SameValue (absSumFrom d acc xs) (xs.foldl (fun acc v => fadd e acc (fabs v)) acc') := by
  induction xs generalizing d acc acc' with
  | nil => exact hacc
  | cons x xs ih => exact ih _ (nanExactlyOn_fadd.sameValue_congr _ _ hacc (.refl _))

/-- `f32(n)` is exact up to 2^24 (00_scope.md section 5). -/
theorem signedValue_natValue {n : Nat} (hn : n ≤ 2 ^ 24) :
    signedValue (natValue n) = (n : Int) * 2 ^ 149 := by
  have hle := roundMagnitude_le (n * 2 ^ 149) 1
  obtain ⟨m, hm⟩ := exists_bitsValue_eq 149 n hn
  obtain ⟨k, hk, hround⟩ := exists_nearestBits_roundMagnitude (n * 2 ^ 149) Nat.one_pos
  obtain rfl : k = m := hk.eq_of_exact Nat.one_pos (by rw [hm, Nat.mul_one])
  have hfin : ¬ 0x7F800000 ≤ k := by
    rw [hk.infinite_iff Nat.one_pos]
    omega
  rw [natValue, signedValue_eq, magnitude_eq, isNeg_packValue hle, lowBits_packValue hle, hround,
    Nat.min_eq_left (by omega), hm]
  simp [withSign]

/-- Settles O22, by induction on the samples after the first; f32(N) is a number of at most 24 bits. -/
theorem meanAbsIsMeanOfAbsoluteValues : Obligations.MeanAbsIsMeanOfAbsoluteValues := by
  refine ⟨fun d e n x xs => ?_, fun n => signedValue_natValue⟩
  exact nanExactlyOn_fdiv.sameValue_congr _ _ (sameValue_absSumFrom d e (.refl _) xs) (.refl _)

/-! ## fabs and fgt -/

theorem fgt_eq_of_not_nan {a b : F32} (ha : isNan a = false) (hb : isNan b = false) :
    fgt a b = decide (signedValue b < signedValue a) := by
  simp [fgt, ha, hb]

theorem fgt_of_isNan {a b : F32} (h : isNan a = true ∨ isNan b = true) : fgt a b = false := by
  obtain h | h := h <;> simp [fgt, h]

theorem ratValue_lt_iff (a b : F32) : ratValue b < ratValue a ↔ signedValue b < signedValue a := by
  rw [ratValue, ratValue, div_lt_div_iff_of_pos_right (by positivity), Int.cast_lt]

/-- A finite value lies strictly between the infinities. -/
theorem signedValue_between_infinities {a : F32} (h : isFinite a = true) :
    signedValue 0xFF800000#32 < signedValue a ∧ signedValue a < signedValue 0x7F800000#32 := by
  have hlt : magnitude a < magnitude 0x7F800000#32 :=
    magnitude_lt_of_isFinite_of_isInf h (by decide)
  have hneg : signedValue 0xFF800000#32 = -(magnitude 0x7F800000#32 : Int) := by decide +kernel
  have hpos : signedValue 0x7F800000#32 = magnitude 0x7F800000#32 := by decide +kernel
  have habs := abs_signedValue a
  rw [Int.abs_eq_natAbs] at habs
  omega

theorem getLsbD_fabs (x : F32) (k : Nat) :
    (fabs x).getLsbD k = (x.getLsbD k && decide (k ≠ 31)) := by
  have hmask : ∀ j < 32, (0x7FFFFFFF#32).getLsbD j = decide (j ≠ 31) := by decide
  rw [fabs, BitVec.getLsbD_and]
  by_cases hk : k < 32
  · rw [hmask k hk]
  · simp [BitVec.getLsbD_of_ge x k (by omega)]

/-- Settles O59: fabs bit by bit, and fgt by the order of the signed values. -/
theorem fabsAndFgtMeanings : Obligations.FabsAndFgtMeanings := by
  refine ⟨getLsbD_fabs, fun a b => fgt_of_isNan, fun a b ha hb => ?_, fun a ha => ?_,
    by decide +kernel⟩
  · rw [fgt_eq_of_not_nan (isNan_of_isFinite ha) (isNan_of_isFinite hb), decide_eq_true_eq,
      ratValue_lt_iff]
  · obtain ⟨hlo, hhi⟩ := signedValue_between_infinities ha
    have hnan := isNan_of_isFinite ha
    have hnan_pos : isNan 0x7F800000#32 = false := by decide
    have hnan_neg : isNan 0xFF800000#32 = false := by decide
    rw [fgt_eq_of_not_nan hnan_pos hnan, fgt_eq_of_not_nan hnan hnan_neg,
      fgt_eq_of_not_nan hnan hnan_pos, fgt_eq_of_not_nan hnan_neg hnan]
    exact ⟨decide_eq_true hhi, decide_eq_true hlo, decide_eq_false hhi.not_gt,
      decide_eq_false hlo.not_gt⟩

/-! ## The rounded results (R11, R12) -/

/-- The sign `roundSum` takes is the one of the sum. -/
theorem withSign_sumSign (zeroNeg : Bool) (z : Int) :
    withSign (if z = 0 then zeroNeg else decide (z < 0)) z.natAbs = z := by
  obtain hneg | rfl | hpos := Int.lt_trichotomy z 0
  · rw [if_neg hneg.ne, decide_eq_true hneg, withSign, if_pos rfl]
    omega
  · cases zeroNeg <;> rfl
  · rw [if_neg hpos.ne', decide_eq_false hpos.not_gt, withSign, if_neg Bool.false_ne_true]
    omega

theorem roundedToNearestEven_roundSum (zeroNeg : Bool) (z : Int) :
    RoundedToNearestEven (roundSum zeroNeg z) 1 z := by
  have h := roundedToNearestEven_packValue (if z = 0 then zeroNeg else decide (z < 0)) z.natAbs
    Nat.one_pos
  rwa [withSign_sumSign] at h

theorem isZero_roundSum (zeroNeg : Bool) (z : Int) : isZero (roundSum zeroNeg z) = true ↔ z = 0 := by
  obtain ⟨k, hk, hround⟩ := exists_nearestBits_roundMagnitude z.natAbs Nat.one_pos
  have hzero := hk.eq_zero_iff
  rw [roundSum, isZero_eq, lowBits_packValue (roundMagnitude_le _ _), hround, decide_eq_true_eq]
  omega

theorem isNeg_roundSum (zeroNeg : Bool) (z : Int) :
    isNeg (roundSum zeroNeg z) = if z = 0 then zeroNeg else decide (z < 0) :=
  isNeg_packValue (roundMagnitude_le _ _)

/-- An infinite operand of a valid sum is the sum. -/
theorem fadd_of_isInf (d : DrawSite) {a b : F32} (ha : isInf a = true) (hb : isNan b = false)
    (hs : isInf b = true → isNeg a = isNeg b) : fadd d a b = a ∧ fadd d b a = a := by
  have hna := isNan_of_isInf ha
  have hab : ¬ AddInvalid a b := by simpa [hna, hb, ha] using hs
  have hba : ¬ AddInvalid b a := by
    rintro (h | h | ⟨hbi, -, hne⟩)
    · exact absurd h (by simp [hb])
    · exact absurd h (by simp [hna])
    · exact hne (hs hbi).symm
  rw [fadd_of_valid hab, fadd_of_valid hba, if_pos ha, if_pos ha]
  refine ⟨rfl, ?_⟩
  split_ifs with hbi
  · refine eq_of_isNeg_eq_of_lowBits_eq (hs hbi).symm ?_
    rw [isInf_eq, decide_eq_true_eq] at ha hbi
    rw [ha, hbi]
  · rfl

/-- Settles O55: the sum is exact in units of 2^-149 and is rounded once. -/
theorem addRoundsToNearestEven : Obligations.AddRoundsToNearestEven := by
  refine ⟨fun d a b ha hb => ?_, fun d a b => fadd_of_isInf d, fun d a b => rfl⟩
  simp only [fadd_of_isFinite ha hb]
  obtain ⟨hnan, hinf, hnear⟩ :=
    roundedToNearestEven_roundSum (isNeg a && isNeg b) (signedValue a + signedValue b)
  simp only [Nat.cast_one, mul_one] at hinf hnear
  refine ⟨hnan, hinf, hnear, isZero_roundSum _ _, fun hz => ?_, fun hz => ?_⟩
  · rw [isNeg_roundSum, if_neg hz]
  · rw [isNeg_roundSum, if_pos hz]

theorem isInf_fmul_of_isInf (d : DrawSite) {a b : F32} (ha : isInf a = true) (hb : isNan b = false)
    (hz : isZero b = false) : isInf (fmul d a b) = true ∧ isInf (fmul d b a) = true := by
  have hna := isNan_of_isInf ha
  have hza := isZero_of_isInf ha
  have hab : ¬ MulInvalid a b := by simp [hna, hza, hb, hz]
  have hba : ¬ MulInvalid b a := by simp [hna, hza, hb, hz]
  rw [fmul_of_valid hab, fmul_of_valid hba, mulBits, mulBits, ha, Bool.true_or, Bool.or_true]
  exact ⟨isInf_infinity _, isInf_infinity _⟩

theorem isNeg_fmul {d : DrawSite} {a b : F32} (h : isNan (fmul d a b) = false) :
    isNeg (fmul d a b) = (isNeg a != isNeg b) := by
  have hvalid : ¬ MulInvalid a b := by
    rw [← nanExactlyOn_fmul.isNan_iff d, h]
    decide
  rw [fmul_of_valid hvalid, isNeg_packValue (mulBits_le a b)]

/-- Settles O56: the product is exact in units of 2^-298 and is rounded once. -/
theorem mulRoundsToNearestEven : Obligations.MulRoundsToNearestEven := by
  refine ⟨fun d a b ha hb => ?_, fun d a b => isInf_fmul_of_isInf d, fun d a b => isNeg_fmul⟩
  have h := roundedToNearestEven_packValue (isNeg a != isNeg b) (magnitude a * magnitude b)
    (Nat.two_pow_pos 149)
  rw [← fmul_of_isFinite (d := d) ha hb, Nat.cast_mul, ← withSign_mul] at h
  simpa only [RoundedToNearestEven, Nat.cast_pow, Nat.cast_ofNat, ← signedValue_eq] using h

theorem isInf_fdiv_of_isZero (d : DrawSite) {a b : F32} (ha : isFinite a = true)
    (haz : isZero a = false) (hb : isZero b = true) : isInf (fdiv d a b) = true := by
  have hvalid : ¬ DivInvalid a b := by
    simp [isNan_of_isFinite ha, isInf_of_isFinite ha, haz, isNan_of_isZero hb]
  rw [fdiv_of_valid hvalid, divBits, hb, Bool.or_true]
  exact isInf_infinity _

theorem fdiv_infinite_operand (d : DrawSite) {a b : F32} (ha : isInf a = true)
    (hb : isFinite b = true) : isInf (fdiv d a b) = true ∧ isZero (fdiv d b a) = true := by
  have hna := isNan_of_isInf ha
  have hza := isZero_of_isInf ha
  have hnb := isNan_of_isFinite hb
  have hib := isInf_of_isFinite hb
  have hab : ¬ DivInvalid a b := by simp [hna, hza, hnb, hib]
  have hba : ¬ DivInvalid b a := by simp [hna, hza, hnb, hib]
  rw [fdiv_of_valid hab, fdiv_of_valid hba, divBits, divBits, ha, hib, hza]
  exact ⟨isInf_infinity _, isZero_signedZero _⟩

theorem isNeg_fdiv {d : DrawSite} {a b : F32} (h : isNan (fdiv d a b) = false) :
    isNeg (fdiv d a b) = (isNeg a != isNeg b) := by
  have hvalid : ¬ DivInvalid a b := by
    rw [← nanExactlyOn_fdiv.isNan_iff d, h]
    decide
  rw [fdiv_of_valid hvalid, isNeg_packValue (divBits_le a b)]

/-- Settles O57: the quotient is compared after multiplying by the divisor, whose sign moves to the
dividend. -/
theorem divRoundsToNearestEven : Obligations.DivRoundsToNearestEven := by
  refine ⟨fun d a b ha hb hz => ?_, fun d a b => isInf_fdiv_of_isZero d,
    fun d a b => fdiv_infinite_operand d, fun d a b => isNeg_fdiv⟩
  have hq : 0 < magnitude b := Nat.pos_of_ne_zero fun h => by
    rw [magnitude_eq_zero_iff, hz] at h
    exact absurd h (by decide)
  have h := roundedToNearestEven_packValue (isNeg a != isNeg b) (magnitude a * 2 ^ 149) hq
  rw [← fdiv_of_isFinite (d := d) ha hb hz] at h
  have hdividend : signedValue a * 2 ^ 149 = withSign (isNeg a) (magnitude a * 2 ^ 149 : Nat) := by
    rw [signedValue_eq, withSign, withSign]
    push_cast
    split_ifs <;> ring
  have hdist : ∀ c : F32, |signedValue c * signedValue b - signedValue a * 2 ^ 149| =
      |signedValue c * magnitude b -
        withSign (isNeg a != isNeg b) (magnitude a * 2 ^ 149 : Nat)| := fun c => by
    rw [hdividend, signedValue_eq b, abs_mul_withSign_sub]
  simp only [hdist]
  rw [hdividend, abs_withSign, abs_signedValue]
  rwa [RoundedToNearestEven, abs_withSign] at h

end Sys2Proof.Machine
end

section
/-! PROOFS. CSR.READ of the registers at fixed addresses and the fields of STATUS (10_state.md R42, R43).
Settles O45 and O47. -/

namespace Sys2Proof.Machine

/-! ## CSR.READ (45_register_access.md R220, R221) -/

/-- CSR.READ answers the value of a register in either mode and while halted, and changes nothing else. -/
theorem exec_csrRead_of_register {s : State} {r : Request} {rs : List Request} {a : BitVec 16}
    {v : BitVec 32} (hw : s.waiting .direct = r :: rs) (hv : readRegister s a = some v) :
    exec (.csrRead a) s = .next (answered .direct .ok (.value v) rs s) := by
  have hown (own : State) : checked (.csrRead a) s own = own := checked_own (.inr rfl) rfl rfl
  rw [← respond_eq_answered _ _ _ _ r rs hw]
  simp only [exec, execCsrRead, hown, hv]

/-- Settles O45: at each listed address `readRegister` gives the listed value. -/
theorem csrReadFixedRegisters : Obligations.CsrReadFixedRegisters := by
  intro s r rs hw a v hav
  refine exec_csrRead_of_register hw ?_
  simp only [List.cons_append, List.nil_append, List.mem_cons, Prod.mk.injEq, List.not_mem_nil,
    or_false] at hav
  obtain h | h | h | h | h | h | h | h | h | h | h | h | h | h | h | h | h | h | h | h | h | h | h |
    h | h := hav <;> obtain ⟨rfl, rfl⟩ := h <;> rfl

/-! ## The STATUS register (R43) -/

theorem toNat_append_eq_add {m n : Nat} (x : BitVec m) (y : BitVec n) :
    (x ++ y).toNat = x.toNat * 2 ^ n + y.toNat := by
  rw [BitVec.toNat_append, ← Nat.shiftLeft_add_eq_or_of_lt y.isLt, Nat.shiftLeft_eq]

theorem getLsbD_eq_of_toNat {n k : Nat} {x : BitVec n} {b : Bool}
    (h : x.toNat / 2 ^ k % 2 = b.toNat) : x.getLsbD k = b := by
  rw [BitVec.getLsbD, Nat.testBit_eq_decide_div_mod_eq, h]
  cases b <;> rfl

theorem extractLsb'_eq_of_toNat {n k m : Nat} {x : BitVec n} {y : BitVec m}
    (h : x.toNat / 2 ^ k % 2 ^ m = y.toNat) : x.extractLsb' k m = y :=
  BitVec.eq_of_toNat_eq (by rw [BitVec.extractLsb'_toNat, Nat.shiftRight_eq_div_pow, h])

theorem SeqPhase.code_toNat (p : SeqPhase) : p.code.toNat = (decide (p = .wait)).toNat := by
  cases p <;> rfl

theorem modeCode_toNat (m : Mode) : (modeCode m).toNat = (decide (m = .direct)).toNat := by
  cases m <;> rfl

/-- STATUS as a number: each field at its place and nothing between them. -/
theorem statusWord_toNat (s : State) :
    (statusWord s).toNat = s.seqState.code.toNat + (decide (s.seqPhase = .wait)).toNat * 2 ^ 2 +
      (decide (s.mode = .direct)).toNat * 2 ^ 3 + s.capClosed.toNat * 2 ^ 4 +
      s.cmdClosed.toNat * 2 ^ 5 + s.fatal.toNat * 2 ^ 8 + s.cause.toNat * 2 ^ 12 +
      s.sink1En.toNat * 2 ^ 16 + s.sink2En.toNat * 2 ^ 17 := by
  simp only [statusWord, toNat_append_eq_add, BitVec.toNat_ofBool, BitVec.toNat_ofNat,
    SeqPhase.code_toNat, modeCode_toNat]
  omega

/-- Settles O47: each field is read off the number STATUS stands for, as no field reaches into the next. -/
theorem statusRegisterFields : Obligations.StatusRegisterFields := by
  intro s
  have hword := statusWord_toNat s
  have hstate : s.seqState.code.toNat < 4 := s.seqState.code.isLt
  have hphase := (decide (s.seqPhase = .wait)).toNat_le
  have hmode := (decide (s.mode = .direct)).toNat_le
  have hcap := s.capClosed.toNat_le
  have hcmd := s.cmdClosed.toNat_le
  have hfatal := s.fatal.toNat_le
  have hcause : s.cause.toNat < 16 := s.cause.isLt
  have hsink1 := s.sink1En.toNat_le
  have hsink2 := s.sink2En.toNat_le
  have state : (statusWord s).extractLsb' 0 2 = s.seqState.code := extractLsb'_eq_of_toNat (by omega)
  have phase : (statusWord s).getLsbD 2 = decide (s.seqPhase = .wait) :=
    getLsbD_eq_of_toNat (by omega)
  have mode : (statusWord s).getLsbD 3 = decide (s.mode = .direct) := getLsbD_eq_of_toNat (by omega)
  refine ⟨?_, by rw [phase, decide_eq_true_eq], by rw [mode, decide_eq_true_eq],
    getLsbD_eq_of_toNat (by omega), getLsbD_eq_of_toNat (by omega),
    extractLsb'_eq_of_toNat (by rw [BitVec.toNat_ofNat]; omega), getLsbD_eq_of_toNat (by omega),
    extractLsb'_eq_of_toNat (by rw [BitVec.toNat_ofNat]; omega), extractLsb'_eq_of_toNat (by omega),
    getLsbD_eq_of_toNat (by omega), getLsbD_eq_of_toNat (by omega),
    extractLsb'_eq_of_toNat (by rw [BitVec.toNat_ofNat]; omega)⟩
  rw [state]
  cases s.seqState <;> rfl

end Sys2Proof.Machine
end

section
/-! PROOFS. What no step writes: the parameters and the mode (00_scope.md R7, 10_state.md R20, R35).
Settles O52. -/

namespace Sys2Proof.Machine

/-- The parameters and the mode are as before. -/
def SameSetup (s t : State) : Prop := t.cfg = s.cfg ∧ t.mode = s.mode

/-! ## Port operations -/

theorem sameSetup_checked (i : Instr) {s own : State} (h : SameSetup s own) :
    SameSetup s (checked i s own) := by
  obtain ⟨hc, -⟩ | ⟨hc, -⟩ | ⟨hc, -⟩ | ⟨hc, -⟩ := checked_cases i s own <;> rw [hc]
  exacts [⟨rfl, rfl⟩, ⟨rfl, rfl⟩, ⟨rfl, rfl⟩, h]

theorem sameSetup_acceptCommand (i : Instr) (s : State) : SameSetup s (acceptCommand i s) := by
  obtain ⟨-, h⟩ | ⟨-, -, h⟩ := acceptCommand_cases i s <;> rw [h] <;> exact ⟨rfl, rfl⟩

theorem sameSetup_fillStep (c l : Nat) (s : State) : SameSetup s (fillStep c l s) := by
  unfold fillStep
  split_ifs
  · obtain ⟨-, -, h⟩ | ⟨-, -, h⟩ | ⟨x, q, -, -, h⟩ | ⟨x, q, -, -, h⟩ := fillTopUp_cases s <;>
      rw [h] <;> exact ⟨rfl, rfl⟩
  · split
    next out t h =>
      rw [(fillOutput_frame h).2]
      exact ⟨rfl, rfl⟩
    next => exact ⟨rfl, rfl⟩

/-- Every operation answers with a next state of the same parameters and mode. -/
theorem exec_sameSetup (i : Instr) (s : State) : ∃ t, exec i s = .next t ∧ SameSetup s t := by
  cases i with
  | cmdAm | cmdAgc | cmdAf | cmdRssi | cmdIfout | cmdEnd =>
    exact ⟨_, rfl, sameSetup_checked _ (sameSetup_acceptCommand _ s)⟩
  | firSelIf | firSelAf | firRunIf | firRunAf | agcSel | agcRun | envRun | ncoGen | ifClose =>
    exact ⟨_, rfl, sameSetup_checked _ ⟨rfl, rfl⟩⟩
  | ncoInit | ifSend =>
    refine ⟨_, rfl, sameSetup_checked _ ?_⟩
    extract_lets
    split_ifs <;> exact ⟨rfl, rfl⟩
  | rbPush =>
    refine ⟨_, rfl, sameSetup_checked _ ?_⟩
    split
    next t h =>
      rw [(rbPushChunk_some h).2]
      exact ⟨rfl, rfl⟩
    next => exact ⟨rfl, rfl⟩
  | rbPop =>
    refine ⟨_, rfl, sameSetup_checked _ ?_⟩
    split
    next v t h =>
      rw [(rbPopSample_some h).2.2]
      exact ⟨rfl, rfl⟩
    next => exact ⟨rfl, rfl⟩
  | rbFill => exact ⟨_, rfl, sameSetup_checked _ (sameSetup_fillStep _ _ s)⟩
  | csrRead =>
    refine ⟨_, rfl, sameSetup_checked _ ?_⟩
    split <;> exact ⟨rfl, rfl⟩

theorem sameSetup_refuseWord (p : Port) (w : OpWord) (s : State) :
    SameSetup s (refuseWord p w s) := by
  obtain ⟨h, -⟩ | ⟨h, -⟩ | ⟨h, -⟩ := refuseWord_cases p w s <;> rw [h] <;> exact ⟨rfl, rfl⟩

theorem portStep_sameSetup (p : Port) (s : State) : ∃ t, portStep p s = .next t ∧ SameSetup s t := by
  obtain ⟨-, h⟩ | ⟨r, rs, i, -, -, -, h⟩ | ⟨r, rs, -, -, h⟩ := portStep_cases p s <;> rw [h]
  · exact ⟨s, rfl, rfl, rfl⟩
  · exact exec_sameSetup i s
  · exact ⟨_, rfl, sameSetup_refuseWord p r.word s⟩

/-! ## The sequencer -/

theorem sameSetup_applyWord (w : OpWord) (s : State) : SameSetup s (applyWord w s) := by
  unfold applyWord
  split
  next i h => cases i <;> exact ⟨rfl, rfl⟩
  next => exact ⟨rfl, rfl⟩

theorem sameSetup_pollStep (s : State) : SameSetup s (pollStep s) := by
  unfold pollStep
  split
  next => exact ⟨rfl, rfl⟩
  next w rest h => exact sameSetup_applyWord w { s with cmdQ := rest }

theorem sameSetup_waitStep (f1 f2 : Bool) (s : State) : SameSetup s (waitStep f1 f2 s) := by
  obtain ⟨-, -, h⟩ | ⟨-, -, h⟩ | ⟨x, q, -, h⟩ := waitStep_cases f1 f2 s <;> rw [h] <;>
    exact ⟨rfl, rfl⟩

theorem sameSetup_sequencerStep (f1 f2 : Bool) (s : State) :
    SameSetup s (sequencerStep f1 f2 s) := by
  obtain ⟨-, h⟩ | ⟨-, -, h⟩ | ⟨-, -, h⟩ := sequencerStep_cases f1 f2 s <;> rw [h]
  exacts [⟨rfl, rfl⟩, sameSetup_pollStep s, sameSetup_waitStep f1 f2 s]

theorem sameSetup_arrive (p : Port) (r : Request) (s : State) : SameSetup s (arrive p r s) := by
  unfold arrive
  split_ifs <;> exact ⟨rfl, rfl⟩

/-- Settles O52: reset takes the mode from the strap, and no other input writes either. -/
theorem parametersAndModeAreFixed : Obligations.ParametersAndModeAreFixed := by
  intro s t hst
  have of_sameSetup (h : SameSetup (takeInput s) t) :
      t.cfg = s.cfg ∧ (s.mode = s.cfg.mode → t.mode = s.mode) := ⟨h.1, fun _ => h.2⟩
  obtain ⟨p, r, -, h⟩ | ⟨p, -, h⟩ | ⟨f1, f2, -, h⟩ | ⟨-, h⟩ := step_cases s <;> rw [h] at hst
  · cases hst
    exact of_sameSetup (sameSetup_arrive p r _)
  · obtain ⟨u, hu, hsame⟩ := portStep_sameSetup p (takeInput s)
    rw [hu] at hst
    cases hst
    exact of_sameSetup hsame
  · cases hst
    exact of_sameSetup (sameSetup_sequencerStep f1 f2 _)
  · cases hst
    exact ⟨rfl, fun hmode => hmode.symm⟩

end Sys2Proof.Machine
end

section
/-! PROOFS. The phase of the oscillator stays in [0, TWO_PI) (42_nco.md R142, R143): the sum of a phase in
range and a legal increment rounds to a value of at least −TWO_PI, and wrapping it brings it back. -/

namespace Sys2Proof.Machine

/-! ## Phases and increments as numbers -/

theorem fgt_iff {a b : F32} :
    fgt a b = true ↔ isNan a = false ∧ isNan b = false ∧ signedValue b < signedValue a := by
  simp [fgt, and_assoc]

theorem isFinite_of_not_nan_of_not_inf {x : F32} (hnan : isNan x = false) (hinf : isInf x = false) :
    isFinite x = true := by
  simp only [isNan_eq, isInf_eq, isFinite_eq, decide_eq_true_eq, decide_eq_false_iff_not] at *
  omega

theorem signedValue_of_not_isNeg {x : F32} (h : isNeg x = false) : signedValue x = magnitude x := by
  simp [signedValue, h]

theorem toNat_fabs (x : F32) : (fabs x).toNat = lowBits x := by
  rw [fabs, BitVec.toNat_and]
  exact Nat.and_two_pow_sub_one_eq_mod x.toNat 31

theorem signedValue_fabs (x : F32) : signedValue (fabs x) = magnitude x := by
  have hlt : lowBits x < 2 ^ 31 := Nat.mod_lt _ (by decide)
  have hneg : isNeg (fabs x) = false := by
    rw [isNeg_eq, toNat_fabs, decide_eq_false_iff_not]
    omega
  have hlow : lowBits (fabs x) = lowBits x := by
    rw [lowBits, toNat_fabs, Nat.mod_eq_of_lt hlt]
  rw [signedValue_of_not_isNeg hneg, magnitude_eq, magnitude_eq, hlow]

/-- A legal increment is a finite value between −TWO_PI and TWO_PI (R141). -/
theorem bounds_of_ncoLegal {delta : F32} (h : ncoLegal delta = true) :
    isFinite delta = true ∧ |signedValue delta| < signedValue twoPi := by
  simp only [ncoLegal, Bool.and_eq_true, Bool.not_eq_true', fgt_iff, signedValue_fabs] at h
  obtain ⟨⟨hnan, hinf⟩, -, -, hlt⟩ := h
  exact ⟨isFinite_of_not_nan_of_not_inf hnan hinf, by rwa [abs_signedValue]⟩

/-- A phase in range is a finite value from 0 to below TWO_PI (R143). -/
theorem PhaseInRange.bounds {p : F32} (h : PhaseInRange p) :
    isFinite p = true ∧ 0 ≤ signedValue p ∧ signedValue p < signedValue twoPi := by
  obtain ⟨hneg, hlt⟩ := h
  obtain ⟨-, hnan, hlt⟩ := fgt_iff.1 hlt
  have hval := signedValue_of_not_isNeg hneg
  refine ⟨isFinite_of_not_nan_of_not_inf hnan ?_, by omega, hlt⟩
  by_contra hinf
  have hmag := magnitude_lt_of_isFinite_of_isInf (show isFinite twoPi = true by decide)
    ((Bool.not_eq_false _).mp hinf)
  have htwoPi : signedValue twoPi = magnitude twoPi := signedValue_of_not_isNeg (by decide)
  omega

theorem phaseInRange_zero : PhaseInRange 0#32 := by decide +kernel

/-! ## The sum before wrapping -/

/-- What wrapping needs of the sum: a finite value of at least −TWO_PI, and no −0.0. -/
structure Wrappable (q : F32) : Prop where
  finite : isFinite q = true
  lower : -signedValue twoPi ≤ signedValue q
  neg_of_isNeg : isNeg q = true → signedValue q < 0

theorem wrappable_fadd {p delta : F32} (d : DrawSite) (hp : PhaseInRange p)
    (hdelta : ncoLegal delta = true) : Wrappable (fadd d p delta) := by
  obtain ⟨hpfin, hp0, hplt⟩ := hp.bounds
  obtain ⟨hdfin, hdlt⟩ := bounds_of_ncoLegal hdelta
  rw [fadd_of_isFinite hpfin hdfin, hp.1, Bool.false_and]
  rw [abs_lt] at hdlt
  generalize hz : signedValue p + signedValue delta = z
  obtain ⟨hnan, hinf, hnear⟩ := roundedToNearestEven_roundSum false z
  simp only [Nat.cast_one, mul_one] at hinf hnear
  have hfin : isFinite (roundSum false z) = true := by
    refine isFinite_of_not_nan_of_not_inf hnan ?_
    have hbound : 2 * signedValue twoPi < (2 ^ 25 - 1) * 2 ^ 252 := by decide +kernel
    have hsmall : |z| < 2 * signedValue twoPi := by
      rw [abs_lt]
      omega
    rw [← Bool.not_eq_true, hinf]
    omega
  refine ⟨hfin, ?_, fun hneg => ?_⟩
  · -- −TWO_PI is a binary32 value not above the exact sum, so nothing below it is nearest.
    obtain ⟨hle, -⟩ := hnear hfin (fneg twoPi) (by decide)
    have hfneg : signedValue (fneg twoPi) = -signedValue twoPi := by decide +kernel
    rw [hfneg, Int.abs_eq_natAbs, Int.abs_eq_natAbs] at hle
    omega
  · have hz0 : z ≠ 0 := by
      rintro rfl
      simp [isNeg_roundSum] at hneg
    have hmag : magnitude (roundSum false z) ≠ 0 := by
      rw [Ne, magnitude_eq_zero_iff, isZero_roundSum]
      exact hz0
    rw [signedValue_eq, hneg, withSign, if_pos rfl]
    omega

/-! ## Wrapping -/

/-- The last line of `wrap`: what is not below TWO_PI becomes +0.0. -/
theorem phaseInRange_of_reset_at_twoPi {r : F32} (hr : isNeg r = false) :
    PhaseInRange (if !fgt twoPi r then 0#32 else r) := by
  split_ifs with h
  · exact phaseInRange_zero
  · exact ⟨hr, by simpa using h⟩

theorem isNeg_fadd_of_nonneg (d : DrawSite) {a b : F32} (ha : isFinite a = true)
    (hb : isFinite b = true) (hneg : (isNeg a && isNeg b) = false)
    (h : 0 ≤ signedValue a + signedValue b) : isNeg (fadd d a b) = false := by
  rw [fadd_of_isFinite ha hb, isNeg_roundSum, hneg, decide_eq_false h.not_gt, ite_self]

/-- Wrapping brings the sum back into the range of a phase (R143). -/
theorem Wrappable.phaseInRange_wrapPhase {q : F32} (hq : Wrappable q) (e : DrawSite) :
    PhaseInRange (wrapPhase e q) := by
  obtain ⟨hfin, hlower, hneg⟩ := hq
  have hnan := isNan_of_isFinite hfin
  have hfgt_twoPi : fgt twoPi q = decide (signedValue q < signedValue twoPi) :=
    fgt_eq_of_not_nan (by decide) hnan
  have hfgt_zero : fgt 0#32 q = decide (signedValue q < 0) := fgt_eq_of_not_nan (by decide) hnan
  have hpos : 0 < signedValue twoPi := by decide +kernel
  have hfneg : signedValue (fneg twoPi) = -signedValue twoPi := by decide +kernel
  refine phaseInRange_of_reset_at_twoPi ?_
  split_ifs with hhigh hlow
  · rw [hfgt_twoPi, Bool.not_eq_true', decide_eq_false_iff_not] at hhigh
    have hq : isNeg q = false := by
      by_contra h
      have := hneg (by simpa using h)
      omega
    exact isNeg_fadd_of_nonneg _ hfin (by decide) (by rw [hq, Bool.false_and]) (by omega)
  · have hneg_twoPi : isNeg twoPi = false := by decide
    exact isNeg_fadd_of_nonneg _ hfin (by decide) (by rw [hneg_twoPi, Bool.and_false]) (by omega)
  · rw [hfgt_zero, decide_eq_true_eq] at hlow
    by_contra h
    exact hlow (hneg (by simpa using h))

theorem phaseInRange_wrapPhase_fadd (d e : DrawSite) {p delta : F32} (hp : PhaseInRange p)
    (hdelta : ncoLegal delta = true) : PhaseInRange (wrapPhase e (fadd d p delta)) :=
  (wrappable_fadd d hp hdelta).phaseInRange_wrapPhase e

/-- Every phase of a generation is in range (R142). -/
theorem phaseInRange_ncoSamples {delta : F32} (hdelta : ncoLegal delta = true) (k : Nat) (d : DrawSite)
    {p : F32} (hp : PhaseInRange p) : PhaseInRange (ncoSamples delta k d p).1 := by
  induction k generalizing d p with
  | zero => exact hp
  | succ k ih => exact ih d.nextSample (phaseInRange_wrapPhase_fadd d d hp hdelta)

end Sys2Proof.Machine
end

section
/-! PROOFS. The reset state meets the invariant of the machine, for all legal parameters (10_state.md R44,
70_reset_and_hazards.md R263). Settles O54. -/

namespace Sys2Proof.Machine

/-! ## Legal parameters -/

theorem tapsLegal_iff {c : List F32} : tapsLegal c = true ↔ 1 ≤ c.length ∧ c.length ≤ 4096 := by
  simp [tapsLegal]

section

variable {c : Params} (h : c.wf = true)

include h

theorem one_le_n_of_wf : 1 ≤ c.n := by
  simp only [Params.wf, Bool.and_eq_true, decide_eq_true_eq] at h
  omega

theorem cap_pos_of_wf : 0 < c.cap := by
  have := one_le_n_of_wf h
  unfold Params.cap
  omega

theorem one_le_ifTaps_of_wf (k : IfSpec) : 1 ≤ c.ifTaps k := by
  simp only [Params.wf, Bool.and_eq_true, tapsLegal_iff] at h
  cases k <;> simp only [Params.ifTaps, Params.ifRom, List.length_singleton] <;> omega

theorem one_le_afTaps_of_wf (k : AfSpec) : 1 ≤ c.afTaps k := by
  simp only [Params.wf, Bool.and_eq_true, tapsLegal_iff] at h
  cases k <;> simp only [Params.afTaps, Params.afRom] <;> omega

end

/-! ## The parameters of `State.reset` (log entry 2) -/

theorem tapsLegal_table (r : Fin 6) : tapsLegal (Config.table r) = true := by
  rw [tapsLegal_iff, Config.table, List.length_cons, List.length_take]
  omega

/-- The parameters drawn are legal, whatever is drawn. -/
theorem wf_params : Config.params.wf = true := by
  have hn : Config.params.n ≤ 2 ^ 24 := Config.chunkSizeDraw.isLt
  have hn1 : 1 ≤ Config.params.n := Nat.succ_pos _
  have hfs : Config.params.fs.toNat = Config.rateDraw.toNat % 0x7F7FFFFF + 1 := by
    rw [Config.params, BitVec.toNat_ofNat]
    omega
  have hfs_lt : Config.rateDraw.toNat % 0x7F7FFFFF < 0x7F7FFFFF := Nat.mod_lt _ (by decide)
  have htaps (r : Fin 6) := tapsLegal_table r
  have hagc (k : Fin 5) := agcTaps_sumsToOne k
  simp only [Params.wf, Bool.and_eq_true, decide_eq_true_eq, and_assoc]
  exact ⟨hn1, hn, by omega, by omega, htaps 0, htaps 1, htaps 2, htaps 3, htaps 4, htaps 5,
    hagc 0, hagc 1, hagc 2, hagc 3, hagc 4⟩

/-! ## The reset state -/

theorem ncoLegal_zero : ncoLegal 0#32 = true := by decide +kernel

theorem inv_resetWith {c : Params} (h : c.wf = true) : (State.resetWith c).Inv where
  params := ⟨h, rfl⟩
  history := ⟨List.length_replicate, List.length_replicate⟩
  ring := ⟨Nat.zero_le _, cap_pos_of_wf h, (Nat.zero_mod _).symm, rfl,
    fun j hj => absurd hj (Nat.not_lt_zero j)⟩
  nco := ⟨phaseInRange_zero, ncoLegal_zero⟩
  channel := by simp [ChannelInv, State.resetWith]
  port := by simp [PortInv, State.resetWith]
  termination := by simp [TerminationInv, State.resetWith]
  cause := by simp [CauseInv, State.resetWith]
  sink := by simp [State.resetWith]
  direct := by simp [DirectInv, State.resetWith]

/-- Settles O54: the parameters drawn for `State.reset` are legal ones. -/
theorem resetMeetsInvariant : Obligations.ResetMeetsInvariant :=
  ⟨fun _ => inv_resetWith, inv_resetWith wf_params⟩

end Sys2Proof.Machine
end

section
/-! PROOFS. Every step keeps the invariant of the machine (10_state.md R24, R29; 42_nco.md R143; 44_chain.md
R200; 60_exceptions.md R232). For each update of the state the parts of the invariant that read a field it
writes are proved again; the other parts carry over as they stand. Settles O53. -/

namespace Sys2Proof.Machine

/-! ## Parts of the invariant -/

/-- The invariant of the ports, port by port. -/
theorem portInv_iff {s : State} :
    PortInv s ↔ ∀ p, ∀ r ∈ s.waiting p, r.formed s.cfg.n p = true :=
  ⟨fun ⟨hcmd, hcap, hplay, hdir⟩ p => by cases p; exacts [hcmd, hcap, hplay, hdir],
    fun hall => ⟨hall .command, hall .capture, hall .playback, hall .direct⟩⟩

theorem directInv_of_chain {s : State} (hm : s.mode = .chain) : DirectInv s := fun hd => by
  rw [hm] at hd
  cases hd

/-- A failure draw disables a sink and never enables one (44_chain.md R203). -/
theorem sinkInv_telemetry {s : State} (f1 f2 : Bool) (x : Chunk) (m : F32) (h : SinkInv s) :
    SinkInv (telemetry f1 f2 x m s) :=
  ⟨fun h0 => Bool.and_eq_false_imp.2 fun hen => absurd hen (Bool.eq_false_iff.1 (h.1 h0)),
    fun h0 => Bool.and_eq_false_imp.2 fun hen => absurd hen (Bool.eq_false_iff.1 (h.2 h0))⟩

/-! ## The words of cmdQ (44_chain.md R181, R187) -/

theorem decodeWord_encodeWord_of_command {i : Instr} (hi : i.port = .command) :
    decodeWord (encodeWord i) = .ok i := by
  cases i with
  | cmdAm | cmdAgc | cmdAf | cmdRssi | cmdIfout | cmdEnd =>
    simp [encodeWord, decodeWord, decodePlain, decodeCommand, noArg, Instr.op, Instr.sub, Instr.arg]
  | firSelIf | firSelAf | firRunIf | firRunAf | agcSel | agcRun | envRun | ncoInit | ncoGen | rbPush
  | rbPop | rbFill | ifSend | ifClose | csrRead => cases hi

theorem isCommandWord_encodeWord {i : Instr} (hi : i.port = .command) :
    IsCommandWord (encodeWord i) := by
  simp [IsCommandWord, decodeOnPort, decodeWord_encodeWord_of_command hi, hi]

theorem op_of_encodeWord_eq_endWord {i : Instr} (h : encodeWord i = endWord) : i.op = 0x0F#8 := by
  rw [← (Laws.Fields.of_encode i).1, h]
  decide

/-- Of all branches of the class decoders only the one of OP 0x0F and a zero ARG gives CMD.END. -/
theorem decodePlain_eq_cmdEnd {op : BitVec 8} {arg : BitVec 32}
    (h : decodePlain op arg = .ok .cmdEnd) : op = 0x0F#8 ∧ arg = 0#32 := by
  simp only [decodePlain, decodeCommand, decodeFilter, decodeLevel, decodeNco, decodeRing,
    decodeCapture, decodeRegister, noArg] at h
  grind

theorem eq_endWord_of_decodeWord {w : OpWord} (h : decodeWord w = .ok .cmdEnd) : w = endWord := by
  unfold decodeWord at h
  split_ifs at h with hres hfill hzero hsub
  · cases h
  · obtain ⟨hop, harg⟩ := decodePlain_eq_cmdEnd h
    rw [not_not] at hres hsub
    rw [← mkWord_fields w, hop, hsub, hres, harg]
    decide

theorem exists_decodeWord_of_isCommandWord {w : OpWord} (h : IsCommandWord w) :
    ∃ i, decodeWord w = .ok i := by
  cases hdec : decodeWord w with
  | ok i => exact ⟨i, rfl⟩
  | error e => simp [IsCommandWord, decodeOnPort, hdec] at h

/-! ## The sequencer's functions, case by case (44_chain.md R196 to R200) -/

theorem forwardChunk_seqState (f1 f2 : Bool) (x : Chunk) (rest : List Chunk) (s : State) :
    (forwardChunk f1 f2 x rest s).seqState =
      if s.seqState = .terminating then .stopped else s.seqState := rfl

theorem sequencerEnabled_iff {s : State} :
    sequencerEnabled s = true ↔ s.fatal = false ∧ s.mode = .chain ∧ s.seqState ≠ .stopped := by
  simp [sequencerEnabled, and_assoc]

theorem pollStep_of_nil {s : State} (hq : s.cmdQ = []) :
    pollStep s = { s with seqPhase := .wait } := by
  simp only [pollStep, hq]

/-- The Poll step on a waiting command applies it and goes to Wait. -/
theorem pollStep_of_cons {s : State} {w : OpWord} {rest : List OpWord} {i : Instr}
    (hq : s.cmdQ = w :: rest) (hdec : decodeWord w = .ok i) :
    pollStep s = applyCommand i { s with cmdQ := rest, seqPhase := .wait } := by
  simp only [pollStep, hq, applyWord, hdec]
  cases i <;> rfl

section

variable {s : State} (h : s.Inv)

include h

/-! ## The units -/

theorem inv_selectIf (k : IfSpec) : (selectIf k s).Inv :=
  { h with history := ⟨List.length_replicate, h.history.2⟩ }

theorem inv_selectAf (k : AfSpec) : (selectAf k s).Inv :=
  { h with history := ⟨h.history.1, List.length_replicate⟩ }

theorem inv_selectAgc (k : AgcSpec) : (selectAgc k s).Inv := { h with }

theorem ifStage_length (x : Chunk) :
    (ifStage s x).1.length = s.cfg.ifTaps s.ifSpec ∧ (ifStage s x).2.length = x.length := by
  have hlen := h.history.1
  unfold ifStage
  split_ifs with hnone
  · rw [hnone]
    exact ⟨rfl, rfl⟩
  · rw [← hlen]
    exact firChunk_length _ _ _ _ (hlen ▸ one_le_ifTaps_of_wf h.params.1 _)

theorem afStage_length (x : Chunk) :
    (afStage s x).1.length = s.cfg.afTaps s.afSpec ∧ (afStage s x).2.length = x.length := by
  have hlen := h.history.2
  rw [← hlen]
  exact firChunk_length _ _ _ _ (hlen ▸ one_le_afTaps_of_wf h.params.1 _)

theorem inv_constructNco (f : F32) {delta : F32} (hdelta : ncoLegal delta = true) :
    (constructNco f delta s).Inv :=
  { h with nco := ⟨phaseInRange_zero, hdelta⟩ }

/-! ## The ring buffer -/

theorem inv_of_rbPushChunk {t : State} {x : Chunk} (hx : x.length = s.cfg.n)
    (ht : rbPushChunk x s = some t) : t.Inv := by
  obtain ⟨hroom, rfl⟩ := rbPushChunk_some ht
  obtain ⟨hsize, hhead, htail, hwf, hfind⟩ := h.ring
  have hslot (k : Nat) :
      (s.rbTail + k) % s.cfg.cap = (s.rbHead + (s.rbSize + k)) % s.cfg.cap := by
    rw [htail, Nat.mod_add_mod, Nat.add_assoc]
  refine { h with ring := ⟨hroom, hhead, hslot _, ?_, fun j hj => ?_⟩ }
  · exact wf_writeSlots _ (cap_pos_of_wf h.params.1) _ _ _ hwf
  · dsimp only at hj ⊢
    by_cases hold : j < s.rbSize
    · rw [find_writeSlots_other]
      · exact hfind j hold
      · intro k hk
        rw [hslot]
        exact mod_offset_ne _ _ _ _ (by omega) (by omega)
    · obtain ⟨k, rfl⟩ : ∃ k, j = s.rbSize + k := ⟨j - s.rbSize, by omega⟩
      have hk : k < x.length := by omega
      rw [← hslot, find_writeSlots_at _ x _ _ _ x[k] (by omega) (List.getElem?_eq_getElem hk)]
      rfl

theorem inv_of_rbPopSample {t : State} {v : F32} (ht : rbPopSample s = some (v, t)) : t.Inv := by
  obtain ⟨hne, -, rfl⟩ := rbPopSample_some ht
  obtain ⟨hsize, hhead, htail, hwf, hfind⟩ := h.ring
  refine { h with ring := ⟨by dsimp only; omega, Nat.mod_lt _ (by omega), ?_, hwf, fun j hj => ?_⟩ }
  · rw [htail, Nat.mod_add_mod]
    dsimp only
    congr 1
    omega
  · dsimp only at hj ⊢
    rw [Nat.mod_add_mod, Nat.add_assoc, Nat.add_comm 1]
    exact hfind (j + 1) (by omega)

theorem inv_of_fillOutput {c left k : Nat} {v : F32} {t : State} {out : List F32}
    (ht : fillOutput c left k v s = some (out, t)) : t.Inv := by
  induction left generalizing k v s t out with
  | zero =>
    simp only [fillOutput, Option.some.injEq, Prod.mk.injEq] at ht
    exact ht.2 ▸ h
  | succ left ih =>
    rw [fillOutput] at ht
    split_ifs at ht
    · split at ht
      next => cases ht
      next v' u hpop =>
        split at ht
        next => cases ht
        next out' w hout =>
          cases ht
          exact ih (inv_of_rbPopSample h hpop) hout
    · split at ht
      next => cases ht
      next out' w hout =>
        cases ht
        exact ih h hout

/-! ## Responses and the fatal halt -/

/-- Replacing the requests of one port by requests that can be formed there. -/
theorem inv_setPending {p : Port} {rs : List Request} (hrs : ∀ r ∈ rs, r.formed s.cfg.n p = true)
    (responses : List Response) :
    { s with pending := s.pending.set p rs, responses := responses : State }.Inv := by
  refine { h with port := portInv_iff.2 fun p' r hr => ?_ }
  rw [waiting_def] at hr
  by_cases hp : p' = p
  · subst hp
    rw [get_set_same] at hr
    exact hrs r hr
  · rw [get_set_other _ _ _ _ hp] at hr
    exact portInv_iff.1 h.port p' r hr

theorem inv_respond (p : Port) (st : Status) (res : Result) : (respond p st res s).Inv :=
  inv_setPending h (fun r hr => portInv_iff.1 h.port p r (List.mem_of_mem_tail hr)) _

theorem inv_arrive (p : Port) (r : Request) : (arrive p r s).Inv := by
  unfold arrive
  split_ifs with hformed
  · refine inv_setPending h (fun r' hr' => ?_) s.responses
    obtain hr' | rfl := List.mem_append.1 hr' |>.imp_right List.mem_singleton.1
    · exact portInv_iff.1 h.port p r' hr'
    · exact hformed
  · exact h

theorem inv_haltWith_overflow : (haltWith .rbOverflow s).Inv :=
  { h with
    cause := ⟨nofun, fun _ => .inl rfl⟩
    direct := fun hm => by
      obtain ⟨h1, h2, h3, h4, h5, h6, h7, h8, h9, -⟩ := h.direct hm
      exact ⟨h1, h2, h3, h4, h5, h6, h7, h8, h9, (by decide : (8#4 : BitVec 4) ≠ 10#4)⟩ }

theorem inv_haltWith_disconnect (hm : s.mode = .chain) : (haltWith .channelDisconnect s).Inv :=
  { h with
    cause := ⟨nofun, fun _ => .inr rfl⟩
    direct := directInv_of_chain hm }

/-! ## Port operations -/

theorem inv_checked (i : Instr) {own : State}
    (hown : i.wf = true → admittedIn i s.mode = true → own.Inv) : (checked i s own).Inv := by
  obtain ⟨hc, -⟩ | ⟨hc, -⟩ | ⟨hc, -⟩ | ⟨hc, -, hwf, hm⟩ := checked_cases i s own <;> rw [hc]
  · exact inv_respond h _ _ _
  · exact inv_respond h _ _ _
  · exact inv_respond h _ _ _
  · exact hown hwf hm

theorem inv_acceptCommand {i : Instr} (hi : i.port = .command) (hm : s.mode = .chain) :
    (acceptCommand i s).Inv := by
  obtain ⟨-, hc⟩ | ⟨hopen, -, hc⟩ := acceptCommand_cases i s <;> rw [hc]
  · exact inv_respond h _ _ _
  · obtain ⟨hcmd, hif, haf⟩ := h.channel
    obtain ⟨hend, hlast, hrun, hterm, hstop⟩ := h.termination
    have hno : endWord ∉ s.cmdQ := fun hmem => by simp [hend hmem] at hopen
    have hcmd' : ∀ w ∈ s.cmdQ ++ [encodeWord i], IsCommandWord w :=
      List.forall_mem_append.2 ⟨hcmd, List.forall_mem_singleton.2 (isCommandWord_encodeWord hi)⟩
    have hend' : endWord ∈ s.cmdQ ++ [encodeWord i] → (i.op == 0x0F#8) = true := fun hmem => by
      obtain hmem | hmem := List.mem_append.1 hmem
      · exact absurd hmem hno
      · exact beq_iff_eq.2 (op_of_encodeWord_eq_endWord (List.mem_singleton.1 hmem).symm)
    have hlast' : endWord ∉ (s.cmdQ ++ [encodeWord i]).dropLast := by simpa using hno
    have hrun' : s.seqState = .running := by
      by_contra hne
      simp [(hrun hne).1] at hopen
    refine inv_respond ?_ _ _ _
    exact { h with
      channel := ⟨hcmd', hif, haf⟩
      termination := ⟨hend', hlast', fun hne => absurd hrun' hne, hterm, hstop⟩
      direct := directInv_of_chain hm }

theorem inv_fillTopUp (hm : s.mode = .chain) : (fillTopUp s).Inv := by
  obtain ⟨-, -, hc⟩ | ⟨-, -, hc⟩ | ⟨x, q, -, -, hc⟩ | ⟨x, q, hq, hroom, hc⟩ := fillTopUp_cases s <;>
    rw [hc]
  · exact h
  · exact inv_respond (inv_haltWith_disconnect h hm) _ _ _
  · exact inv_respond (inv_haltWith_overflow h) _ _ _
  · obtain ⟨hcmd, hif, haf⟩ := h.channel
    rw [hq, List.forall_mem_cons] at haf
    have hpulled : { s with afQ := q : State }.Inv :=
      { h with channel := ⟨hcmd, hif, haf.2⟩, direct := directInv_of_chain hm }
    exact inv_of_rbPushChunk hpulled haf.1 (rbPushChunk_of_room hroom)

/-- Covered, the output loop finds a sample at every pop, so RB_UNDERFLOW is not raised (43_ring_buffer.md
R168). -/
theorem inv_fillStep {c : Nat} (l : Nat) (hc : 0 < c) (hm : s.mode = .chain) :
    (fillStep c l s).Inv := by
  unfold fillStep
  split_ifs with hshort
  · exact inv_fillTopUp h hm
  · obtain ⟨⟨out, t⟩, hout⟩ := Option.isSome_iff_exists.1
      (fillOutput_isSome c l 0 0#32 s hc (by rw [Nat.zero_mod]; omega))
    rw [hout]
    exact inv_respond (inv_of_fillOutput h hout) _ _ _

/-- Every operation keeps the invariant, the payload of a chunk operation having N samples. -/
theorem exec_inv (i : Instr) (hpay : i.takesChunk = true → (s.payload i.port).length = s.cfg.n) :
    ∃ t, exec i s = .next t ∧ t.Inv := by
  cases i with
  | cmdAm | cmdAgc | cmdAf | cmdRssi | cmdIfout | cmdEnd =>
    exact ⟨_, rfl, inv_checked h _ fun _ hm => inv_acceptCommand h rfl (beq_iff_eq.1 hm)⟩
  | firSelIf k => exact ⟨_, rfl, inv_checked h _ fun _ _ => inv_respond (inv_selectIf h k) _ _ _⟩
  | firSelAf k => exact ⟨_, rfl, inv_checked h _ fun _ _ => inv_respond (inv_selectAf h k) _ _ _⟩
  | firRunIf =>
    refine ⟨_, rfl, inv_checked h _ fun _ _ => inv_respond ?_ _ _ _⟩
    exact { h with history := ⟨(ifStage_length h _).1, h.history.2⟩ }
  | firRunAf =>
    refine ⟨_, rfl, inv_checked h _ fun _ _ => inv_respond ?_ _ _ _⟩
    exact { h with history := ⟨h.history.1, (afStage_length h _).1⟩ }
  | agcSel k => exact ⟨_, rfl, inv_checked h _ fun _ _ => inv_respond (inv_selectAgc h k) _ _ _⟩
  | agcRun =>
    refine ⟨_, rfl, inv_checked h _ fun _ _ => inv_respond ?_ _ _ _⟩
    exact { h with }
  | envRun => exact ⟨_, rfl, inv_checked h _ fun _ _ => inv_respond h _ _ _⟩
  | ncoInit f =>
    refine ⟨_, rfl, inv_checked h _ fun _ _ => ?_⟩
    extract_lets delta
    split_ifs with hlegal
    · exact inv_respond (inv_constructNco h f hlegal) _ _ _
    · exact inv_respond h _ _ _
  | ncoGen =>
    obtain ⟨hphase, hdelta⟩ := h.nco
    refine ⟨_, rfl, inv_checked h _ fun _ _ => inv_respond ?_ _ _ _⟩
    exact { h with nco := ⟨phaseInRange_ncoSamples hdelta _ _ hphase, hdelta⟩ }
  | rbPush =>
    refine ⟨_, rfl, inv_checked h _ fun _ _ => ?_⟩
    split
    next t ht => exact inv_respond (inv_of_rbPushChunk h (hpay rfl) ht) _ _ _
    next => exact inv_respond (inv_haltWith_overflow h) _ _ _
  | rbPop =>
    refine ⟨_, rfl, inv_checked h _ fun _ _ => ?_⟩
    split
    next v t ht => exact inv_respond (inv_of_rbPopSample h ht) _ _ _
    next => exact inv_respond h _ _ _
  | rbFill c l =>
    refine ⟨_, rfl, inv_checked h _ fun hwf hm => inv_fillStep h l.toNat ?_ (beq_iff_eq.1 hm)⟩
    have hc : c ≠ 0#8 := by simpa [Instr.wf] using hwf
    exact Nat.pos_of_ne_zero fun h0 => hc (BitVec.eq_of_toNat_eq h0)
  | ifSend =>
    refine ⟨_, rfl, inv_checked h _ fun _ hm => ?_⟩
    obtain ⟨hcmd, hif, haf⟩ := h.channel
    split_ifs
    · exact inv_respond h _ _ _
    · have hif' : ∀ x ∈ s.ifQ ++ [s.payload .capture], x.length = s.cfg.n :=
        List.forall_mem_append.2 ⟨hif, List.forall_mem_singleton.2 (hpay rfl)⟩
      refine inv_respond ?_ _ _ _
      exact { h with
        channel := ⟨hcmd, hif', haf⟩
        direct := directInv_of_chain (beq_iff_eq.1 hm) }
  | ifClose =>
    refine ⟨_, rfl, inv_checked h _ fun _ hm => inv_respond ?_ _ _ _⟩
    exact { h with direct := directInv_of_chain (beq_iff_eq.1 hm) }
  | csrRead a =>
    refine ⟨_, rfl, inv_checked h _ fun _ _ => ?_⟩
    split <;> exact inv_respond h _ _ _

theorem portStep_inv (p : Port) : ∃ t, portStep p s = .next t ∧ t.Inv := by
  obtain ⟨-, hc⟩ | ⟨r, rs, i, hw, hdec, rfl, hc⟩ | ⟨r, rs, -, -, hc⟩ := portStep_cases p s <;> rw [hc]
  · exact ⟨s, rfl, h⟩
  · refine exec_inv h i fun htakes => ?_
    have hformed := portInv_iff.1 h.port i.port r (by simp [hw])
    rw [payload_of_waiting hw]
    simpa [Request.formed, decodeOnPort, hdec, htakes] using hformed
  · obtain ⟨hr, -⟩ | ⟨hr, -⟩ | ⟨hr, -⟩ := refuseWord_cases p r.word s <;> rw [hr] <;>
      exact ⟨_, rfl, inv_respond h _ _ _⟩

/-! ## The sequencer -/

/-- Applying a command keeps the invariant, CMD.END where the sequencer waits for its last chunk. -/
theorem inv_applyCommand {i : Instr} (hm : s.mode = .chain)
    (hend : i = .cmdEnd → s.cmdClosed = true ∧ s.cmdQ = [] ∧ s.seqPhase = .wait) :
    (applyCommand i s).Inv := by
  cases i with
  | cmdAm n => exact inv_selectIf h _
  | cmdAgc n => exact inv_selectAgc h _
  | cmdAf n => exact inv_selectAf h _
  | cmdRssi n =>
    exact { h with
      sink := ⟨fun h0 => bne_eq_false_iff_eq.2 h0, h.sink.2⟩, direct := directInv_of_chain hm }
  | cmdIfout n =>
    exact { h with
      sink := ⟨h.sink.1, fun h0 => bne_eq_false_iff_eq.2 h0⟩, direct := directInv_of_chain hm }
  | cmdEnd =>
    obtain ⟨hclosed, hempty, hwait⟩ := hend rfl
    obtain ⟨hmem, hlast, -⟩ := h.termination
    exact { h with
      termination := ⟨hmem, hlast, fun _ => ⟨hclosed, hempty⟩, fun _ => hwait, nofun⟩
      direct := directInv_of_chain hm }
  | firSelIf | firSelAf | firRunIf | firRunAf | agcSel | agcRun | envRun | ncoInit | ncoGen | rbPush
  | rbPop | rbFill | ifSend | ifClose | csrRead => exact h

theorem inv_pollStep (hm : s.mode = .chain) (hstop : s.seqState ≠ .stopped) : (pollStep s).Inv := by
  obtain ⟨hmem, hlast, hrun, -, -⟩ := h.termination
  cases hq : s.cmdQ with
  | nil =>
    rw [pollStep_of_nil hq]
    exact { h with
      termination := ⟨hmem, hlast, hrun, fun _ => rfl, fun h0 => absurd h0 hstop⟩
      direct := directInv_of_chain hm }
  | cons w rest =>
    obtain ⟨hcmd, hif, haf⟩ := h.channel
    rw [hq] at hcmd hmem hlast
    obtain ⟨i, hdec⟩ := exists_decodeWord_of_isCommandWord (hcmd w List.mem_cons_self)
    have hrunning : s.seqState = .running := by
      by_contra hne
      simpa [hq] using (hrun hne).2
    have hlast' : endWord ∉ rest.dropLast := fun h0 => hlast <| by
      rw [List.dropLast_cons_of_ne_nil (by rintro rfl; cases h0)]
      exact List.mem_cons_of_mem w h0
    have hdrained : { s with cmdQ := rest, seqPhase := .wait : State }.Inv :=
      { h with
        channel := ⟨fun v hv => hcmd v (List.mem_cons_of_mem w hv), hif, haf⟩
        termination := ⟨fun h0 => hmem (List.mem_cons_of_mem w h0), hlast',
          fun hne => absurd hrunning hne, fun _ => rfl, fun h0 => absurd h0 hstop⟩
        direct := directInv_of_chain hm }
    rw [pollStep_of_cons hq hdec]
    refine inv_applyCommand hdrained hm fun hi => ?_
    -- END is queued last, so nothing waits behind it.
    obtain rfl := eq_endWord_of_decodeWord (hi ▸ hdec)
    refine ⟨hmem List.mem_cons_self, ?_, rfl⟩
    by_contra hne
    exact hlast (by rw [List.dropLast_cons_of_ne_nil hne]; exact List.mem_cons_self)

theorem chain_out_length (x : Chunk) : (chain s x).out.length = x.length := by
  calc (chain s x).out.length = (envChunk s.tick (agcStage s (ifStage s x).2).out).length :=
        (afStage_length h _).2
    _ = x.length := by rw [envChunk_length, agcStage_length, (ifStage_length h x).2]

theorem inv_forwardChunk (f1 f2 : Bool) {x : Chunk} {rest : List Chunk} (hq : s.ifQ = x :: rest)
    (hm : s.mode = .chain) : (forwardChunk f1 f2 x rest s).Inv := by
  obtain ⟨hcmd, hif, haf⟩ := h.channel
  obtain ⟨hmem, hlast, hrun, -, -⟩ := h.termination
  rw [hq, List.forall_mem_cons] at hif
  have hout : (chain s x).out.length = s.cfg.n := (chain_out_length h x).trans hif.1
  have hnot : (forwardChunk f1 f2 x rest s).seqState ≠ .terminating := by
    rw [forwardChunk_seqState]
    cases s.seqState <;> decide
  have hkeep (h0 : s.seqState = .running) : (forwardChunk f1 f2 x rest s).seqState = .running := by
    rw [forwardChunk_seqState, h0]
    rfl
  exact { h with
    history := ⟨(ifStage_length h x).1, (afStage_length h _).1⟩
    channel := ⟨hcmd, hif.2, List.forall_mem_append.2 ⟨haf, List.forall_mem_singleton.2 hout⟩⟩
    termination :=
      ⟨hmem, hlast, fun hne => hrun (mt hkeep hne), fun h0 => absurd h0 hnot, fun _ => rfl⟩
    sink := sinkInv_telemetry f1 f2 x _ h.sink
    direct := directInv_of_chain hm }

theorem inv_waitStep (f1 f2 : Bool) (hm : s.mode = .chain) : (waitStep f1 f2 s).Inv := by
  obtain ⟨-, -, hc⟩ | ⟨-, -, hc⟩ | ⟨x, q, hq, hc⟩ := waitStep_cases f1 f2 s <;> rw [hc]
  · exact h
  · exact inv_haltWith_disconnect h hm
  · exact inv_forwardChunk h f1 f2 hq hm

theorem inv_sequencerStep (f1 f2 : Bool) : (sequencerStep f1 f2 s).Inv := by
  obtain ⟨-, hc⟩ | ⟨hen, -, hc⟩ | ⟨hen, -, hc⟩ := sequencerStep_cases f1 f2 s <;> rw [hc]
  · exact h
  · obtain ⟨-, hm, hstop⟩ := sequencerEnabled_iff.1 hen
    exact inv_pollStep h hm hstop
  · obtain ⟨-, hm, -⟩ := sequencerEnabled_iff.1 hen
    exact inv_waitStep h f1 f2 hm

end

/-! ## The step -/

/-- Settles O53, by the input of the step: an arrival, the turn of a port or of the sequencer, or reset. -/
theorem everyStepKeepsInvariant : Obligations.EveryStepKeepsInvariant := by
  intro s t h hst
  have htaken : (takeInput s).Inv := { h with }
  obtain ⟨p, r, -, hc⟩ | ⟨p, -, hc⟩ | ⟨f1, f2, -, hc⟩ | ⟨-, hc⟩ := step_cases s <;> rw [hc] at hst
  · cases hst
    exact inv_arrive htaken p r
  · obtain ⟨u, hu, hinv⟩ := portStep_inv htaken p
    rw [hu] at hst
    cases hst
    exact hinv
  · cases hst
    exact inv_sequencerStep htaken f1 f2
  · cases hst
    exact { inv_resetWith h.params.1 with }

end Sys2Proof.Machine
end

section
/-! PROOFS. Bytes are little-endian: the bytes of an operation word, of a 32-bit value and of a telemetry
event (20_memory.md R54, 44_chain.md R202). Settles O5. -/

namespace Sys2Proof.Machine

/-! ## Words and values -/

theorem bytesOfWord_getElem? (w : OpWord) {k : Nat} (hk : k < 8) :
    (bytesOfWord w)[k]? = some (w.extractLsb' (8 * k) 8) := by
  interval_cases k <;> rfl

theorem bytesOfValue_getElem? (v : BitVec 32) {k : Nat} (hk : k < 4) :
    (bytesOfValue v)[k]? = some (v.extractLsb' (8 * k) 8) := by
  interval_cases k <;> rfl

@[simp] theorem bytesOfValue_length (v : BitVec 32) : (bytesOfValue v).length = 4 := rfl

/-- Each byte joins the bits above it, from byte 7 down to byte 0. -/
@[simp] theorem wordOfBytes_bytesOfWord (w : OpWord) : wordOfBytes (bytesOfWord w) = some w := by
  simp only [wordOfBytes, bytesOfWord]
  iterate 7 rw [BitVec.extractLsb'_append_extractLsb'_eq_extractLsb' (by rfl)]
  rw [BitVec.extractLsb'_eq_self]

/-! ## Telemetry events -/

@[simp] theorem bytes_sink1 (h : BitVec 32) (m : F32) : (Event.sink1 h m).bytes = bytesOfValue m := rfl

@[simp] theorem bytes_sink2 (h : BitVec 32) (x : Chunk) :
    (Event.sink2 h x).bytes = x.flatMap bytesOfValue := rfl

theorem flatMap_bytesOfValue_length (x : Chunk) :
    (x.flatMap bytesOfValue).length = 4 * x.length := by
  simp [List.length_flatMap, Nat.mul_comm]

/-- Every sample takes 4 bytes, so byte 4n + k of a chunk is byte k of its sample n. -/
theorem flatMap_bytesOfValue_getElem? (x : Chunk) (n : Nat) {k : Nat} (hk : k < 4) :
    (x.flatMap bytesOfValue)[4 * n + k]? = x[n]?.bind fun v => (bytesOfValue v)[k]? := by
  induction x generalizing n with
  | nil => rfl
  | cons v x ih =>
    rw [List.flatMap_cons]
    cases n with
    | zero =>
      rw [Nat.mul_zero, Nat.zero_add, List.getElem?_append_left hk]
      rfl
    | succ n =>
      have hsub : 4 * (n + 1) + k - 4 = 4 * n + k := by omega
      rw [List.getElem?_append_right (by rw [bytesOfValue_length]; omega), bytesOfValue_length, hsub,
        List.getElem?_cons_succ, ih]

/-- Settles O5: a sink's bytes are those of its values, one after the other. -/
theorem bytesAreLittleEndian : Obligations.BytesAreLittleEndian := by
  refine ⟨fun w _ => bytesOfWord_getElem? w, wordOfBytes_bytesOfWord,
    fun v _ => bytesOfValue_getElem? v, fun h m => ?_, fun h x => ?_⟩
  · rw [bytes_sink1]
    exact ⟨bytesOfValue_length m, fun _ => bytesOfValue_getElem? m⟩
  · rw [bytes_sink2]
    refine ⟨flatMap_bytesOfValue_length x, fun n v hv k hk => ?_⟩
    rw [flatMap_bytesOfValue_getElem? x n hk, hv, Option.bind_some, bytesOfValue_getElem? v hk]

end Sys2Proof.Machine
end

section
/-! PROOFS. A step runs what its port's oldest request decodes to, and an arriving request waits behind the
others (20_memory.md R58, 30_encoding.md R78, R79). Settles O6. -/

namespace Sys2Proof.Machine

/-! ## The operation of a request -/

section

variable {p : Port} {i : Instr}

theorem decodeOnPort_of_decodeWord {w : OpWord} (hdec : decodeWord w = .ok i) (hp : i.port = p) :
    decodeOnPort p w = some i := by
  simp [decodeOnPort, hdec, hp]

theorem formed_iff_of_decodeWord {n : Nat} {r : Request} (hdec : decodeWord r.word = .ok i)
    (hp : i.port = p) :
    r.formed n p = true ↔ r.payload.length = if i.takesChunk then n else 0 := by
  simp only [Request.formed, decodeOnPort_of_decodeWord hdec hp]
  split_ifs <;> exact beq_iff_eq

theorem portStep_of_decodeWord {s : State} {r : Request} {rs : List Request}
    (hw : s.waiting p = r :: rs) (hdec : decodeWord r.word = .ok i) (hp : i.port = p) :
    portStep p s = exec i s := by
  simp [portStep, fetchRequest, hw, decodeOnPort_of_decodeWord hdec hp]

end

/-- The chunk operations of R73, listed. -/
theorem mem_chunkOperations_iff {i : Instr} :
    i ∈ [.firRunIf, .firRunAf, .agcRun, .envRun, .rbPush, .ifSend] ↔ i.takesChunk = true := by
  cases i <;> simp [Instr.takesChunk]

/-! ## Arrivals -/

theorem arrive_of_formed {s : State} {p : Port} {r : Request} (h : r.formed s.cfg.n p = true) :
    arrive p r s = { s with pending := s.pending.set p (s.waiting p ++ [r]) } :=
  if_pos h

theorem arrive_of_not_formed {s : State} {p : Port} {r : Request} (h : r.formed s.cfg.n p = false) :
    arrive p r s = s :=
  if_neg (Bool.eq_false_iff.1 h)

/-! ## The step -/

theorem step_of_nextInput {s : State} {e : EnvInput} (he : nextInput s = e) :
    step s = respondToInput e (takeInput s) := by
  rw [step, he]

theorem step_of_port {s : State} {p : Port} (he : nextInput s = .port p) :
    step s = portStep p (takeInput s) :=
  step_of_nextInput he

theorem step_of_arrive {s : State} {p : Port} {r : Request} (he : nextInput s = .arrive p r) :
    step s = .next (arrive p r (takeInput s)) :=
  step_of_nextInput he

/-- Settles O6: taking the input leaves the requests and the parameters as they were, so the turn and the
arrival are those of the state before. -/
theorem stepRunsDecodedRequest : Obligations.StepRunsDecodedRequest := by
  refine ⟨fun s p r rs i he hw hdec hp => ?turn, fun s p r he => ⟨fun hformed => ?formed,
    fun hformed => ?unformed⟩, fun n p r i hdec hp => ?payload⟩
  case turn =>
    have hw' : (takeInput s).waiting p = r :: rs := hw
    rw [step_of_port he, portStep_of_decodeWord hw' hdec hp]
    rfl
  case formed =>
    have hformed' : r.formed (takeInput s).cfg.n p = true := hformed
    rw [step_of_arrive he, arrive_of_formed hformed']
    rfl
  case unformed =>
    have hformed' : r.formed (takeInput s).cfg.n p = false := hformed
    rw [step_of_arrive he, arrive_of_not_formed hformed']
    rfl
  case payload =>
    simp only [formed_iff_of_decodeWord hdec hp, mem_chunkOperations_iff]

end Sys2Proof.Machine
end

section
/-! PROOFS. The encoder and the decoder are inverse to each other (30_encoding.md R71 to R75). Settles O1, O2
and O4. -/

namespace Sys2Proof.Machine

/-! ## Encoded operations decode -/

/-- An address as ARG: its own 16 bits, and zeros above them. -/
theorem extractLsb'_setWidth_address (a : BitVec 16) :
    (a.setWidth 32).extractLsb' 0 16 = a ∧ (a.setWidth 32).extractLsb' 16 16 = 0#16 := by
  have ha : a.toNat < 2 ^ 16 := a.isLt
  constructor <;> refine extractLsb'_eq_of_toNat ?_ <;>
    simp only [BitVec.toNat_setWidth, BitVec.toNat_ofNat] <;> omega

theorem decodeWord_encodeWord {i : Instr} (hwf : i.wf = true) : decodeWord (encodeWord i) = .ok i := by
  cases i with
  | cmdAm | cmdAgc | cmdAf | cmdRssi | cmdIfout | cmdEnd => exact decodeWord_encodeWord_of_command rfl
  | firSelIf k => cases k <;> rfl
  | firSelAf k => cases k <;> rfl
  | agcSel k => cases k <;> rfl
  | firRunIf | firRunAf | agcRun | envRun | ncoGen | rbPush | rbPop | ifSend | ifClose => rfl
  | ncoInit f =>
    simp [encodeWord, decodeWord, decodePlain, decodeNco, Instr.op, Instr.sub, Instr.arg]
  | csrRead a =>
    simp [encodeWord, decodeWord, decodePlain, decodeRegister, Instr.op, Instr.sub, Instr.arg,
      extractLsb'_setWidth_address a]
  | rbFill c l =>
    have hc : c ≠ 0#8 := by simpa [Instr.wf] using hwf
    simp [encodeWord, decodeWord, Instr.op, Instr.sub, Instr.arg, hc]

/-- Settles O1: the bytes of a word stand for that word. -/
theorem decodeOfEncodedOperation : Obligations.DecodeOfEncodedOperation := by
  intro i hwf
  refine ⟨decodeWord_encodeWord hwf, ?_⟩
  rw [encodeBytes, decodeBytes, wordOfBytes_bytesOfWord]
  exact decodeWord_encodeWord hwf

/-! ## Decoded words are encodings -/

/-- ARG is its low bits alone when the bits above them are zero. -/
theorem setWidth_extractLsb'_of_high_zero {k m : Nat} {arg : BitVec 32} (hkm : k + m = 32)
    (h : arg.extractLsb' k m = 0#m) : (arg.extractLsb' 0 k).setWidth 32 = arg := by
  have hhigh : arg.toNat / 2 ^ k % 2 ^ m = 0 := by
    simpa [Nat.shiftRight_eq_div_pow] using congrArg BitVec.toNat h
  have hdiv : arg.toNat / 2 ^ k < 2 ^ m :=
    Nat.div_lt_of_lt_mul (by rw [← pow_add, hkm]; exact arg.isLt)
  rw [Nat.mod_eq_of_lt hdiv, Nat.div_eq_zero_iff_lt (Nat.two_pow_pos k)] at hhigh
  apply BitVec.eq_of_toNat_eq
  simp [Nat.mod_eq_of_lt hhigh, Nat.mod_eq_of_lt arg.isLt]

theorem codeOfIfSpec_ifSpecOfCode (c : BitVec 2) : codeOfIfSpec (ifSpecOfCode c) = c := by
  revert c; decide

theorem codeOfAfSpec_of_afSpecOfCode {c : BitVec 2} {k : AfSpec} (h : afSpecOfCode c = some k) :
    codeOfAfSpec k = c := by
  revert c; cases k <;> decide

theorem codeOfAgcSpec_of_agcSpecOfCode {c : BitVec 3} {k : AgcSpec} (h : agcSpecOfCode c = some k) :
    codeOfAgcSpec k = c := by
  revert c; cases k <;> decide

/-- The operation is well formed and has these OP and ARG, and a zero SUB (R72). -/
structure HasPlainFields (op : BitVec 8) (arg : BitVec 32) (i : Instr) : Prop where
  op_eq : i.op = op
  sub_eq : i.sub = 0#8
  arg_eq : i.arg = arg
  wf : i.wf = true

section

variable {op : BitVec 8} {arg : BitVec 32} {i : Instr}

theorem hasPlainFields_of_decodeFilter (h : decodeFilter op arg = .ok i) : HasPlainFields op arg i := by
  simp only [decodeFilter, noArg] at h
  split_ifs at h with hsel hhigh hsel hhigh hrun hzero hrun hzero
  · cases h
    exact ⟨hsel.symm, rfl, by
      rw [Instr.arg, codeOfIfSpec_ifSpecOfCode, setWidth_extractLsb'_of_high_zero rfl hhigh], rfl⟩
  · split at h <;> cases h
    next k hk =>
      exact ⟨hsel.symm, rfl, by
        rw [Instr.arg, codeOfAfSpec_of_afSpecOfCode hk, setWidth_extractLsb'_of_high_zero rfl hhigh],
        rfl⟩
  all_goals
    cases h
    exact ⟨hrun.symm, rfl, hzero.symm, rfl⟩

theorem hasPlainFields_of_decodeLevel (h : decodeLevel op arg = .ok i) : HasPlainFields op arg i := by
  simp only [decodeLevel, noArg] at h
  split_ifs at h with hsel hhigh hrun hzero hrun hzero
  · split at h <;> cases h
    next k hk =>
      exact ⟨hsel.symm, rfl, by
        rw [Instr.arg, codeOfAgcSpec_of_agcSpecOfCode hk, setWidth_extractLsb'_of_high_zero rfl hhigh],
        rfl⟩
  all_goals
    cases h
    exact ⟨hrun.symm, rfl, hzero.symm, rfl⟩

theorem hasPlainFields_of_decodeRegister (h : decodeRegister op arg = .ok i) :
    HasPlainFields op arg i := by
  unfold decodeRegister at h
  split_ifs at h with hread hhigh
  cases h
  exact ⟨hread.symm, rfl, setWidth_extractLsb'_of_high_zero rfl hhigh, rfl⟩

/-- In the other classes ARG is the operand or must be zero. -/
theorem hasPlainFields_of_undivided_arg
    (h : decodeCommand op arg = .ok i ∨ decodeNco op arg = .ok i ∨ decodeRing op arg = .ok i ∨
      decodeCapture op arg = .ok i) : HasPlainFields op arg i := by
  simp only [decodeCommand, decodeNco, decodeRing, decodeCapture, noArg] at h
  obtain h | h | h | h := h <;> split_ifs at h <;> cases h <;> subst_vars <;>
    exact ⟨rfl, rfl, rfl, rfl⟩

theorem hasPlainFields_of_decodePlain (h : decodePlain op arg = .ok i) : HasPlainFields op arg i := by
  simp only [decodePlain] at h
  split_ifs at h
  · exact hasPlainFields_of_undivided_arg (.inl h)
  · exact hasPlainFields_of_decodeFilter h
  · exact hasPlainFields_of_decodeLevel h
  · exact hasPlainFields_of_undivided_arg (.inr (.inl h))
  · exact hasPlainFields_of_undivided_arg (.inr (.inr (.inl h)))
  · exact hasPlainFields_of_undivided_arg (.inr (.inr (.inr h)))
  · exact hasPlainFields_of_decodeRegister h

end

theorem encodeWord_eq_iff {w : OpWord} {i : Instr} :
    encodeWord i = w ↔
      opField w = i.op ∧ subField w = i.sub ∧ resField w = 0#16 ∧ argField w = i.arg := by
  constructor
  · rintro rfl
    exact Laws.Fields.of_encode i
  · rintro ⟨hop, hsub, hres, harg⟩
    rw [encodeWord, ← hop, ← hsub, ← hres, ← harg, mkWord_fields]

/-- Settles O2: the fields a word is decoded from are the fields its operation is encoded with. -/
theorem encodeOfDecodedWord : Obligations.EncodeOfDecodedWord := by
  intro w i h
  unfold decodeWord at h
  split_ifs at h with hres hfill hzero hsub
  · cases h
    exact ⟨bne_iff_ne.2 hzero, encodeWord_eq_iff.2 ⟨hfill, rfl, not_not.1 hres, rfl⟩⟩
  · obtain ⟨hop, hsub', harg, hwf⟩ := hasPlainFields_of_decodePlain h
    exact ⟨hwf, encodeWord_eq_iff.2
      ⟨hop.symm, (not_not.1 hsub).trans hsub'.symm, not_not.1 hres, harg.symm⟩⟩

theorem decodeWord_eq_ok_iff {w : OpWord} {i : Instr} :
    decodeWord w = .ok i ↔ i.wf = true ∧ encodeWord i = w :=
  ⟨encodeOfDecodedWord w i, fun ⟨hwf, hw⟩ => hw ▸ decodeWord_encodeWord hwf⟩

/-- Settles O4: the decoder evaluated on each word of R83. -/
theorem encodingExamples : Obligations.EncodingExamples := by
  unfold Obligations.EncodingExamples
  decide

end Sys2Proof.Machine
end

section
/-! PROOFS. The decoder accepts the words of the opcode table's rows, less the illegal codes (30_encoding.md
R73 to R78). Settles O3. -/

namespace Sys2Proof.Machine

/-! ## The rows of the opcode table, field by field -/

theorem eq_of_fields {w v : OpWord} (hop : opField w = opField v) (hsub : subField w = subField v)
    (hres : resField w = resField v) (harg : argField w = argField v) : w = v := by
  rw [← mkWord_fields w, ← mkWord_fields v, hop, hsub, hres, harg]

theorem and_eq_iff_fields {w mask pattern : OpWord} :
    w &&& mask = pattern ↔
      opField w &&& opField mask = opField pattern ∧ subField w &&& subField mask = subField pattern ∧
      resField w &&& resField mask = resField pattern ∧
      argField w &&& argField mask = argField pattern := by
  simp only [opField, subField, resField, argField, ← BitVec.extractLsb'_and]
  exact ⟨fun h => h ▸ ⟨rfl, rfl, rfl, rfl⟩, fun ⟨hop, hsub, hres, harg⟩ =>
    eq_of_fields hop hsub hres harg⟩

/-- Every row fixes OP and a zero RES and asks for zeros in ARG; every row but that of RB.FILL fixes a zero
SUB. -/
theorem opTable_fields : ∀ row ∈ opTable,
    opField row.mask = BitVec.allOnes 8 ∧ resField row.mask = BitVec.allOnes 16 ∧
    (resField row.pattern = 0#16 ∧ argField row.pattern = 0#32 ∧ subField row.pattern = 0#8) ∧
    subField row.mask = if opField row.pattern = 0x42#8 then 0#8 else BitVec.allOnes 8 := by
  decide

theorem matches_row_iff {w : OpWord} {row : OpRow} (hrow : row ∈ opTable) :
    w &&& row.mask = row.pattern ↔
      opField w = opField row.pattern ∧ (opField w ≠ 0x42#8 → subField w = 0#8) ∧
      resField w = 0#16 ∧ argField w &&& argField row.mask = 0#32 := by
  obtain ⟨hopM, hresM, ⟨hresP, hargP, hsubP⟩, hsubM⟩ := opTable_fields row hrow
  rw [and_eq_iff_fields, hopM, hresM, hresP, hargP, hsubP, hsubM, BitVec.and_allOnes,
    BitVec.and_allOnes]
  refine and_congr_right fun hop => and_congr_left fun _ => ?_
  rw [← hop]
  split_ifs with hfill
  · exact iff_of_true BitVec.and_zero (absurd hfill)
  · rw [BitVec.and_allOnes, forall_prop_of_true hfill]

/-! ## From operations to rows and back -/

theorem sub_eq_zero_of_op_ne {i : Instr} (hop : i.op ≠ 0x42#8) : i.sub = 0#8 := by
  cases i with
  | rbFill => exact absurd rfl hop
  | _ => rfl

/-- An address in ARG leaves the bits above it zero. -/
theorem setWidth_address_and_high_mask (a : BitVec 16) : a.setWidth 32 &&& 0xFFFF0000#32 = 0#32 := by
  have hmask : ∀ k < 16, (0xFFFF0000#32).getLsbD k = false := by decide
  refine BitVec.eq_of_getLsbD_eq fun k hk => ?_
  rw [BitVec.getLsbD_and, BitVec.getLsbD_setWidth, BitVec.getLsbD_zero]
  by_cases hlow : k < 16
  · rw [hmask k hlow, Bool.and_false]
  · rw [BitVec.getLsbD_of_ge a k (not_lt.1 hlow), Bool.and_false, Bool.false_and]

/-- The operations whose operand is the whole of ARG. -/
theorem exists_row_of_undivided_arg {i : Instr}
    (hi : i.op ∈ [0x01#8, 0x02#8, 0x03#8, 0x04#8, 0x05#8, 0x30#8, 0x42#8]) :
    ∃ row ∈ opTable, i.op = opField row.pattern ∧ i.arg &&& argField row.mask = 0#32 := by
  have rows : ∀ op ∈ [0x01#8, 0x02#8, 0x03#8, 0x04#8, 0x05#8, 0x30#8, 0x42#8],
      ∃ row ∈ opTable, op = opField row.pattern ∧ argField row.mask = 0#32 := by decide
  obtain ⟨row, hrow, hop, hmask⟩ := rows i.op hi
  exact ⟨row, hrow, hop, by rw [hmask, BitVec.and_zero]⟩

theorem exists_row_of_encodeWord (i : Instr) :
    ∃ row ∈ opTable, encodeWord i &&& row.mask = row.pattern := by
  suffices h : ∃ row ∈ opTable, i.op = opField row.pattern ∧ i.arg &&& argField row.mask = 0#32 by
    obtain ⟨row, hrow, hop, harg⟩ := h
    obtain ⟨hopW, hsubW, hresW, hargW⟩ := Laws.Fields.of_encode i
    refine ⟨row, hrow, (matches_row_iff hrow).2 ⟨hopW.trans hop, fun hne => ?_, hresW, hargW ▸ harg⟩⟩
    exact hsubW.trans (sub_eq_zero_of_op_ne (hopW ▸ hne))
  cases i with
  | firSelIf k => cases k <;> decide
  | firSelAf k => cases k <;> decide
  | agcSel k => cases k <;> decide
  | cmdEnd | firRunIf | firRunAf | agcRun | envRun | ncoGen | rbPush | rbPop | ifSend | ifClose => decide
  | cmdAm | cmdAgc | cmdAf | cmdRssi | cmdIfout | ncoInit | rbFill =>
    exact exists_row_of_undivided_arg (by simp [Instr.op])
  | csrRead a =>
    obtain ⟨row, hrow, hop, hmask⟩ :
      ∃ row ∈ opTable, opField row.pattern = 0x60#8 ∧ argField row.mask = 0xFFFF0000#32 := by decide
    exact ⟨row, hrow, hop.symm, hmask ▸ setWidth_address_and_high_mask a⟩

section

variable {op : BitVec 8} {arg : BitVec 32}

theorem afSpecOfCode_eq_none {c : BitVec 2} (h : afSpecOfCode c = none) : c = 3#2 := by
  revert c; decide

theorem agcSpecOfCode_eq_none {c : BitVec 3} (h : agcSpecOfCode c = none) : c = 6#3 ∨ c = 7#3 := by
  revert c; decide

/-- ARG is its low k bits alone when a mask of all the bits above them leaves nothing. -/
theorem setWidth_extractLsb'_of_and_eq_zero {k m : Nat} {mask : BitVec 32} (hkm : k + m = 32)
    (hmask : mask.extractLsb' k m = BitVec.allOnes m) (h : arg &&& mask = 0#32) :
    (arg.extractLsb' 0 k).setWidth 32 = arg := by
  refine setWidth_extractLsb'_of_high_zero hkm ?_
  rw [← BitVec.and_allOnes (x := arg.extractLsb' k m), ← hmask, ← BitVec.extractLsb'_and, h,
    BitVec.extractLsb'_zero]

theorem exists_ifSpec_of_arg (h : arg &&& 0xFFFFFFFC#32 = 0#32) :
    ∃ k, (codeOfIfSpec k).setWidth 32 = arg := by
  have hlow := setWidth_extractLsb'_of_and_eq_zero (k := 2) (m := 30) rfl rfl h
  exact ⟨ifSpecOfCode (arg.extractLsb' 0 2), by rw [codeOfIfSpec_ifSpecOfCode, hlow]⟩

theorem exists_afSpec_of_arg (h : arg &&& 0xFFFFFFFC#32 = 0#32) (h3 : arg ≠ 3#32) :
    ∃ k, (codeOfAfSpec k).setWidth 32 = arg := by
  have hlow := setWidth_extractLsb'_of_and_eq_zero (k := 2) (m := 30) rfl rfl h
  cases hk : afSpecOfCode (arg.extractLsb' 0 2) with
  | some k => exact ⟨k, by rw [codeOfAfSpec_of_afSpecOfCode hk, hlow]⟩
  | none =>
    rw [afSpecOfCode_eq_none hk] at hlow
    exact absurd hlow.symm h3

theorem exists_agcSpec_of_arg (h : arg &&& 0xFFFFFFF8#32 = 0#32) (h6 : arg ≠ 6#32) (h7 : arg ≠ 7#32) :
    ∃ k, (codeOfAgcSpec k).setWidth 32 = arg := by
  have hlow := setWidth_extractLsb'_of_and_eq_zero (k := 3) (m := 29) rfl rfl h
  cases hk : agcSpecOfCode (arg.extractLsb' 0 3) with
  | some k => exact ⟨k, by rw [codeOfAgcSpec_of_agcSpecOfCode hk, hlow]⟩
  | none =>
    obtain hc | hc := agcSpecOfCode_eq_none hk <;> rw [hc] at hlow
    exacts [absurd hlow.symm h6, absurd hlow.symm h7]

/-- A row other than that of RB.FILL, with its spec codes legal, is one of an operation. -/
theorem exists_operation_of_row {row : OpRow} (hrow : row ∈ opTable) (hop : opField row.pattern = op)
    (hfill : op ≠ 0x42#8) (harg : arg &&& argField row.mask = 0#32)
    (haf : op = 0x11#8 → arg ≠ 3#32) (hagc : op = 0x20#8 → arg ≠ 6#32 ∧ arg ≠ 7#32) :
    ∃ i, HasPlainFields op arg i := by
  have hzero (hmask : argField row.mask = BitVec.allOnes 32) : 0#32 = arg := by
    rw [hmask, BitVec.and_allOnes] at harg
    exact harg.symm
  simp only [opTable, List.cons_append, List.nil_append, List.mem_cons, List.not_mem_nil,
    or_false] at hrow
  obtain rfl | rfl | rfl | rfl | rfl | rfl | rfl | rfl | rfl | rfl | rfl | rfl | rfl | rfl | rfl | rfl |
    rfl | rfl | rfl | rfl | rfl := hrow
  · exact ⟨.cmdAm arg, hop, rfl, rfl, rfl⟩
  · exact ⟨.cmdAgc arg, hop, rfl, rfl, rfl⟩
  · exact ⟨.cmdAf arg, hop, rfl, rfl, rfl⟩
  · exact ⟨.cmdRssi arg, hop, rfl, rfl, rfl⟩
  · exact ⟨.cmdIfout arg, hop, rfl, rfl, rfl⟩
  · exact ⟨.cmdEnd, hop, rfl, hzero rfl, rfl⟩
  · obtain ⟨k, hk⟩ := exists_ifSpec_of_arg harg
    exact ⟨.firSelIf k, hop, rfl, hk, rfl⟩
  · obtain ⟨k, hk⟩ := exists_afSpec_of_arg harg (haf hop.symm)
    exact ⟨.firSelAf k, hop, rfl, hk, rfl⟩
  · exact ⟨.firRunIf, hop, rfl, hzero rfl, rfl⟩
  · exact ⟨.firRunAf, hop, rfl, hzero rfl, rfl⟩
  · obtain ⟨h6, h7⟩ := hagc hop.symm
    obtain ⟨k, hk⟩ := exists_agcSpec_of_arg harg h6 h7
    exact ⟨.agcSel k, hop, rfl, hk, rfl⟩
  · exact ⟨.agcRun, hop, rfl, hzero rfl, rfl⟩
  · exact ⟨.envRun, hop, rfl, hzero rfl, rfl⟩
  · exact ⟨.ncoInit arg, hop, rfl, rfl, rfl⟩
  · exact ⟨.ncoGen, hop, rfl, hzero rfl, rfl⟩
  · exact ⟨.rbPush, hop, rfl, hzero rfl, rfl⟩
  · exact ⟨.rbPop, hop, rfl, hzero rfl, rfl⟩
  · exact absurd hop.symm hfill
  · exact ⟨.ifSend, hop, rfl, hzero rfl, rfl⟩
  · exact ⟨.ifClose, hop, rfl, hzero rfl, rfl⟩
  · exact ⟨.csrRead (arg.extractLsb' 0 16), hop, rfl,
      setWidth_extractLsb'_of_and_eq_zero (m := 16) rfl rfl harg, rfl⟩

end

theorem rbFill_without_channels_iff {w : OpWord} :
    w.toNat / 2 ^ 56 = 0x42 ∧ w.toNat / 2 ^ 48 % 2 ^ 8 = 0 ↔ opField w = 0x42#8 ∧ subField w = 0#8 := by
  have hw := w.isLt
  simp only [opField, subField, ← BitVec.toNat_inj, BitVec.extractLsb'_toNat, BitVec.toNat_ofNat,
    Nat.shiftRight_eq_div_pow]
  omega

/-- Settles O3: an encoding lies in the row of its OP, and a word of a row is an encoding unless it is one of
the excluded words. -/
theorem decoderAcceptsExactlyTheTable : Obligations.DecoderAcceptsExactlyTheTable := by
  intro w
  rw [rbFill_without_channels_iff]
  constructor
  · rintro ⟨i, hdec⟩
    obtain ⟨hwf, rfl⟩ := encodeOfDecodedWord w i hdec
    refine ⟨exists_row_of_encodeWord i, ?_, ?_, ?_, ?channels⟩
    case channels =>
      rintro ⟨hop, hsub⟩
      unfold decodeWord at hdec
      rw [if_pos hop, if_pos hsub] at hdec
      split_ifs at hdec
    all_goals
      intro h
      rw [h] at hdec
      cases hdec
  · rintro ⟨⟨row, hrow, hmatch⟩, haf, hagc6, hagc7, hchannels⟩
    obtain ⟨hop, hsub, hres, harg⟩ := (matches_row_iff hrow).1 hmatch
    by_cases hfill : opField w = 0x42#8
    · have hc : subField w ≠ 0#8 := fun h => hchannels ⟨hfill, h⟩
      exact ⟨.rbFill (subField w) (argField w), decodeWord_eq_ok_iff.2
        ⟨bne_iff_ne.2 hc, encodeWord_eq_iff.2 ⟨hfill, rfl, hres, rfl⟩⟩⟩
    · have hsub := hsub hfill
      obtain ⟨i, hi⟩ := exists_operation_of_row hrow hop.symm hfill harg
        (fun hop harg => haf (eq_of_fields hop hsub hres harg))
        (fun hop => ⟨fun harg => hagc6 (eq_of_fields hop hsub hres harg),
          fun harg => hagc7 (eq_of_fields hop hsub hres harg)⟩)
      exact ⟨i, decodeWord_eq_ok_iff.2 ⟨hi.wf, encodeWord_eq_iff.2
        ⟨hi.op_eq.symm, hsub.trans hi.sub_eq.symm, hres, hi.arg_eq.symm⟩⟩⟩

end Sys2Proof.Machine
end

section
/-! PROOFS. A word that is no operation of its port arrives and is refused, and RB.FILL without channels is no
operation (30_encoding.md R72 to R76; 60_exceptions.md R238). Settles O7 and O33. -/

namespace Sys2Proof.Machine

section

variable {p : Port} {r : Request}

theorem decodeOnPort_eq_none {w : OpWord} (hdec : ∀ i, decodeWord w = .ok i → i.port ≠ p) :
    decodeOnPort p w = none := by
  unfold decodeOnPort
  cases h : decodeWord w with
  | ok i => exact if_neg (hdec i h)
  | error e => rfl

theorem portStep_of_not_decoded {s : State} {rs : List Request} (hw : s.waiting p = r :: rs)
    (hdec : ∀ i, decodeWord r.word = .ok i → i.port ≠ p) :
    portStep p s = .next (refuseWord p r.word s) := by
  simp [portStep, fetchRequest, hw, decodeOnPort_eq_none hdec]

theorem formed_of_not_decoded {n : Nat} (hdec : ∀ i, decodeWord r.word = .ok i → i.port ≠ p)
    (hpay : r.payload = [] ∨ r.payload.length = n) : r.formed n p = true := by
  simp [Request.formed, decodeOnPort_eq_none hdec, hpay.symm]

end

/-- The status a refused word is answered with, in the order of R238. -/
theorem refuseWord_eq_respond (p : Port) (w : OpWord) (s : State) :
    refuseWord p w s = respond p
      (if s.fatal = true ∧ ¬ (p = .direct ∧ opField w = 0x60#8) then .halted
        else if p = .command then .rejected else .illegal) .none s := by
  have hhalted : (s.fatal && !isRegisterReadWord p w) = true ↔
      s.fatal = true ∧ ¬ (p = .direct ∧ opField w = 0x60#8) := by
    simp [isRegisterReadWord, imp_iff_not_or]
  simp only [refuseWord, hhalted]
  split_ifs <;> rfl

/-- Settles O7: the turn refuses the word, and the arrival finds it formed. -/
theorem illegalWordAnswer : Obligations.IllegalWordAnswer := by
  refine ⟨fun s p r rs he hw hdec => ?turn, fun s p r he hdec hpay => ?arrival⟩
  case turn =>
    have hw' : (takeInput s).waiting p = r :: rs := hw
    rw [step_of_port he, portStep_of_not_decoded hw' hdec, refuseWord_eq_respond,
      respond_eq_answered _ _ _ _ r rs hw']
    rfl
  case arrival =>
    have hformed : r.formed (takeInput s).cfg.n p = true := formed_of_not_decoded hdec hpay
    rw [step_of_arrive he, arrive_of_formed hformed]
    rfl

/-! ## RB.FILL without channels (R75) -/

/-- A term that stands for no legal encoding answers ILLEGAL. -/
theorem checked_illegal {i : Instr} {s own : State} (hf : s.fatal = false) (hwf : i.wf = false) :
    checked i s own = respond i.port .illegal .none s := by
  simp [checked, hf, hwf]

/-- Settles O33: what decodes is well formed, and RB.FILL without channels is not. -/
theorem rbFillNeedsChannels : Obligations.RbFillNeedsChannels := by
  refine ⟨fun l w hdec => ?_, fun s l r rs hf hw => ?_⟩
  · obtain ⟨hwf, -⟩ := encodeOfDecodedWord w _ hdec
    cases hwf
  · rw [exec, execRbFill, checked_illegal hf rfl, ← respond_eq_answered _ _ _ _ r rs hw]
    rfl

end Sys2Proof.Machine
end

section
/-! PROOFS. Every operation answers one response on its port, or is RB.FILL going on (20_memory.md R59,
30_encoding.md R80). Settles O8. -/

namespace Sys2Proof.Machine

/-- The oldest request of the port left it with one response, which carries a result only with OK. -/
def AnswersOnce (p : Port) (s t : State) : Prop :=
  ∃ st res, t.responses = s.responses ++ [⟨p, st, res⟩] ∧ (st ≠ .ok → res = .none) ∧
    t.pending = s.pending.set p (s.waiting p).tail

/-- Neither requests nor responses changed. -/
def SamePorts (s t : State) : Prop := t.responses = s.responses ∧ t.pending = s.pending

section

variable {p : Port} {s t : State}

theorem answersOnce_respond {st : Status} {res : Result} (h : SamePorts s t)
    (hres : st ≠ .ok → res = .none) : AnswersOnce p s (respond p st res t) := by
  obtain ⟨hresp, hpend⟩ := h
  refine ⟨st, res, by rw [respond_responses, hresp], hres, ?_⟩
  rw [respond_pending, waiting_def, hpend, waiting_def]

theorem answersOnce_ok (res : Result) (h : SamePorts s t) : AnswersOnce p s (respond p .ok res t) :=
  answersOnce_respond h (absurd rfl)

theorem answersOnce_failure (p : Port) (st : Status) (s : State) :
    AnswersOnce p s (respond p st .none s) :=
  answersOnce_respond ⟨rfl, rfl⟩ fun _ => rfl

theorem answersOnce_raiseFatal (p : Port) (code : Status) (s : State) :
    AnswersOnce p s (raiseFatal p code s) :=
  answersOnce_respond ⟨rfl, rfl⟩ fun _ => rfl

/-- A check that fails answers; where every check passes the own part decides. -/
theorem answersOnce_checked_or_own (i : Instr) (s own : State) :
    AnswersOnce i.port s (checked i s own) ∨ checked i s own = own := by
  obtain ⟨h, -⟩ | ⟨h, -⟩ | ⟨h, -⟩ | ⟨h, -⟩ := checked_cases i s own
  case inr.inr.inr => exact .inr h
  all_goals
    rw [h]
    exact .inl (answersOnce_failure _ _ s)

theorem answersOnce_checked {i : Instr} (h : AnswersOnce i.port s t) :
    AnswersOnce i.port s (checked i s t) :=
  (answersOnce_checked_or_own i s t).elim id fun hc => hc.symm ▸ h

end

theorem answersOnce_acceptCommand (i : Instr) (s : State) :
    AnswersOnce .command s (acceptCommand i s) := by
  obtain ⟨-, h⟩ | ⟨-, -, h⟩ := acceptCommand_cases i s <;> rw [h]
  · exact answersOnce_failure _ _ s
  · exact answersOnce_ok _ ⟨rfl, rfl⟩

theorem fillTopUp_answersOnce_or_samePorts (s : State) :
    AnswersOnce .playback s (fillTopUp s) ∨ SamePorts s (fillTopUp s) := by
  obtain ⟨-, -, h⟩ | ⟨-, -, h⟩ | ⟨x, q, -, -, h⟩ | ⟨x, q, -, -, h⟩ := fillTopUp_cases s <;> rw [h]
  · exact .inr ⟨rfl, rfl⟩
  · exact .inl (answersOnce_raiseFatal _ _ s)
  · exact .inl (answersOnce_raiseFatal _ _ s)
  · exact .inr ⟨rfl, rfl⟩

theorem fillStep_answersOnce_or_samePorts (c l : Nat) (s : State) :
    AnswersOnce .playback s (fillStep c l s) ∨ SamePorts s (fillStep c l s) := by
  unfold fillStep
  split_ifs
  · exact fillTopUp_answersOnce_or_samePorts s
  · split
    next out t h =>
      rw [(fillOutput_frame h).2]
      exact .inl (answersOnce_ok _ ⟨rfl, rfl⟩)
    next => exact .inl (answersOnce_raiseFatal _ _ s)

/-- Every operation but RB.FILL answers at once. -/
theorem exec_answersOnce {i : Instr} (hi : ∀ c l, i ≠ .rbFill c l) (s : State) :
    ∃ t, exec i s = .next t ∧ AnswersOnce i.port s t := by
  cases i with
  | cmdAm | cmdAgc | cmdAf | cmdRssi | cmdIfout | cmdEnd =>
    exact ⟨_, rfl, answersOnce_checked (answersOnce_acceptCommand _ s)⟩
  | firSelIf | firSelAf | firRunIf | firRunAf | agcSel | agcRun | envRun | ncoGen | ifClose =>
    exact ⟨_, rfl, answersOnce_checked (answersOnce_ok _ ⟨rfl, rfl⟩)⟩
  | ncoInit | ifSend =>
    refine ⟨_, rfl, answersOnce_checked ?_⟩
    extract_lets
    split_ifs <;> exact answersOnce_respond ⟨rfl, rfl⟩ fun _ => rfl
  | rbPush =>
    refine ⟨_, rfl, answersOnce_checked ?_⟩
    split
    next t h =>
      rw [(rbPushChunk_some h).2]
      exact answersOnce_ok _ ⟨rfl, rfl⟩
    next => exact answersOnce_raiseFatal _ _ s
  | rbPop =>
    refine ⟨_, rfl, answersOnce_checked ?_⟩
    split
    next v t h =>
      rw [(rbPopSample_some h).2.2]
      exact answersOnce_ok _ ⟨rfl, rfl⟩
    next => exact answersOnce_failure _ _ s
  | csrRead =>
    refine ⟨_, rfl, answersOnce_checked ?_⟩
    split
    · exact answersOnce_ok _ ⟨rfl, rfl⟩
    · exact answersOnce_failure _ _ s
  | rbFill c l => exact absurd rfl (hi c l)

/-- Settles O8: an RB.FILL that passes the checks and goes on leaves its request on the port. -/
theorem oneResponsePerOperation : Obligations.OneResponsePerOperation := by
  intro i s
  by_cases hi : ∃ c l, i = .rbFill c l
  · obtain ⟨c, l, rfl⟩ := hi
    refine ⟨_, rfl, ?_⟩
    obtain h | h := answersOnce_checked_or_own (.rbFill c l) s (fillStep c.toNat l.toNat s)
    · exact .inl h
    · rw [h]
      exact (fillStep_answersOnce_or_samePorts c.toNat l.toNat s).imp_right fun h => ⟨⟨c, l, rfl⟩, h⟩
  · obtain ⟨t, ht, h⟩ := exec_answersOnce (fun c l h => hi ⟨c, l, h⟩) s
    exact ⟨t, ht, .inl h⟩

end Sys2Proof.Machine
end

section
/-! PROOFS. The six lines of the text command protocol and the lines rejected whole (30_encoding.md R82).
Settles O60. -/

namespace Sys2Proof.Machine

/-! ## The keyword of a line -/

theorem splitFirst_append {sep : Char} {k : List Char} (hk : sep ∉ k) (o : List Char) :
    splitFirst sep (k ++ sep :: o) = (k, some o) := by
  induction k with
  | nil => simp [splitFirst]
  | cons c k ih =>
    obtain ⟨hc, hk⟩ := not_or.1 (List.mem_cons.not.1 hk)
    rw [List.cons_append, splitFirst, if_neg (Ne.symm hc), ih hk]

theorem splitFirst_of_not_mem {sep : Char} {k : List Char} (hk : sep ∉ k) :
    splitFirst sep k = (k, none) := by
  induction k with
  | nil => rfl
  | cons c k ih =>
    obtain ⟨hc, hk⟩ := not_or.1 (List.mem_cons.not.1 hk)
    rw [splitFirst, if_neg (Ne.symm hc), ih hk]

/-! ## Decimal numbers -/

/-- The character of a decimal digit. -/
def digitChar (d : Fin 10) : Char := Char.ofNat (48 + d.val)

theorem digitValue_digitChar (d : Fin 10) : digitValue (digitChar d) = some d.val := by
  revert d; decide

theorem digitChar_ne_minus (d : Fin 10) : digitChar d ≠ '-' := by
  revert d; decide

theorem exists_digitChar_of_digitValue {c : Char} {v : Nat} (h : digitValue c = some v) :
    ∃ d, c = digitChar d := by
  unfold digitValue at h
  split_ifs at h with hc
  have hlo : 48 ≤ c.toNat := hc.1
  have hhi : c.toNat ≤ 57 := hc.2
  refine ⟨⟨c.toNat - 48, by omega⟩, ?_⟩
  rw [digitChar, Nat.add_sub_cancel' hlo, Char.ofNat_toNat]

/-- The number a run of decimal digits stands for. -/
def decimalValue (ds : List (Fin 10)) : Nat := ds.foldl (fun acc d => 10 * acc + d.val) 0

theorem digitsFrom_digitChars (ds : List (Fin 10)) (acc : Nat) :
    digitsFrom digitValue 10 acc (ds.map digitChar) =
      some (ds.foldl (fun acc d => 10 * acc + d.val) acc) := by
  induction ds generalizing acc with
  | nil => rfl
  | cons d ds ih => 
    rw [List.map_cons, digitsFrom, digitValue_digitChar]
    simp only
    rw [ih, List.foldl_cons, Nat.mul_comm]

theorem parseNat_digitChars {ds : List (Fin 10)} (hds : ds ≠ []) :
    parseNat (ds.map digitChar) = some (decimalValue ds) := by
  cases ds with
  | nil => exact absurd rfl hds
  | cons d ds => exact digitsFrom_digitChars (d :: ds) 0

theorem exists_digitChars_of_digitsFrom {cs : List Char} {acc v : Nat}
    (h : digitsFrom digitValue 10 acc cs = some v) : ∃ ds : List (Fin 10), cs = ds.map digitChar := by
  induction cs generalizing acc with
  | nil => exact ⟨[], rfl⟩
  | cons c cs ih =>
    rw [digitsFrom] at h
    cases hc : digitValue c with
    | none => simp [hc] at h
    | some d =>
      rw [hc] at h
      obtain ⟨ds, rfl⟩ := ih h
      obtain ⟨d', rfl⟩ := exists_digitChar_of_digitValue hc
      exact ⟨d' :: ds, rfl⟩

theorem exists_digitChars_of_parseNat {cs : List Char} {v : Nat} (h : parseNat cs = some v) :
    ∃ ds : List (Fin 10), ds ≠ [] ∧ cs = ds.map digitChar := by
  cases cs with
  | nil => cases h
  | cons c cs =>
    obtain ⟨ds, hds⟩ := exists_digitChars_of_digitsFrom h
    refine ⟨ds, ?_, hds⟩
    rintro rfl
    cases hds

/-- The number of a text without sign. -/
theorem parseI32_of_no_minus {cs : List Char} (h : cs.head? ≠ some '-') :
    parseI32 cs = (parseNat cs).bind fun k => if k < 2 ^ 31 then some (BitVec.ofNat 32 k) else none := by
  unfold parseI32
  split
  · exact absurd rfl h
  · cases parseNat cs <;> rfl

theorem parseI32_minus (cs : List Char) :
    parseI32 ('-' :: cs) = (parseNat cs).bind fun k =>
      if k ≤ 2 ^ 31 then some (BitVec.ofInt 32 (-(k : Int))) else none := by
  rw [parseI32]
  cases parseNat cs <;> rfl

section

variable {ds : List (Fin 10)}

theorem parseI32_digitChars (hds : ds ≠ []) :
    parseI32 (ds.map digitChar) =
      if decimalValue ds < 2 ^ 31 then some (BitVec.ofNat 32 (decimalValue ds)) else none := by
  have hhead : (ds.map digitChar).head? ≠ some '-' := by
    cases ds with
    | nil => exact absurd rfl hds
    | cons d ds => exact fun h => digitChar_ne_minus d (Option.some.inj h)
  rw [parseI32_of_no_minus hhead, parseNat_digitChars hds, Option.bind_some]

theorem parseI32_minus_digitChars (hds : ds ≠ []) :
    parseI32 ('-' :: ds.map digitChar) =
      if decimalValue ds ≤ 2 ^ 31 then some (BitVec.ofInt 32 (-(decimalValue ds : Int))) else none := by
  rw [parseI32_minus, parseNat_digitChars hds, Option.bind_some]

end

theorem parseI32_eq_none {cs : List Char}
    (h : ∀ ds : List (Fin 10), ds ≠ [] → cs ≠ ds.map digitChar ∧ cs ≠ '-' :: ds.map digitChar) :
    parseI32 cs = none := by
  by_cases hminus : cs.head? = some '-'
  · obtain ⟨cs, rfl⟩ := List.head?_eq_some_iff.1 hminus
    cases hv : parseNat cs with
    | none => rw [parseI32_minus, hv, Option.bind_none]
    | some v =>
      obtain ⟨ds, hds, rfl⟩ := exists_digitChars_of_parseNat hv
      exact absurd rfl (h ds hds).2
  · cases hv : parseNat cs with
    | none => rw [parseI32_of_no_minus hminus, hv, Option.bind_none]
    | some v =>
      obtain ⟨ds, hds, rfl⟩ := exists_digitChars_of_parseNat hv
      exact absurd rfl (h ds hds).1

/-! ## Lines -/

section

variable (names : List Char → BitVec 32) {k : List Char} {op : BitVec 8}

theorem wordOfLine_selector
    (hk : (k, op) ∈ [("AM".toList, 0x01#8), ("AGC".toList, 0x02#8), ("AF".toList, 0x03#8)]) :
    (∀ o, wordOfLine names (k ++ ' ' :: o) = (parseI32 o).map (mkWord op 0#8 0#16)) ∧
      wordOfLine names k = none := by
  simp only [List.mem_cons, Prod.mk.injEq, List.not_mem_nil, or_false] at hk
  obtain ⟨rfl, rfl⟩ | ⟨rfl, rfl⟩ | ⟨rfl, rfl⟩ := hk <;>
    exact ⟨fun _ => Option.map_map _ _ _, rfl⟩

theorem wordOfLine_sink (hk : (k, op) ∈ [("RSSI".toList, 0x04#8), ("IFOUT".toList, 0x05#8)]) :
    (∀ o, wordOfLine names (k ++ ' ' :: o) = some (mkWord op 0#8 0#16 (sinkHandle names o))) ∧
      wordOfLine names k = some (mkWord op 0#8 0#16 0#32) := by
  simp only [List.mem_cons, Prod.mk.injEq, List.not_mem_nil, or_false] at hk
  obtain ⟨rfl, rfl⟩ | ⟨rfl, rfl⟩ := hk <;> exact ⟨fun _ => rfl, rfl⟩

theorem sinkHandle_of_name {o : List Char} (hempty : o ≠ []) (hnone : o ≠ "None".toList) :
    sinkHandle names o = names o :=
  if_neg (not_or.2 ⟨hempty, hnone⟩)

theorem wordOfLine_of_other_keyword (hsp : ' ' ∉ k)
    (hk : k ∉ ["AM".toList, "AGC".toList, "AF".toList, "RSSI".toList, "IFOUT".toList, "END".toList])
    (o : List Char) : wordOfLine names (k ++ ' ' :: o) = none ∧ wordOfLine names k = none := by
  simp only [List.mem_cons, List.not_mem_nil, or_false, not_or] at hk
  obtain ⟨ham, hagc, haf, hrssi, hifout, hend⟩ := hk
  constructor
  · simp only [wordOfLine, commandOfLine, splitFirst_append hsp, if_neg, ham, hagc, haf, hrssi, hifout,
      not_false_eq_true, Option.map_none]
  · simp only [wordOfLine, commandOfLine, splitFirst_of_not_mem hsp, if_neg, hrssi, hifout, hend,
      not_false_eq_true, Option.map_none]

end

/-- Settles O60: a selector line is its parsed number under its OP, a sink line the handle of its name. -/
theorem textCommandLines : Obligations.TextCommandLines := by
  intro names
  refine ⟨fun k op hk => ?selector, fun k op hk => ?sink, rfl, fun _ => rfl,
    fun k o hsp hk => wordOfLine_of_other_keyword names hsp hk o⟩
  case selector =>
    obtain ⟨hline, halone⟩ := wordOfLine_selector names hk
    refine ⟨fun ds hds => ?number, fun o ho => ?rejected, halone⟩
    case number =>
      extract_lets o v
      have hpos : parseI32 o = _ := parseI32_digitChars hds
      have hneg : parseI32 ('-' :: o) = _ := parseI32_minus_digitChars hds
      rw [hline, hline, hpos, hneg]
      constructor <;> exact apply_ite (Option.map _) _ _ _
    case rejected =>
      rw [hline, parseI32_eq_none ho, Option.map_none]
  case sink =>
    obtain ⟨hline, halone⟩ := wordOfLine_sink names hk
    refine ⟨fun o hempty hnone => ?_, hline "None".toList, hline [], halone⟩
    rw [hline, sinkHandle_of_name names hempty hnone]

end Sys2Proof.Machine
end

section
/-! PROOFS. The Filter Bank (40_filter_bank.md R100 to R108): a selection gives a fresh instance, the FIR
function is a dot product over a sliding window and carries its history from chunk to chunk, and a tap of 1.0
is the identity. Settles O12, O13, O14 and O15. -/

namespace Sys2Proof.Machine

/-! ## The FIR function as a sliding window (R100, R103) -/

/-- The history after a chunk is the last of the history and the chunk together, as many samples as the
history had. -/
theorem firChunk_history (d : DrawSite) (c : List F32) {h : List F32} (hlen : 1 ≤ h.length) (x : Chunk) :
    (firChunk d c h x).1 = (h ++ x).drop x.length := by
  induction x generalizing d h with
  | nil => simp [firChunk]
  | cons v x ih =>
    obtain ⟨a, t, rfl⟩ := List.exists_cons_of_length_pos hlen
    simpa [firChunk] using ih d.nextSample (h := t ++ [v]) (by simp)

/-- Output sample n is the dot product of the table with the window that ends at input sample n. -/
theorem firChunk_sample (d : DrawSite) (c : List F32) {h : List F32} (hlen : 1 ≤ h.length) {x : Chunk}
    {n : Nat} (hn : n < x.length) :
    ∃ e : DrawSite, (firChunk d c h x).2[n]? = some (dot e (((h ++ x).drop (n + 1)).take h.length) c) := by
  induction x generalizing d h n with
  | nil => simp at hn
  | cons v x ih =>
    obtain ⟨a, t, rfl⟩ := List.exists_cons_of_length_pos hlen
    cases n with
    | zero => exact ⟨d, by simp [firChunk, List.take_length_add_append]⟩
    | succ n =>
      obtain ⟨e, he⟩ := ih d.nextSample (h := t ++ [v]) (by simp) (Nat.lt_of_succ_lt_succ hn)
      exact ⟨e, by simpa [firChunk] using he⟩

/-! ## Operations of the direct port in DIRECT mode (R101 to R105) -/

section

variable {s : State} {r : Request} {rs : List Request} (hf : s.fatal = false) (hm : s.mode = .direct)
  (hw : s.waiting .direct = r :: rs)

include hf hm hw

/-- An operation that DIRECT mode admits answers what its own part does. -/
theorem checked_respond_direct {i : Instr} (hwf : i.wf = true) (hi : admittedIn i .direct = true)
    (st : Status) (res : Result) {t : State} (ht : t.pending = s.pending) :
    checked i s (respond .direct st res t) = answered .direct st res rs t := by
  rw [checked_own (.inl hf) hwf (hm ▸ hi), respond_of_same_ports st res hw ht]

theorem exec_firSelIf (k : IfSpec) :
    exec (.firSelIf k) s = .next (answered .direct .ok .none rs (selectIf k s)) :=
  congrArg Host.Outcome.next (checked_respond_direct hf hm hw (i := .firSelIf k) rfl rfl _ _ rfl)

theorem exec_firSelAf (k : AfSpec) :
    exec (.firSelAf k) s = .next (answered .direct .ok .none rs (selectAf k s)) :=
  congrArg Host.Outcome.next (checked_respond_direct hf hm hw (i := .firSelAf k) rfl rfl _ _ rfl)

theorem exec_firRunIf :
    exec .firRunIf s = .next (answered .direct .ok (.chunk (ifStage s r.payload).2) rs
      { s with ifHist := (ifStage s r.payload).1 }) := by
  rw [← payload_of_waiting hw]
  exact congrArg Host.Outcome.next (checked_respond_direct hf hm hw (i := .firRunIf) rfl rfl _ _ rfl)

theorem exec_firRunAf :
    exec .firRunAf s = .next (answered .direct .ok (.chunk (afStage s r.payload).2) rs
      { s with afHist := (afStage s r.payload).1 }) := by
  rw [← payload_of_waiting hw]
  exact congrArg Host.Outcome.next (checked_respond_direct hf hm hw (i := .firRunAf) rfl rfl _ _ rfl)

end

/-- Settles O12: a selection writes the spec and as many zeros as its table has taps. -/
theorem firSelectionIsFresh : Obligations.FirSelectionIsFresh := by
  intro s r rs hf hm hw
  exact ⟨exec_firSelIf hf hm hw, exec_firSelAf hf hm hw⟩

/-! ## The two stages on a chunk (R104 to R107) -/

theorem ifStage_of_none {s : State} (hk : s.ifSpec = .none) (x : Chunk) :
    ifStage s x = ([x.getLastD 0#32], x) :=
  if_pos hk

theorem ifStage_of_ne_none {s : State} (hk : s.ifSpec ≠ .none) (x : Chunk) :
    ifStage s x = firChunk (stageSite s.tick 0) (s.cfg.ifRom s.ifSpec) s.ifHist x :=
  if_neg hk

/-- Settles O13: both stages are the FIR function, so a sliding window over the history and the chunk. -/
theorem firRunConvolves : Obligations.FirRunConvolves := by
  intro s r rs hf hm hw
  constructor
  case left =>
    intro hk _ hlen
    have hrun := exec_firRunIf hf hm hw
    rw [ifStage_of_ne_none hk, firChunk_history _ _ hlen] at hrun
    exact ⟨_, hrun, (firChunk_length _ _ _ _ hlen).2, fun n hn => firChunk_sample _ _ hlen hn⟩
  case right =>
    intro _ hlen
    have hrun := exec_firRunAf hf hm hw
    rw [afStage, firChunk_history _ _ hlen] at hrun
    exact ⟨_, hrun, (firChunk_length _ _ _ _ hlen).2, fun n hn => firChunk_sample _ _ hlen hn⟩

/-! ## A tap of 1.0 (R107) -/

/-- A product with 1.0 needs no rounding. -/
theorem mulBits_one {v : F32} (hv : isNan v = false) : mulBits v one = lowBits v := by
  have hinf_one : isInf one = false := by decide
  have hmag_one : magnitude one = 2 ^ 149 := by decide +kernel
  have hle : lowBits v ≤ 0x7F800000 := by simpa [isNan_eq] using hv
  rw [mulBits, hinf_one, Bool.or_false, hmag_one]
  cases hinf : isInf v with
  | true => simpa [isInf_eq, eq_comm] using hinf
  | false =>
    obtain ⟨k, hk, hround⟩ :=
      exists_nearestBits_roundMagnitude (magnitude v * 2 ^ 149) (Nat.two_pow_pos 149)
    obtain rfl : k = lowBits v := hk.eq_of_exact (Nat.two_pow_pos 149) (by rw [magnitude_eq])
    rw [if_neg Bool.false_ne_true, hround, Nat.min_eq_left hle]

theorem fmul_one (d : DrawSite) {v : F32} (hv : isNan v = false) : fmul d v one = v := by
  obtain ⟨hnan, hinf, hzero, hneg⟩ :
      isNan one = false ∧ isInf one = false ∧ isZero one = false ∧ isNeg one = false := by decide
  have hvalid : ¬ MulInvalid v one := by simp [hv, hnan, hinf, hzero]
  rw [fmul_of_valid hvalid]
  apply eq_of_isNeg_eq_of_lowBits_eq
  · rw [isNeg_packValue (mulBits_le v one), hneg, Bool.bne_false]
  · rw [lowBits_packValue (mulBits_le v one), mulBits_one hv]

/-- The table [1.0] passes a chunk without NaN, and keeps its last sample. -/
theorem firChunk_one (d : DrawSite) (h : F32) {x : Chunk} (hx : ∀ u ∈ x, isNan u = false) :
    firChunk d [one] [h] x = ([x.getLastD h], x) := by
  induction x generalizing d h with
  | nil => rfl
  | cons v x ih =>
    obtain ⟨hv, hx⟩ := List.forall_mem_cons.1 hx
    have hdot : dot d [v] [one] = v := fmul_one d hv
    simp only [firChunk, List.drop_one, List.tail_cons, List.nil_append, ih d.nextSample v hx, hdot,
      List.getLastD_cons]

/-- Settles O14: the bypass passes the chunk itself; with the table [1.0] each output is one product, and
multiplying by 1.0 is exact. -/
theorem ifNoneIsIdentity : Obligations.IfNoneIsIdentity := by
  refine ⟨fun s r rs last hf hm hw hk hlast => ?bypass, fun d v => fmul_one d,
    fun d h v x hx hlast => ?table⟩
  case bypass =>
    rw [exec_firRunIf hf hm hw, ifStage_of_none hk, List.getLastD_eq_getLast?, hlast, Option.getD_some]
  case table =>
    rw [← one, firChunk_one d h hx, List.getLastD_eq_getLast?, hlast, Option.getD_some]

/-! ## Two chunks in turn (R103) -/

/-- The sum of products at two sites, from seeds equal up to the choice of NaN. -/
theorem sameValue_dotFrom_sites (d e : DrawSite) {acc acc' : F32} (hacc : SameValue acc acc')
    (h c : List F32) : SameValue (dotFrom d acc h c) (dotFrom e acc' h c) := by
  induction h generalizing d e acc acc' c with
  | nil => exact hacc
  | cons u h ih =>
    cases c with
    | nil => exact hacc
    | cons a c =>
      exact ih _ _ (nanExactlyOn_fadd.sameValue_congr _ _ hacc
        (nanExactlyOn_fmul.sameValue_congr _ _ (.refl u) (.refl a))) c

/-- The dot product is the same at any two sites, up to the choice of NaN. -/
theorem sameValue_dot_sites (d e : DrawSite) (h c : List F32) : SameValue (dot d h c) (dot e h c) := by
  cases h with
  | nil => exact .refl _
  | cons u h =>
    cases c with
    | nil => exact .refl _
    | cons a c =>
      exact sameValue_dotFrom_sites _ _ (nanExactlyOn_fmul.sameValue_congr _ _ (.refl u) (.refl a)) h c

/-- The FIR function is the same at any two sites, up to the choice of NaN in the output. -/
theorem firChunk_sites (d e : DrawSite) (c h : List F32) (x : Chunk) :
    (firChunk d c h x).1 = (firChunk e c h x).1 ∧
      List.Forall₂ SameValue (firChunk d c h x).2 (firChunk e c h x).2 := by
  induction x generalizing d e h with
  | nil => exact ⟨rfl, .nil⟩
  | cons v x ih =>
    obtain ⟨hhist, hout⟩ := ih d.nextSample e.nextSample (h.drop 1 ++ [v])
    exact ⟨hhist, .cons (sameValue_dot_sites _ _ _ _) hout⟩

/-- Settles O15, by induction on the first chunk: once it is empty both sides filter the second chunk from
the same history, at sites that may differ. -/
theorem firHistoryCarriesAcrossChunks : Obligations.FirHistoryCarriesAcrossChunks := by
  intro d d1 d2 c h x y
  induction x generalizing d d1 h with
  | nil => exact firChunk_sites d d2 c h y
  | cons v x ih =>
    obtain ⟨hhist, hout⟩ := ih d.nextSample d1.nextSample (h.drop 1 ++ [v])
    exact ⟨hhist, .cons (sameValue_dot_sites _ _ _ _) hout⟩

end Sys2Proof.Machine
end

section
/-! PROOFS. The error of one rounded operation as a rational number (00_scope.md R10, R11): a result that does
not overflow is finite and off by at most 2^-24 of the exact value and half of the unit 2^-149. -/

namespace Sys2Proof.Machine

/-! ## The error of one rounding (R11) -/

/-- Every number lies between two neighbouring patterns. -/
theorem exists_bitsValue_le_lt (x : Nat) : ∃ n, bitsValue n ≤ x ∧ x < bitsValue (n + 1) := by
  have hex : ∃ n, x < bitsValue n := ⟨x + 1, bitsValue_strictMono.le_apply⟩
  have hpos : Nat.find hex ≠ 0 := fun h => by
    have := Nat.find_spec hex
    rw [h, bitsValue_zero] at this
    omega
  obtain ⟨n, hn⟩ := Nat.exists_eq_succ_of_ne_zero hpos
  refine ⟨n, Nat.le_of_not_lt (Nat.find_min hex (by omega)), ?_⟩
  have := Nat.find_spec hex
  rwa [hn] at this

/-- The nearest pattern is off by at most 2^-24 of p/q, or by half a unit. -/
theorem NearestBits.error_le {p q k : Nat} (h : NearestBits p q k) (hq : 0 < q) :
    2 ^ 24 * |(bitsValue k * q : Int) - p| ≤ p + 2 ^ 23 * q := by
  obtain ⟨n, hlo, hhi⟩ := exists_bitsValue_le_lt (p / q)
  rw [Nat.le_div_iff_mul_le hq] at hlo
  rw [Nat.div_lt_iff_lt_mul hq] at hhi
  have hn := (h n).1
  have hn' := (h (n + 1)).1
  obtain ⟨e, m, rfl, hm, he⟩ := exists_significand n
  rw [Nat.add_assoc, bitsValue_of_significand hm (he.imp_left Nat.le_succ_of_le)] at hhi hn'
  rw [bitsValue_of_significand hm.le he] at hlo hn
  have hgap : (m + 1) * 2 ^ e * q = m * 2 ^ e * q + 2 ^ e * q := by ring
  have hquantum : 2 ^ 23 * (2 ^ e * q) ≤ p + 2 ^ 23 * q := by
    obtain hnorm | rfl := he
    · calc 2 ^ 23 * (2 ^ e * q) ≤ m * (2 ^ e * q) := Nat.mul_le_mul_right _ hnorm
        _ = m * 2 ^ e * q := by ring
        _ ≤ p + 2 ^ 23 * q := hlo.trans (Nat.le_add_right _ _)
    · omega
  simp only [← Nat.cast_mul, Int.abs_eq_natAbs] at *
  rw [hgap] at hhi hn'
  omega

theorem NearestBits.rat_error_le {p q k : Nat} (h : NearestBits p q k) (hq : 0 < q) :
    |(bitsValue k / 2 ^ 149 - p / (q * 2 ^ 149) : Rat)| ≤ p / (q * 2 ^ 149) / 2 ^ 24 + 1 / 2 ^ 150 := by
  have hqr : (0 : Rat) < q := by exact_mod_cast hq
  have herr : 2 ^ 24 * |(bitsValue k * q : Rat) - p| ≤ p + 2 ^ 23 * q := by
    exact_mod_cast h.error_le hq
  have hdiff : (bitsValue k / 2 ^ 149 - p / (q * 2 ^ 149) : Rat) =
      (bitsValue k * q - p) / (q * 2 ^ 149) := by
    field_simp
  have hbound : (p / (q * 2 ^ 149) / 2 ^ 24 + 1 / 2 ^ 150 : Rat) =
      (p + 2 ^ 23 * q) / 2 ^ 24 / (q * 2 ^ 149) := by
    field_simp
  rw [hdiff, hbound, abs_div, abs_of_pos (show (0 : Rat) < q * 2 ^ 149 by positivity)]
  gcongr
  linarith

/-! ## Values as rational numbers: a sign times a magnitude -/

/-- The sign as a factor. -/
def signOf (neg : Bool) : Rat := if neg then -1 else 1

theorem abs_signOf (neg : Bool) : |signOf neg| = 1 := by
  cases neg <;> simp [signOf]

theorem signOf_mul (s t : Bool) : signOf s * signOf t = signOf (s != t) := by
  cases s <;> cases t <;> simp [signOf]

theorem signOf_div (s t : Bool) : signOf s / signOf t = signOf (s != t) := by
  cases s <;> cases t <;> simp [signOf]

theorem cast_withSign (neg : Bool) (z : Int) : ((withSign neg z : Int) : Rat) = signOf neg * z := by
  cases neg <;> simp [signOf, withSign]

theorem ratValue_eq (v : F32) : ratValue v = signOf (isNeg v) * (magnitude v / 2 ^ 149) := by
  rw [ratValue, signedValue_eq, cast_withSign, Int.cast_natCast, mul_div_assoc]

theorem abs_ratValue (v : F32) : |ratValue v| = (magnitude v : Rat) / 2 ^ 149 := by
  rw [ratValue_eq, abs_mul, abs_signOf, one_mul]
  exact abs_of_nonneg (by positivity)

theorem ratValue_eq_zero_iff (v : F32) : ratValue v = 0 ↔ isZero v = true := by
  rw [← abs_eq_zero, abs_ratValue, ← magnitude_eq_zero_iff]
  simp

/-! ## The error of one rounded operation -/

/-- The value r is z after one rounding: finite, and off by at most 2^-24 of z and half of 2^-149. -/
structure Rounds (r : F32) (z : Rat) : Prop where
  finite : isFinite r = true
  error : |ratValue r - z| ≤ |z| / 2 ^ 24 + 1 / 2 ^ 150

section

variable {r : F32} {z : Rat} (h : Rounds r z)

include h

theorem Rounds.abs_error : |(|ratValue r| - |z|)| ≤ |z| / 2 ^ 24 + 1 / 2 ^ 150 :=
  (abs_abs_sub_abs_le _ _).trans h.error

theorem Rounds.abs_le : |ratValue r| ≤ |z| + |z| / 2 ^ 24 + 1 / 2 ^ 150 := by
  linarith [le_of_abs_le h.abs_error]

end

theorem rounds_packValue {neg : Bool} {p q : Nat} {z : Rat} (hq : 0 < q)
    (hz : z = signOf neg * (p / (q * 2 ^ 149))) (hsmall : |z| ≤ 2 ^ 127) :
    Rounds (packValue neg (roundMagnitude p q)) z := by
  have hle := roundMagnitude_le p q
  obtain ⟨k, hk, hround⟩ := exists_nearestBits_roundMagnitude p hq
  have hqr : (0 : Rat) < q := by exact_mod_cast hq
  have habs : |z| = p / (q * 2 ^ 149) := by
    rw [hz, abs_mul, abs_signOf, one_mul]
    exact abs_of_nonneg (by positivity)
  have hp : p ≤ 2 ^ 127 * (q * 2 ^ 149) := by
    rw [habs, div_le_iff₀ (by positivity)] at hsmall
    exact_mod_cast hsmall
  have hfin : k < 0x7F800000 := by
    rw [← not_le, hk.infinite_iff hq]
    omega
  have hmin : min k 0x7F800000 = k := by omega
  constructor
  case finite =>
    rw [isFinite_eq, lowBits_packValue hle, hround, decide_eq_true_eq]
    omega
  case error =>
    rw [ratValue_eq, magnitude_eq, isNeg_packValue hle, lowBits_packValue hle, hround, hmin, habs, hz,
      ← mul_sub, abs_mul, abs_signOf, one_mul]
    exact hk.rat_error_le hq

section

variable {a b : F32} (d : DrawSite) (ha : isFinite a = true) (hb : isFinite b = true)

include ha hb

theorem rounds_fadd (h : |ratValue a + ratValue b| ≤ 2 ^ 127) :
    Rounds (fadd d a b) (ratValue a + ratValue b) := by
  rw [fadd_of_isFinite ha hb]
  refine rounds_packValue Nat.one_pos ?_ h
  rw [Nat.cast_one, one_mul, ← mul_div_assoc, ← Int.cast_natCast (R := Rat), ← cast_withSign,
    withSign_sumSign, Int.cast_add, add_div, ratValue, ratValue]

theorem rounds_fmul (h : |ratValue a * ratValue b| ≤ 2 ^ 127) :
    Rounds (fmul d a b) (ratValue a * ratValue b) := by
  rw [fmul_of_isFinite ha hb]
  refine rounds_packValue (by positivity) ?_ h
  rw [ratValue_eq, ratValue_eq, ← signOf_mul]
  push_cast
  ring

theorem rounds_fdiv (h0 : ratValue b ≠ 0) (h : |ratValue a / ratValue b| ≤ 2 ^ 127) :
    Rounds (fdiv d a b) (ratValue a / ratValue b) := by
  have hz : isZero b = false := by rwa [← Bool.not_eq_true, ← ratValue_eq_zero_iff]
  have hmag : magnitude b ≠ 0 := by rw [Ne, magnitude_eq_zero_iff, hz]; decide
  rw [fdiv_of_isFinite ha hb hz]
  refine rounds_packValue (Nat.pos_of_ne_zero hmag) ?_ h
  rw [ratValue_eq, ratValue_eq, mul_div_mul_comm, signOf_div]
  congr 1
  rw [Nat.cast_mul, Nat.cast_pow, Nat.cast_ofNat]
  field_simp

end

end Sys2Proof.Machine
end

section
/-! PROOFS. The AGC (41_agc.md R120 to R124, R127): a selection gives a zero history, a chunk is scaled exactly
above the floor, and with zero products it never is. Settles O17, O18, O19 and O20. -/

namespace Sys2Proof.Machine

/-! ## What AGC.SEL and AGC.RUN answer (R121, R122) -/

section

variable {s : State} {r : Request} {rs : List Request} (hf : s.fatal = false) (hm : s.mode = .direct)
  (hw : s.waiting .direct = r :: rs)

include hf hm hw

theorem exec_agcSel (k : AgcSpec) :
    exec (.agcSel k) s = .next (answered .direct .ok .none rs (selectAgc k s)) :=
  congrArg Host.Outcome.next (checked_respond_direct hf hm hw (i := .agcSel k) rfl rfl _ _ rfl)

theorem exec_agcRun :
    exec .agcRun s = .next (answered .direct .ok
      (.chunkMetric (agcStage s r.payload).out (agcStage s r.payload).metric) rs
      { s with agcHist := (agcStage s r.payload).hist, rssi := (agcStage s r.payload).metric }) := by
  rw [← payload_of_waiting hw]
  exact congrArg Host.Outcome.next (checked_respond_direct hf hm hw (i := .agcRun) rfl rfl _ _ rfl)

end

/-- Settles O17: a selection writes the spec and a zero history. -/
theorem agcSelectionIsFresh : Obligations.AgcSelectionIsFresh := fun _ k _ _ hf hm hw =>
  exec_agcSel hf hm hw k

/-! ## The AGC stage above the floor and not above it (R120, R123) -/

/-- The smoothed level of the stage on a chunk: steps (a) to (c) of R120. -/
def smoothedLevel (s : State) (x : Chunk) : F32 :=
  smoothedRssi s.tick (pushLevel s.agcHist (instantRssi s.tick s.cfg.n x)) (s.cfg.agcRom s.agcSpec)

theorem agcStage_of_loud {s : State} {x : Chunk} (h : fgt (smoothedLevel s x) floorLevel = true) :
    agcStage s x = ⟨pushLevel s.agcHist (instantRssi s.tick s.cfg.n x),
      mapSamples (gainSample (smoothedLevel s x)) (stageSite s.tick 3) x, smoothedLevel s x⟩ :=
  if_pos h

theorem agcStage_of_quiet {s : State} {x : Chunk} (h : fgt (smoothedLevel s x) floorLevel = false) :
    agcStage s x = ⟨pushLevel s.agcHist (instantRssi s.tick s.cfg.n x), x, instantRssi s.tick s.cfg.n x⟩ :=
  if_neg (Bool.not_eq_true _ ▸ h)

@[simp] theorem agcStage_hist (s : State) (x : Chunk) :
    (agcStage s x).hist = pushLevel s.agcHist (instantRssi s.tick s.cfg.n x) := by
  cases h : fgt (smoothedLevel s x) floorLevel
  · rw [agcStage_of_quiet h]
  · rw [agcStage_of_loud h]

/-- Settles O18: the two branches of the floor test. -/
theorem agcRunNormalizes : Obligations.AgcRunNormalizes := by
  intro s r rs hf hm hw
  have hrun := exec_agcRun hf hm hw
  refine ⟨stageSite s.tick 1, stageSite s.tick 2, (agcStage s r.payload).out, ?_⟩
  intro inst g a sm loud metric
  obtain hloud | hquiet : loud = true ∨ loud = false := Bool.eq_false_or_eq_true loud
  case inl =>
    have hmetric : metric = sm := if_pos hloud
    rw [agcStage_of_loud hloud] at hrun ⊢
    rw [hmetric]
    refine ⟨hrun, fun h => absurd (hloud.symm.trans h) nofun, fun _ => ⟨mapSamples_length _ _ _, ?_⟩⟩
    intro n x hx
    obtain ⟨e, he⟩ := mapSamples_get _ _ _ n x hx
    exact ⟨e, e.atOp 1, he⟩
  case inr =>
    have hmetric : metric = inst := if_neg (Bool.not_eq_true _ ▸ hquiet)
    rw [agcStage_of_quiet hquiet] at hrun ⊢
    rw [hmetric]
    exact ⟨hrun, fun _ => rfl, fun h => absurd (hquiet.symm.trans h) nofun⟩

/-! ## Zeros (R11, R12) -/

theorem isFinite_of_isZero {v : F32} (h : isZero v = true) : isFinite v = true :=
  isFinite_of_not_nan_of_not_inf (isNan_of_isZero h) (isInf_of_isZero h)

theorem signedValue_of_isZero {v : F32} (h : isZero v = true) : signedValue v = 0 := by
  rw [signedValue_eq, magnitude_eq_zero_iff.2 h]
  cases isNeg v <;> rfl

/-- A zero is known by its sign. -/
theorem signedZero_isNeg {v : F32} (h : isZero v = true) : signedZero (isNeg v) = v := by
  apply eq_of_isNeg_eq_of_lowBits_eq (isNeg_packValue (Nat.zero_le _))
  rw [lowBits_packValue (Nat.zero_le _)]
  simpa [isZero_eq, eq_comm] using h

theorem roundMagnitude_zero (q : Nat) : roundMagnitude 0 q = 0 := by
  simp [roundMagnitude]

theorem mulBits_of_isZero {a b : F32} (h : isZero a = true ∨ isZero b = true) (hv : ¬ MulInvalid a b) :
    mulBits a b = 0 := by
  simp only [not_or, not_and, Bool.not_eq_true] at hv
  obtain ⟨-, -, hab, hba⟩ := hv
  obtain ha | hb := h
  · rw [mulBits, isInf_of_isZero ha, hba ha, magnitude_eq_zero_iff.2 ha, Nat.zero_mul,
      roundMagnitude_zero]
    rfl
  · have hai : isInf a = false := by
      by_contra hai
      exact absurd (hab (by simpa using hai)) (by simp [hb])
    rw [mulBits, isInf_of_isZero hb, hai, magnitude_eq_zero_iff.2 hb, Nat.mul_zero,
      roundMagnitude_zero]
    rfl

/-- A zero times a finite value is a zero. -/
theorem fmul_of_isZero (d : DrawSite) {a b : F32} (ha : isZero a = true) (hb : isFinite b = true) :
    fmul d a b = signedZero (isNeg a != isNeg b) := by
  have hv : ¬ MulInvalid a b := by
    simp [isNan_of_isZero ha, isNan_of_isFinite hb, isInf_of_isZero ha, isInf_of_isFinite hb]
  rw [fmul_of_valid hv, mulBits_of_isZero (.inl ha) hv, signedZero]

/-- A zero divided by a value other than zero and NaN, infinite ones included, is a zero. -/
theorem fdiv_of_isZero (d : DrawSite) {a b : F32} (ha : isZero a = true) (hb : isNan b = false)
    (hz : isZero b = false) : fdiv d a b = signedZero (isNeg a != isNeg b) := by
  have hv : ¬ DivInvalid a b := by simp [isNan_of_isZero ha, hb, isInf_of_isZero ha, hz]
  have hbits : divBits a b = 0 := by
    simp [divBits, isInf_of_isZero ha, hz, magnitude_eq_zero_iff.2 ha, roundMagnitude_zero]
  rw [fdiv_of_valid hv, hbits, signedZero]

/-- NaN, or a zero of either sign: what is never above the floor. -/
def NanOrZero (v : F32) : Prop := isNan v = true ∨ isZero v = true

theorem NanOrZero.not_loud {v : F32} (h : NanOrZero v) : fgt v floorLevel = false := by
  obtain hnan | hzero := h
  · exact fgt_of_isNan (.inl hnan)
  · have hfloor : ¬ signedValue floorLevel < 0 := by decide +kernel
    rw [fgt_eq_of_not_nan (isNan_of_isZero hzero) (by decide), signedValue_of_isZero hzero,
      decide_eq_false hfloor]

/-- A product with a zero factor is NaN or zero. -/
theorem nanOrZero_fmul (d : DrawSite) {a b : F32} (h : isZero a = true ∨ isZero b = true) :
    NanOrZero (fmul d a b) := by
  by_cases hv : MulInvalid a b
  · exact .inl ((nanExactlyOn_fmul.isNan_iff d a b).2 hv)
  · rw [fmul_of_valid hv, mulBits_of_isZero h hv]
    exact .inr (isZero_signedZero _)

theorem NanOrZero.fadd (d : DrawSite) {a b : F32} (ha : NanOrZero a) (hb : NanOrZero b) :
    NanOrZero (fadd d a b) := by
  obtain hna | hza := ha
  · exact .inl ((nanExactlyOn_fadd.isNan_iff d a b).2 (.inl hna))
  obtain hnb | hzb := hb
  · exact .inl ((nanExactlyOn_fadd.isNan_iff d a b).2 (.inr (.inl hnb)))
  · rw [fadd_of_isFinite (isFinite_of_isZero hza) (isFinite_of_isZero hzb), signedValue_of_isZero hza,
      signedValue_of_isZero hzb]
    exact .inr ((isZero_roundSum _ _).2 rfl)

/-! ## The smoothed level as a sum of three products (R120, R124) -/

theorem exists_smoothedLevel_eq (s : State) (x : Chunk) :
    ∃ d0 d1 d2 e1 e2 : DrawSite, smoothedLevel s x =
      fadd e2 (fadd e1 (fmul d0 s.agcHist.t1 (s.cfg.agcRom s.agcSpec).t0)
          (fmul d1 s.agcHist.t2 (s.cfg.agcRom s.agcSpec).t1))
        (fmul d2 (instantRssi s.tick s.cfg.n x) (s.cfg.agcRom s.agcSpec).t2) :=
  ⟨_, _, _, _, _, rfl⟩

/-- With a zero in each of the three products the smoothed level is not above the floor. -/
theorem not_loud_of_zero_products {s : State} {x : Chunk}
    (h0 : isZero s.agcHist.t1 = true ∨ isZero (s.cfg.agcRom s.agcSpec).t0 = true)
    (h1 : isZero s.agcHist.t2 = true ∨ isZero (s.cfg.agcRom s.agcSpec).t1 = true)
    (h2 : isZero (instantRssi s.tick s.cfg.n x) = true ∨
      isZero (s.cfg.agcRom s.agcSpec).t2 = true) :
    fgt (smoothedLevel s x) floorLevel = false := by
  obtain ⟨d0, d1, d2, e1, e2, heq⟩ := exists_smoothedLevel_eq s x
  rw [heq]
  exact (((nanOrZero_fmul d0 h0).fadd e1 (nanOrZero_fmul d1 h1)).fadd e2 (nanOrZero_fmul d2 h2)).not_loud

/-- Settles O19: with the zero table every product has a zero factor. -/
theorem agcNonePassesUnscaled : Obligations.AgcNonePassesUnscaled := by
  intro s r rs hf hm hw hk
  have hrom : s.cfg.agcRom s.agcSpec = ⟨0#32, 0#32, 0#32⟩ := by rw [hk]; rfl
  have hzero : isZero 0#32 = true := by decide
  have hquiet : fgt (smoothedLevel s r.payload) floorLevel = false :=
    not_loud_of_zero_products (.inr (by rw [hrom]; exact hzero)) (.inr (by rw [hrom]; exact hzero))
      (.inr (by rw [hrom]; exact hzero))
  have hrun := exec_agcRun hf hm hw
  rw [agcStage_of_quiet hquiet] at hrun
  exact ⟨stageSite s.tick 1, hrun⟩

/-! ## A chunk of zeros (R127) -/

theorem natValue_eq_roundSum (n : Nat) : natValue n = roundSum false (n * 2 ^ 149 : Nat) := by
  have hsign : (if ((n * 2 ^ 149 : Nat) : Int) = 0 then false
      else decide (((n * 2 ^ 149 : Nat) : Int) < 0)) = false := by
    rw [decide_eq_false (by omega), ite_self]
  rw [natValue, roundSum, hsign, Int.natAbs_natCast]

theorem isNeg_natValue (n : Nat) : isNeg (natValue n) = false := isNeg_packValue (roundMagnitude_le _ _)

theorem isNan_natValue (n : Nat) : isNan (natValue n) = false := isNan_packValue (roundMagnitude_le _ _)

theorem isZero_natValue {n : Nat} (hn : 1 ≤ n) : isZero (natValue n) = false := by
  rw [natValue_eq_roundSum, ← Bool.not_eq_true, isZero_roundSum]
  omega

theorem isZero_of_eq_zero_or {v : F32} (h : v = 0#32 ∨ v = 0x80000000#32) : isZero v = true := by
  obtain rfl | rfl := h <;> decide

theorem fabs_of_isZero {v : F32} (h : isZero v = true) : fabs v = 0#32 :=
  BitVec.eq_of_toNat_eq (by simpa [toNat_fabs, isZero_eq] using h)

theorem fadd_zero_zero (d : DrawSite) : fadd d 0#32 0#32 = 0#32 := by
  rw [fadd_of_isFinite (by decide) (by decide)]
  decide +kernel

section

variable {x : Chunk} (hx : ∀ v ∈ x, isZero v = true)

include hx

theorem absSumFrom_of_zeros (d : DrawSite) : absSumFrom d 0#32 x = 0#32 := by
  induction x generalizing d with
  | nil => rfl
  | cons v x ih =>
    obtain ⟨hv, hx⟩ := List.forall_mem_cons.1 hx
    rw [absSumFrom, fabs_of_isZero hv, fadd_zero_zero, ih hx]

theorem absSum_of_zeros (d : DrawSite) : absSum d x = 0#32 := by
  cases x with
  | nil => rfl
  | cons v x =>
    obtain ⟨hv, hx⟩ := List.forall_mem_cons.1 hx
    rw [absSum, fabs_of_isZero hv, absSumFrom_of_zeros hx]

theorem instantRssi_of_zeros (tick : Nat) {n : Nat} (hn : 1 ≤ n) : instantRssi tick n x = 0#32 := by
  rw [instantRssi, meanAbs, absSum_of_zeros hx,
    fdiv_of_isZero _ (by decide) (isNan_natValue n) (isZero_natValue hn), isNeg_natValue]
  decide

end

/-- What is above the floor is positive. -/
theorem pos_of_loud {v : F32} (h : fgt v floorLevel = true) :
    isNan v = false ∧ isZero v = false ∧ isNeg v = false := by
  obtain ⟨hnan, -, hlt⟩ := fgt_iff.1 h
  have hpos : 0 < signedValue v := lt_trans (by decide +kernel) hlt
  refine ⟨hnan, ?_, ?_⟩
  · by_contra hz
    rw [signedValue_of_isZero (by simpa using hz)] at hpos
    exact lt_irrefl _ hpos
  · by_contra hneg
    rw [signedValue_eq, (Bool.not_eq_false _).mp hneg, withSign, if_pos rfl] at hpos
    omega

/-- The gain leaves a zero as it is. -/
theorem gainSample_of_isZero {sm v : F32} (d : DrawSite) (hsm : fgt sm floorLevel = true)
    (hv : isZero v = true) : gainSample sm d v = v := by
  obtain ⟨hnan, hzero, hneg⟩ := pos_of_loud hsm
  have hheadroom : isNeg headroom = false := by decide
  rw [gainSample, fdiv_of_isZero _ hv hnan hzero, hneg, Bool.bne_false, signedZero_isNeg hv,
    fmul_of_isZero _ hv (by decide), hheadroom, Bool.bne_false, signedZero_isNeg hv]

theorem mapSamples_eq_self {f : DrawSite → F32 → F32} {x : Chunk} (hf : ∀ d, ∀ v ∈ x, f d v = v)
    (d : DrawSite) : mapSamples f d x = x := by
  induction x generalizing d with
  | nil => rfl
  | cons v x ih =>
    rw [mapSamples, hf d v List.mem_cons_self, ih fun d u hu => hf d u (List.mem_cons_of_mem v hu)]

/-- A chunk of zeros leaves the stage bit for bit, in both branches, and its level is +0.0. -/
theorem agcStage_of_zeros {s : State} {x : Chunk} (hn : 1 ≤ s.cfg.n) (hx : ∀ v ∈ x, isZero v = true) :
    agcStage s x = ⟨pushLevel s.agcHist 0#32, x,
      if fgt (smoothedLevel s x) floorLevel then smoothedLevel s x else 0#32⟩ := by
  split_ifs with hloud
  · rw [agcStage_of_loud hloud, instantRssi_of_zeros hx _ hn,
      mapSamples_eq_self fun d v hv => gainSample_of_isZero d hloud (hx v hv)]
  · rw [agcStage_of_quiet (by simpa using hloud), instantRssi_of_zeros hx _ hn]

/-- The smoothed level above the floor is finite where the remembered levels and their taps are finite and
the products stay below 2^126; a third tap that is not finite makes it NaN. -/
theorem isFinite_smoothedLevel_of_zero_level {s : State} {x : Chunk}
    (hinst : isZero (instantRssi s.tick s.cfg.n x) = true)
    (hloud : fgt (smoothedLevel s x) floorLevel = true)
    (hg1 : isFinite s.agcHist.t1 = true) (hg2 : isFinite s.agcHist.t2 = true)
    (ha0 : isFinite (s.cfg.agcRom s.agcSpec).t0 = true)
    (ha1 : isFinite (s.cfg.agcRom s.agcSpec).t1 = true)
    (hsmall : |ratValue s.agcHist.t1 * ratValue (s.cfg.agcRom s.agcSpec).t0| +
      |ratValue s.agcHist.t2 * ratValue (s.cfg.agcRom s.agcSpec).t1| ≤ 2 ^ 126) :
    isFinite (smoothedLevel s x) = true := by
  obtain ⟨d0, d1, d2, e1, e2, heq⟩ := exists_smoothedLevel_eq s x
  rw [heq] at hloud ⊢
  have h0 := abs_nonneg (ratValue s.agcHist.t1 * ratValue (s.cfg.agcRom s.agcSpec).t0)
  have h1 := abs_nonneg (ratValue s.agcHist.t2 * ratValue (s.cfg.agcRom s.agcSpec).t1)
  have hp0 := rounds_fmul d0 hg1 ha0 (by linarith)
  have hp1 := rounds_fmul d1 hg2 ha1 (by linarith)
  generalize fmul d0 s.agcHist.t1 _ = p0 at *
  generalize fmul d1 s.agcHist.t2 _ = p1 at *
  have hsum_le : |ratValue p0 + ratValue p1| ≤ 2 ^ 126 + 2 ^ 103 := by
    linarith [abs_add_le (ratValue p0) (ratValue p1), hp0.abs_le, hp1.abs_le]
  have hsum := rounds_fadd e1 hp0.finite hp1.finite (by linarith)
  obtain hnan | hzero := nanOrZero_fmul d2 (b := (s.cfg.agcRom s.agcSpec).t2) (.inl hinst)
  · have hnan := (nanExactlyOn_fadd.isNan_iff e2 (fadd e1 p0 p1) _).2 (.inr (.inl hnan))
    rw [fgt_of_isNan (.inl hnan)] at hloud
    exact absurd hloud nofun
  · refine (rounds_fadd e2 hsum.finite (isFinite_of_isZero hzero) ?_).finite
    rw [(ratValue_eq_zero_iff _).2 hzero, add_zero]
    linarith [hsum.abs_le]

/-- Settles O20: zeros stay zeros in both branches; the metric is +0.0 or a smoothed level above the floor. -/
theorem agcZeroChunkUnchanged : Obligations.AgcZeroChunkUnchanged := by
  intro s r rs hf hm hw hn hpayload
  have hx : ∀ v ∈ r.payload, isZero v = true := fun v hv => isZero_of_eq_zero_or (hpayload v hv)
  have hinst : isZero (instantRssi s.tick s.cfg.n r.payload) = true := by
    rw [instantRssi_of_zeros hx _ hn]
    decide
  have hrun := exec_agcRun hf hm hw
  rw [agcStage_of_zeros hn hx] at hrun
  refine ⟨_, hrun, ?_⟩
  split_ifs with hloud
  case pos =>
    refine ⟨(pos_of_loud hloud).1, .inr hloud, fun h1 h2 => ?_,
      isFinite_smoothedLevel_of_zero_level hinst hloud⟩
    rw [not_loud_of_zero_products (.inl h1) (.inl h2) (.inl hinst)] at hloud
    exact absurd hloud nofun
  case neg =>
    have hzero : isNan 0#32 = false ∧ isFinite 0#32 = true := by decide
    exact ⟨hzero.1, .inl rfl, fun _ _ => rfl, fun _ _ _ _ _ => hzero.2⟩

end Sys2Proof.Machine
end

section
/-! PROOFS. The AGC settles in three chunks (41_agc.md R126): the history fills with the mean absolute
amplitude, and for a constant amplitude the errors of the roundings on the way to 0.8 are added up. Settles O21. -/

namespace Sys2Proof.Machine

/-! ## The mean absolute amplitude of a chunk without NaN (R17) -/

theorem isNeg_fabs (v : F32) : isNeg (fabs v) = false := by
  have hlt : lowBits v < 2 ^ 31 := Nat.mod_lt _ (by decide)
  rw [isNeg_eq, toNat_fabs, decide_eq_false_iff_not]
  omega

theorem lowBits_fabs (v : F32) : lowBits (fabs v) = lowBits v := by
  rw [lowBits, toNat_fabs, lowBits, Nat.mod_mod]

theorem isNan_fabs (v : F32) : isNan (fabs v) = isNan v := by
  rw [isNan_eq, isNan_eq, lowBits_fabs]

theorem isFinite_fabs (v : F32) : isFinite (fabs v) = isFinite v := by
  rw [isFinite_eq, isFinite_eq, lowBits_fabs]

theorem ratValue_fabs (v : F32) : ratValue (fabs v) = |ratValue v| := by
  rw [abs_ratValue, ratValue, signedValue_fabs, Int.cast_natCast]

/-- Neither NaN nor of negative sign: what a sum of absolute values is. -/
structure IsMagnitude (v : F32) : Prop where
  not_nan : isNan v = false
  not_neg : isNeg v = false

theorem isMagnitude_fabs {v : F32} (h : isNan v = false) : IsMagnitude (fabs v) :=
  ⟨(isNan_fabs v).trans h, isNeg_fabs v⟩

/-- A sum of two magnitudes is one magnitude, whatever NaN is drawn. -/
theorem IsMagnitude.exists_fadd_eq {a b : F32} (ha : IsMagnitude a) (hb : IsMagnitude b) :
    ∃ v, IsMagnitude v ∧ ∀ d, fadd d a b = v := by
  have hvalid : ¬ AddInvalid a b := by simp [ha.not_nan, hb.not_nan, ha.not_neg, hb.not_neg]
  refine ⟨_, ?_, fun d => fadd_of_valid hvalid⟩
  have hsum : 0 ≤ signedValue a + signedValue b := by
    rw [signedValue_of_not_isNeg ha.not_neg, signedValue_of_not_isNeg hb.not_neg]
    omega
  split_ifs
  · exact ha
  · exact hb
  · refine ⟨isNan_roundSum _ _, ?_⟩
    rw [isNeg_roundSum, ha.not_neg, Bool.false_and, decide_eq_false hsum.not_gt, ite_self]

theorem exists_absSumFrom_eq {acc : F32} (hacc : IsMagnitude acc) {x : Chunk}
    (hx : ∀ v ∈ x, isNan v = false) : ∃ v, isNan v = false ∧ ∀ d, absSumFrom d acc x = v := by
  induction x generalizing acc with
  | nil => exact ⟨acc, hacc.not_nan, fun _ => rfl⟩
  | cons u x ih =>
    obtain ⟨hu, hx⟩ := List.forall_mem_cons.1 hx
    obtain ⟨w, hw, hadd⟩ := hacc.exists_fadd_eq (isMagnitude_fabs hu)
    obtain ⟨v, hv, hsum⟩ := ih hw hx
    exact ⟨v, hv, fun d => by rw [absSumFrom, hadd, hsum]⟩

theorem ratValue_natValue {n : Nat} (hn : n ≤ 2 ^ 24) : ratValue (natValue n) = n := by
  rw [ratValue, signedValue_natValue hn, Int.cast_mul, Int.cast_natCast, Int.cast_pow, Int.cast_ofNat,
    mul_div_cancel_right₀ _ (by positivity)]

theorem isFinite_natValue {n : Nat} (hn : n ≤ 2 ^ 24) : isFinite (natValue n) = true := by
  refine isFinite_of_not_nan_of_not_inf (isNan_natValue n) ?_
  by_contra hinf
  rw [Bool.not_eq_false, isInf_eq, decide_eq_true_eq] at hinf
  have hmag := signedValue_natValue hn
  rw [signedValue_of_not_isNeg (isNeg_natValue n), magnitude_eq, hinf, bitsValue_infinity] at hmag
  omega

theorem exists_meanAbs_eq {n : Nat} (hn1 : 1 ≤ n) (hn : n ≤ 2 ^ 24) {x : Chunk} (hne : x ≠ [])
    (hx : ∀ v ∈ x, isNan v = false) : ∃ m, isNan m = false ∧ ∀ d, meanAbs d n x = m := by
  obtain ⟨u, x, rfl⟩ := List.exists_cons_of_ne_nil hne
  obtain ⟨hu, hx⟩ := List.forall_mem_cons.1 hx
  obtain ⟨v, hv, hsum⟩ := exists_absSumFrom_eq (isMagnitude_fabs hu) hx
  have hvalid : ¬ DivInvalid v (natValue n) := by
    simp [hv, isNan_natValue, isInf_of_isFinite (isFinite_natValue hn), isZero_natValue hn1]
  obtain ⟨m, hm, hdiv⟩ := nanExactlyOn_fdiv.exists_value _ _ hvalid
  exact ⟨m, hm, fun d => by rw [meanAbs, absSum, hsum, hdiv]⟩

/-! ## Three runs on one chunk (R126) -/

/-- The state after AGC.RUN on a chunk, run by hand in DIRECT mode. -/
def afterAgcRun (x : Chunk) (s : State) : State :=
  answered .direct .ok (.chunkMetric (agcStage s x).out (agcStage s x).metric) []
    { onDirect x s with agcHist := (agcStage s x).hist, rssi := (agcStage s x).metric }

section

variable (x : Chunk) (s : State)

theorem exec_agcRun_onDirect (hf : s.fatal = false) :
    exec .agcRun (onDirect x s) = .next (afterAgcRun x s) :=
  exec_agcRun (s := onDirect x s) (r := ⟨0#64, x⟩) hf rfl rfl

@[simp] theorem afterAgcRun_cfg : (afterAgcRun x s).cfg = s.cfg := rfl
@[simp] theorem afterAgcRun_responses : (afterAgcRun x s).responses =
    s.responses ++ [⟨.direct, .ok, .chunkMetric (agcStage s x).out (agcStage s x).metric⟩] := rfl
@[simp] theorem afterAgcRun_agcHist : (afterAgcRun x s).agcHist =
    pushLevel s.agcHist (instantRssi s.tick s.cfg.n x) := agcStage_hist s x

end

theorem n_le_of_wf {c : Params} (h : c.wf = true) : c.n ≤ 2 ^ 24 := by
  simp only [Params.wf, Bool.and_eq_true, decide_eq_true_eq] at h
  omega

/-- The three runs of R126, the level of the chunk being m at every site. -/
theorem exec_agcRun_three_times {s : State} {x : Chunk} (hf : s.fatal = false) {m : F32}
    (hm : ∀ d, meanAbs d s.cfg.n x = m) :
    ∃ t1 t2 : State, exec .agcRun (onDirect x s) = .next t1 ∧
      exec .agcRun (onDirect x t1) = .next t2 ∧
      exec .agcRun (onDirect x t2) = .next (afterAgcRun x t2) ∧
      t2.cfg = s.cfg ∧ t2.agcSpec = s.agcSpec ∧ t2.agcHist.t1 = m ∧ t2.agcHist.t2 = m :=
  ⟨afterAgcRun x s, afterAgcRun x (afterAgcRun x s), exec_agcRun_onDirect x s hf,
    exec_agcRun_onDirect x _ hf, exec_agcRun_onDirect x _ hf, rfl, rfl,
    by simp [pushLevel, instantRssi, hm], by simp [pushLevel, instantRssi, hm]⟩

theorem afterAgcRun_settled {s : State} {x : Chunk} {m : F32} (hm : ∀ d, meanAbs d s.cfg.n x = m)
    (h1 : s.agcHist.t1 = m) (h2 : s.agcHist.t2 = m) : (afterAgcRun x s).agcHist = ⟨m, m, m⟩ := by
  rw [afterAgcRun_agcHist, pushLevel, instantRssi, hm, h1, h2]

/-! ## A constant amplitude: the mean (R17) -/

section

variable {N : Nat} (hN : N ≤ 2 ^ 16) {A : Rat} (hA : 11 / 1000 ≤ A) (hA' : A ≤ 2 ^ 100)

include hN hA hA'

/-- One more amplitude on a running sum that is off by at most k²·2^-24 amplitudes. -/
theorem fadd_amplitude_error {acc u : F32} {k : Nat} (hk : 1 ≤ k) (hkN : k ≤ N)
    (hacc : isFinite acc = true) (hu : isFinite u = true) (huA : ratValue u = A)
    (herr : |ratValue acc - k * A| ≤ k ^ 2 * A / 2 ^ 24) (d : DrawSite) :
    isFinite (fadd d acc u) = true ∧
      |ratValue (fadd d acc u) - (k + 1 : Nat) * A| ≤ (k + 1 : Nat) ^ 2 * A / 2 ^ 24 := by
  have hk1 : (1 : Rat) ≤ k := by exact_mod_cast hk
  have hk16 : (k : Rat) ≤ 2 ^ 16 := by exact_mod_cast hkN.trans hN
  have hkA : A ≤ k * A := le_mul_of_one_le_left (by linarith) hk1
  have hkA' : k * A ≤ 2 ^ 16 * A := mul_le_mul_of_nonneg_right hk16 (by linarith)
  have hkk : (k : Rat) ^ 2 * A ≤ 2 ^ 16 * (k * A) := by
    rw [pow_two, mul_assoc]
    exact mul_le_mul_of_nonneg_right hk16 (by linarith)
  have hsquare : ((k + 1 : Nat) : Rat) ^ 2 * A = k ^ 2 * A + 2 * (k * A) + A := by
    push_cast
    ring
  have hexact : |ratValue acc + A| ≤ k ^ 2 * A / 2 ^ 24 + (k * A + A) := by
    rw [abs_le] at herr ⊢
    constructor <;> linarith
  have hadd := rounds_fadd d hacc hu (by rw [huA]; linarith)
  rw [huA] at hadd
  have hround := hadd.error
  refine ⟨hadd.finite, ?_⟩
  rw [hsquare, Nat.cast_add_one, add_one_mul]
  rw [abs_le] at herr hround ⊢
  constructor <;> linarith

/-- The sum of N equal amplitudes is off by at most N²·2^-24 amplitudes. -/
theorem absSumFrom_error {x : Chunk} (hx : ∀ v ∈ x, isFinite v = true ∧ |ratValue v| = A) (d : DrawSite)
    {k : Nat} (hk : 1 ≤ k) (hkN : k + x.length = N) {acc : F32} (hacc : isFinite acc = true)
    (herr : |ratValue acc - k * A| ≤ k ^ 2 * A / 2 ^ 24) :
    isFinite (absSumFrom d acc x) = true ∧
      |ratValue (absSumFrom d acc x) - N * A| ≤ N ^ 2 * A / 2 ^ 24 := by
  induction x generalizing d k acc with
  | nil =>
    obtain rfl : k = N := hkN
    exact ⟨hacc, herr⟩
  | cons v x ih =>
    obtain ⟨⟨hv, hvA⟩, hx⟩ := List.forall_mem_cons.1 hx
    rw [List.length_cons] at hkN
    obtain ⟨hfin, herr⟩ := fadd_amplitude_error hN hA hA' hk (by omega) hacc
      ((isFinite_fabs v).trans hv) ((ratValue_fabs v).trans hvA) herr d
    exact ih hx _ (by omega) (by omega) hfin herr

/-- The mean of N equal amplitudes is off by at most (N + 2)·2^-24 amplitudes. -/
theorem meanAbs_error (hN1 : 1 ≤ N) {x : Chunk} (hlen : x.length = N)
    (hx : ∀ v ∈ x, isFinite v = true ∧ |ratValue v| = A) (d : DrawSite) :
    isFinite (meanAbs d N x) = true ∧
      |ratValue (meanAbs d N x) - A| ≤ (N + 2) * A / 2 ^ 24 := by
  obtain ⟨v, x, rfl⟩ := List.exists_cons_of_length_pos (hlen ▸ hN1)
  obtain ⟨⟨hv, hvA⟩, hx⟩ := List.forall_mem_cons.1 hx
  have hN24 : N ≤ 2 ^ 24 := hN.trans (by decide)
  have hNr : (0 : Rat) < N := by exact_mod_cast hN1
  have hN16 : (N : Rat) * A ≤ 2 ^ 16 * A :=
    mul_le_mul_of_nonneg_right (by exact_mod_cast hN) (by linarith)
  obtain ⟨hfin, herr⟩ := absSumFrom_error hN hA hA' hx d (acc := fabs v) le_rfl
    (by rw [← hlen, List.length_cons, Nat.add_comm]) ((isFinite_fabs v).trans hv)
    (by rw [ratValue_fabs, hvA]; norm_num; linarith)
  have hquot : |ratValue (absSumFrom d (fabs v) x) / N - A| ≤ N * A / 2 ^ 24 := by
    have hsub : ratValue (absSumFrom d (fabs v) x) / N - A =
        (ratValue (absSumFrom d (fabs v) x) - N * A) / N := by
      field_simp
    rw [hsub, abs_div, abs_of_pos hNr, div_le_iff₀ hNr]
    linarith
  have hquot_le : |ratValue (absSumFrom d (fabs v) x) / N| ≤ A + N * A / 2 ^ 24 := by
    linarith [abs_sub_abs_le_abs_sub (ratValue (absSumFrom d (fabs v) x) / N) A,
      abs_of_pos (show 0 < A by linarith)]
  have hdiv := rounds_fdiv d.nextSample hfin (isFinite_natValue hN24)
    (by rw [ratValue_natValue hN24]; exact hNr.ne') (by rw [ratValue_natValue hN24]; linarith)
  rw [ratValue_natValue hN24] at hdiv
  refine ⟨hdiv.finite, ?_⟩
  have hround := hdiv.error
  rw [meanAbs, absSum]
  rw [abs_le] at hquot hround ⊢
  constructor <;> linarith

end

/-! ## A constant level: the smoothed level (R120) -/

/-- The sum of three rounded products is off by at most 2^-22 of the sum of their magnitudes. -/
theorem dot_three_error {m a0 a1 a2 : F32} (hm : isFinite m = true) (h0 : isFinite a0 = true)
    (h1 : isFinite a1 = true) (h2 : isFinite a2 = true)
    (hlo : 1 / 1000 ≤ |ratValue m * ratValue a0| + |ratValue m * ratValue a1| + |ratValue m * ratValue a2|)
    (hhi : |ratValue m * ratValue a0| + |ratValue m * ratValue a1| + |ratValue m * ratValue a2| ≤ 2 ^ 120)
    (d0 d1 d2 e1 e2 : DrawSite) :
    (let sm := fadd e2 (fadd e1 (fmul d0 m a0) (fmul d1 m a1)) (fmul d2 m a2)
     isFinite sm = true ∧
     |ratValue sm - ratValue m * (ratValue a0 + ratValue a1 + ratValue a2)| ≤
      (|ratValue m * ratValue a0| + |ratValue m * ratValue a1| + |ratValue m * ratValue a2|) / 2 ^ 22) := by
  have hnonneg0 := abs_nonneg (ratValue m * ratValue a0)
  have hnonneg1 := abs_nonneg (ratValue m * ratValue a1)
  have hnonneg2 := abs_nonneg (ratValue m * ratValue a2)
  have hp0 := rounds_fmul d0 hm h0 (by linarith)
  have hp1 := rounds_fmul d1 hm h1 (by linarith)
  have hp2 := rounds_fmul d2 hm h2 (by linarith)
  generalize fmul d0 m a0 = p0 at *
  generalize fmul d1 m a1 = p1 at *
  generalize fmul d2 m a2 = p2 at *
  have hp01 := rounds_fadd e1 hp0.finite hp1.finite
    (by linarith [abs_add_le (ratValue p0) (ratValue p1), hp0.abs_le, hp1.abs_le])
  have hp01_le : |ratValue p0 + ratValue p1| ≤ |ratValue p0| + |ratValue p1| := abs_add_le _ _
  generalize fadd e1 p0 p1 = p01 at *
  have hsm_le : |ratValue p01 + ratValue p2| ≤ |ratValue p01| + |ratValue p2| := abs_add_le _ _
  have hle0 := hp0.abs_le
  have hle1 := hp1.abs_le
  have hle2 := hp2.abs_le
  have hle01 := hp01.abs_le
  have hsm := rounds_fadd e2 hp01.finite hp2.finite (by linarith)
  refine ⟨hsm.finite, ?_⟩
  have herr0 := abs_le.1 hp0.error
  have herr1 := abs_le.1 hp1.error
  have herr2 := abs_le.1 hp2.error
  have herr01 := abs_le.1 hp01.error
  have herr := abs_le.1 hsm.error
  rw [mul_add, mul_add, abs_le]
  constructor <;> linarith

/-- S of R126: the sum of the taps' magnitudes. -/
def tapMagnitudes (t : Taps) : Rat := |ratValue t.t0| + |ratValue t.t1| + |ratValue t.t2|

/-- What a table that sums to 1 within rounding is as rational numbers (log entry 23). -/
structure SumsToOne (t : Taps) : Prop where
  finite0 : isFinite t.t0 = true
  finite1 : isFinite t.t1 = true
  finite2 : isFinite t.t2 = true
  near : |ratValue t.t0 + ratValue t.t1 + ratValue t.t2 - 1| ≤ 1 / 2 ^ 23

theorem sumsToOne_of_true {t : Taps} (h : t.sumsToOne = true) : SumsToOne t := by
  simp only [Taps.sumsToOne, Bool.and_eq_true, decide_eq_true_eq] at h
  obtain ⟨⟨⟨h0, h1⟩, h2⟩, hsum⟩ := h
  refine ⟨h0, h1, h2, ?_⟩
  have hcast : |((signedValue t.t0 + signedValue t.t1 + signedValue t.t2 - 2 ^ 149 : Int) : Rat)| ≤
      2 ^ 126 := by
    rw [← Int.cast_abs, Int.abs_eq_natAbs]
    exact_mod_cast hsum
  have heq : ratValue t.t0 + ratValue t.t1 + ratValue t.t2 - 1 =
      ((signedValue t.t0 + signedValue t.t1 + signedValue t.t2 - 2 ^ 149 : Int) : Rat) / 2 ^ 149 := by
    simp only [ratValue]
    push_cast
    ring
  rw [heq, abs_div, abs_of_pos (show (0 : Rat) < 2 ^ 149 by positivity), div_le_iff₀ (by positivity)]
  exact hcast.trans (by norm_num)

theorem agcRom_sumsToOne {c : Params} (h : c.wf = true) {k : AgcSpec} (hk : k ≠ .none) :
    (c.agcRom k).sumsToOne = true := by
  simp only [Params.wf, Bool.and_eq_true] at h
  obtain ⟨⟨⟨⟨⟨-, h0⟩, h1⟩, h2⟩, h3⟩, h4⟩ := h
  cases k
  case none => exact absurd rfl hk
  all_goals assumption

theorem SumsToOne.tapMagnitudes_ge {t : Taps} (h : SumsToOne t) : 9 / 10 ≤ tapMagnitudes t := by
  have hsum := abs_le.1 h.near
  unfold tapMagnitudes
  linarith [le_abs_self (ratValue t.t0), le_abs_self (ratValue t.t1), le_abs_self (ratValue t.t2)]

/-- From levels that are near A the table makes a smoothed level that is near A. -/
theorem dot_three_near {t : Taps} (ht : SumsToOne t) (hS : tapMagnitudes t ≤ 2 ^ 10) {A : Rat}
    (hA : 11 / 1000 ≤ A) (hA' : A ≤ 2 ^ 100) {N : Nat} (hN : N ≤ 2 ^ 16) {m : F32}
    (hm : isFinite m = true) (herr : |ratValue m - A| ≤ (N + 2) * A / 2 ^ 24)
    (d0 d1 d2 e1 e2 : DrawSite) :
    (let sm := fadd e2 (fadd e1 (fmul d0 m t.t0) (fmul d1 m t.t1)) (fmul d2 m t.t2)
     isFinite sm = true ∧ |ratValue sm - A| ≤ (N + 12 * tapMagnitudes t) / 2 ^ 24 * A) := by
  have hN16 : (N : Rat) * A ≤ 2 ^ 16 * A :=
    mul_le_mul_of_nonneg_right (by exact_mod_cast hN) (by linarith)
  have hmA := abs_le.1 herr
  have hmpos : 0 < ratValue m := by linarith
  have hproducts : |ratValue m * ratValue t.t0| + |ratValue m * ratValue t.t1| +
      |ratValue m * ratValue t.t2| = ratValue m * tapMagnitudes t := by
    rw [tapMagnitudes, abs_mul, abs_mul, abs_mul, abs_of_pos hmpos]
    ring
  have hS' := ht.tapMagnitudes_ge
  have hmS : ratValue m * (9 / 10) ≤ ratValue m * tapMagnitudes t :=
    mul_le_mul_of_nonneg_left hS' hmpos.le
  have hmS' : ratValue m * tapMagnitudes t ≤ ratValue m * 2 ^ 10 :=
    mul_le_mul_of_nonneg_left hS hmpos.le
  have hmSA : ratValue m * tapMagnitudes t ≤ 9 / 8 * A * tapMagnitudes t :=
    mul_le_mul_of_nonneg_right (by linarith) (by linarith)
  have hAS : A * (9 / 10) ≤ A * tapMagnitudes t := mul_le_mul_of_nonneg_left hS' (by linarith)
  have hsum : |ratValue m * (ratValue t.t0 + ratValue t.t1 + ratValue t.t2 - 1)| ≤
      ratValue m * (1 / 2 ^ 23) := by
    rw [abs_mul, abs_of_pos hmpos]
    exact mul_le_mul_of_nonneg_left ht.near hmpos.le
  obtain ⟨hfin, hdot⟩ := dot_three_error hm ht.finite0 ht.finite1 ht.finite2
    (by rw [hproducts]; linarith) (by rw [hproducts]; linarith) d0 d1 d2 e1 e2
  refine ⟨hfin, ?_⟩
  rw [hproducts] at hdot
  rw [mul_sub, mul_one] at hsum
  rw [abs_le] at hdot hsum ⊢
  constructor <;> linarith

/-! ## A constant level: the gain (R120) -/

theorem ratValue_headroom : ratValue headroom = 13421773 / 2 ^ 24 := by
  have h : signedValue headroom = 13421773 * 2 ^ 125 := by decide +kernel
  rw [ratValue, h]
  norm_num

theorem ratValue_floorLevel : ratValue floorLevel = 10737418 / 2 ^ 30 := by
  have h : signedValue floorLevel = 10737418 * 2 ^ 119 := by decide +kernel
  rw [ratValue, h]
  norm_num

/-- A smoothed level that is near A is above the floor. -/
theorem loud_of_near {A E : Rat} (hA : 11 / 1000 ≤ A) (hE' : E ≤ 1 / 200) {sm : F32}
    (hsm : isFinite sm = true) (herr : |ratValue sm - A| ≤ E * A) : fgt sm floorLevel = true := by
  have hEA : E * A ≤ 1 / 200 * A := mul_le_mul_of_nonneg_right hE' (by linarith)
  rw [fgt_eq_of_not_nan (isNan_of_isFinite hsm) (by decide), decide_eq_true_eq, ← ratValue_lt_iff,
    ratValue_floorLevel]
  linarith [(abs_le.1 herr).1]

/-- A sample of magnitude A divided by a level that is E·A away from A is near 1. -/
theorem fdiv_near {A E : Rat} (hA : 11 / 1000 ≤ A) (hE : 0 ≤ E) (hE' : E ≤ 1 / 200) {sm v : F32}
    (hsm : isFinite sm = true) (herr : |ratValue sm - A| ≤ E * A) (hv : isFinite v = true)
    (hvA : |ratValue v| = A) (d : DrawSite) :
    isFinite (fdiv d v sm) = true ∧ |(|ratValue (fdiv d v sm)| - 1)| ≤ 101 / 100 * E + 2 / 2 ^ 24 := by
  have hEA : E * A ≤ 1 / 200 * A := mul_le_mul_of_nonneg_right hE' (by linarith)
  have hsmA := (abs_le.1 herr).1
  have hpos : 0 < ratValue sm := by linarith
  have hquot : |ratValue v / ratValue sm| = A / ratValue sm := by
    rw [abs_div, hvA, abs_of_pos hpos]
  have hratio : |A / ratValue sm - 1| ≤ 101 / 100 * E := by
    have hEsm : E * A ≤ E * (101 / 100 * ratValue sm) := mul_le_mul_of_nonneg_left (by linarith) hE
    rw [div_sub_one hpos.ne', abs_div, abs_of_pos hpos, div_le_iff₀ hpos, abs_sub_comm]
    linarith
  have hratio' := le_of_abs_le hratio
  have hdiv := rounds_fdiv d hv hsm hpos.ne' (by rw [hquot]; linarith)
  have hround := hdiv.abs_error
  rw [hquot] at hround
  refine ⟨hdiv.finite, ?_⟩
  rw [abs_le] at hratio hround ⊢
  constructor <;> linarith

/-- A value of magnitude near 1 is scaled to a magnitude near 0.8. -/
theorem fmul_headroom_near {w : F32} {B : Rat} (hw : isFinite w = true) (hwB : |(|ratValue w| - 1)| ≤ B)
    (hB : B ≤ 1 / 10) (d : DrawSite) :
    isFinite (fmul d w headroom) = true ∧
      |(|ratValue (fmul d w headroom)| - 4 / 5)| ≤ 81 / 100 * B + 11 / 10 / 2 ^ 24 := by
  have hscaled : |ratValue w * ratValue headroom| = |ratValue w| * (13421773 / 2 ^ 24) := by
    rw [abs_mul, ratValue_headroom, abs_of_pos (show (0 : Rat) < 13421773 / 2 ^ 24 by norm_num)]
  have hle := le_of_abs_le hwB
  have hmul := rounds_fmul d hw (show isFinite headroom = true by decide) (by rw [hscaled]; linarith)
  have hround := hmul.abs_error
  rw [hscaled] at hround
  refine ⟨hmul.finite, ?_⟩
  rw [abs_le] at hwB hround ⊢
  constructor <;> linarith

/-- A sample of magnitude A over a level that is E·A away from A comes out with its sign and magnitude 0.8, up
to E and the roundings. -/
theorem gainSample_near {A E : Rat} (hA : 11 / 1000 ≤ A) (hE : 0 ≤ E) (hE' : E ≤ 1 / 200) {sm v : F32}
    (hsm : isFinite sm = true) (herr : |ratValue sm - A| ≤ E * A) (hv : isFinite v = true)
    (hvA : |ratValue v| = A) (d : DrawSite) :
    isFinite (gainSample sm d v) = true ∧ isNeg (gainSample sm d v) = isNeg v ∧
      |(|ratValue (gainSample sm d v)| - 4 / 5)| ≤ 9 / 10 * E + 3 / 2 ^ 24 := by
  obtain ⟨hdiv, hdiv_near⟩ := fdiv_near hA hE hE' hsm herr hv hvA d
  obtain ⟨hmul, hmul_near⟩ := fmul_headroom_near hdiv hdiv_near (by linarith) (d.atOp 1)
  refine ⟨hmul, ?_, hmul_near.trans (by linarith)⟩
  obtain ⟨-, -, hneg⟩ := pos_of_loud (loud_of_near hA hE' hsm herr)
  have hheadroom : isNeg headroom = false := by decide
  rw [gainSample, isNeg_fmul (isNan_of_isFinite hmul), isNeg_fdiv (isNan_of_isFinite hdiv), hneg,
    hheadroom, Bool.bne_false, Bool.bne_false]

/-! ## Convergence (R126) -/

/-- A chunk of constant amplitude over remembered levels that are its own mean: every sample comes out with
its sign and a magnitude near 0.8. -/
theorem agcStage_sample_near {s : State} {x : Chunk} {A : Rat} (hwf : s.cfg.wf = true)
    (hN : s.cfg.n ≤ 2 ^ 16) (hlen : x.length = s.cfg.n) (hk : s.agcSpec ≠ .none)
    (hx : ∀ v ∈ x, isFinite v = true ∧ |ratValue v| = A) (hA : 11 / 1000 ≤ A) (hA' : A ≤ 2 ^ 100)
    (hS : tapMagnitudes (s.cfg.agcRom s.agcSpec) ≤ 2 ^ 10) {m : F32} (hm : ∀ d, meanAbs d s.cfg.n x = m)
    (h1 : s.agcHist.t1 = m) (h2 : s.agcHist.t2 = m) {n : Nat} {v : F32} (hv : x[n]? = some v) :
    ∃ u : F32, (agcStage s x).out[n]? = some u ∧ isFinite u = true ∧ isNeg u = isNeg v ∧
      |(|ratValue u| - 4 / 5)| ≤ (s.cfg.n + 16 * tapMagnitudes (s.cfg.agcRom s.agcSpec)) / 2 ^ 23 := by
  obtain ⟨hmfin, hmerr⟩ := meanAbs_error hN hA hA' (one_le_n_of_wf hwf) hlen hx default
  rw [hm] at hmfin hmerr
  have ht := sumsToOne_of_true (agcRom_sumsToOne hwf hk)
  have hS' := ht.tapMagnitudes_ge
  obtain ⟨d0, d1, d2, e1, e2, hsm⟩ := exists_smoothedLevel_eq s x
  rw [instantRssi, hm, h1, h2] at hsm
  obtain ⟨hfin, herr⟩ := dot_three_near ht hS hA hA' hN hmfin hmerr d0 d1 d2 e1 e2
  rw [← hsm] at hfin herr
  generalize tapMagnitudes (s.cfg.agcRom s.agcSpec) = S at *
  have hNr : (s.cfg.n : Rat) ≤ 2 ^ 16 := by exact_mod_cast hN
  have hE : 0 ≤ (s.cfg.n + 12 * S) / 2 ^ 24 := by positivity
  have hE' : (s.cfg.n + 12 * S) / 2 ^ 24 ≤ 1 / 200 := by linarith
  rw [agcStage_of_loud (loud_of_near hA hE' hfin herr)]
  obtain ⟨e, he⟩ := mapSamples_get _ _ _ n v hv
  obtain ⟨hvfin, hvA⟩ := hx v (List.mem_of_getElem? hv)
  obtain ⟨hyfin, hyneg, hyerr⟩ := gainSample_near hA hE hE' hfin herr hvfin hvA e
  exact ⟨_, he, hyfin, hyneg, hyerr.trans (by linarith)⟩

/-- Settles O21: the history holds the level of the chunk after three runs, and the third run divides by a
level near the amplitude. -/
theorem agcHistorySettlesInThreeChunks : Obligations.AgcHistorySettlesInThreeChunks := by
  refine ⟨fun s x hf hwf hne hx => ?history, fun s x A hf hwf hN hlen hk hx hA hA' => ?convergence⟩
  case history =>
    obtain ⟨m, hnan, hm⟩ := exists_meanAbs_eq (one_le_n_of_wf hwf) (n_le_of_wf hwf) hne hx
    obtain ⟨t1, t2, hrun1, hrun2, hrun3, hcfg, -, h1, h2⟩ := exec_agcRun_three_times hf hm
    exact ⟨m, t1, t2, _, hnan, hm, hrun1, hrun2, hrun3, afterAgcRun_settled (hcfg ▸ hm) h1 h2⟩
  case convergence =>
    intro a S hS
    have hne : x ≠ [] := List.ne_nil_of_length_pos (hlen ▸ one_le_n_of_wf hwf)
    obtain ⟨m, -, hm⟩ := exists_meanAbs_eq (one_le_n_of_wf hwf) (n_le_of_wf hwf) hne
      fun v hv => isNan_of_isFinite (hx v hv).1
    obtain ⟨t1, t2, hrun1, hrun2, hrun3, hcfg, hspec, h1, h2⟩ := exec_agcRun_three_times hf hm
    refine ⟨t1, t2, _, _, _, hrun1, hrun2, hrun3, afterAgcRun_responses x t2, agcStage_length t2 x,
      fun n v hv => ?_⟩
    have hsample := agcStage_sample_near (s := t2) (by rwa [hcfg]) (by rwa [hcfg]) (by rwa [hcfg])
      (by rwa [hspec]) hx hA hA' (by rw [hcfg, hspec]; exact hS) (by rwa [hcfg]) h1 h2 hv
    rwa [hcfg, hspec] at hsample

end Sys2Proof.Machine
end

section
/-! PROOFS. The carrier generator (42_nco.md R140 to R144): what NCO.INIT and NCO.GEN answer, the phase behind
each sample, and chunks in turn as one generation, since no operation on a phase in range draws a NaN. Settles
O24, O25, O26 and O27. -/

namespace Sys2Proof.Machine

/-! ## What NCO.INIT and NCO.GEN answer (R140 to R142) -/

section

variable {s : State} {r : Request} {rs : List Request} (hf : s.fatal = false)
  (hw : s.waiting .direct = r :: rs)

include hf hw

/-- An increment that is legal constructs the oscillator, any other is ILLEGAL, in either mode (R141). -/
theorem exec_ncoInit (f : F32) :
    exec (.ncoInit f) s = .next
      (if ncoLegal (ncoIncrement (stageSite s.tick 6) s.cfg.fs f) then
        answered .direct .ok .none rs (constructNco f (ncoIncrement (stageSite s.tick 6) s.cfg.fs f) s)
      else answered .direct .illegal .none rs s) := by
  rw [exec, execNcoInit, checked_own (.inl hf) rfl rfl]
  exact congrArg _ (if_congr .rfl (respond_of_same_ports _ _ hw rfl) (respond_of_same_ports _ _ hw rfl))

/-- NCO.GEN answers N samples and keeps the phase after them, in either mode (R142). -/
theorem exec_ncoGen :
    exec .ncoGen s = .next (answered .direct .ok
      (.chunk (ncoSamples s.ncoDelta s.cfg.n (stageSite s.tick 6) s.ncoPhase).2) rs
      { s with ncoPhase := (ncoSamples s.ncoDelta s.cfg.n (stageSite s.tick 6) s.ncoPhase).1 }) := by
  rw [exec, execNcoGen, checked_own (.inl hf) rfl rfl]
  exact congrArg _ (respond_of_same_ports _ _ hw rfl)

end

theorem ncoLegal_iff {delta : F32} :
    ncoLegal delta = true ↔ isFinite delta = true ∧ fgt twoPi (fabs delta) = true := by
  rw [ncoLegal, Bool.and_eq_true, Bool.and_eq_true, Bool.not_eq_true', Bool.not_eq_true']
  exact and_congr_left fun _ => ⟨fun ⟨hnan, hinf⟩ => isFinite_of_not_nan_of_not_inf hnan hinf,
    fun hfin => ⟨isNan_of_isFinite hfin, isInf_of_isFinite hfin⟩⟩

/-- Settles O24: the two branches of the test on the increment. -/
theorem ncoInitConstructs : Obligations.NcoInitConstructs := by
  intro s f r rs hf hw
  refine ⟨stageSite s.tick 6, (stageSite s.tick 6).atOp 1, ?_⟩
  intro delta
  have hinit := exec_ncoInit hf hw f
  exact ⟨fun h => hinit.trans (congrArg _ (if_pos (ncoLegal_iff.2 h))),
    fun h => hinit.trans (congrArg _ (if_neg (mt ncoLegal_iff.1 h)))⟩

/-! ## The phase behind each sample (R142) -/

/-- The phase after one sample more is the next phase. -/
theorem exists_ncoSamples_succ_phase (delta : F32) (k : Nat) (d : DrawSite) (p : F32) :
    ∃ e : DrawSite, (ncoSamples delta (k + 1) d p).1 = nextPhase e delta (ncoSamples delta k d p).1 := by
  induction k generalizing d p with
  | zero => exact ⟨d, rfl⟩
  | succ k ih => exact ih d.nextSample (nextPhase d delta p)

/-- Sample n is the sine of the phase after n samples. -/
theorem ncoSamples_sample (delta : F32) {k n : Nat} (hn : n < k) (d : DrawSite) (p : F32) :
    (ncoSamples delta k d p).2[n]? = some (Config.sin32 (ncoSamples delta n d p).1) := by
  induction n generalizing k d p with
  | zero =>
    obtain ⟨k, rfl⟩ := Nat.exists_eq_succ_of_ne_zero hn.ne'
    rfl
  | succ n ih =>
    obtain ⟨k, rfl⟩ := Nat.exists_eq_succ_of_ne_zero (Nat.ne_zero_of_lt hn)
    exact ih (Nat.lt_of_succ_lt_succ hn) d.nextSample (nextPhase d delta p)

/-- Settles O25: the n-th phase is the one that n samples leave. -/
theorem ncoGenFollowsPhase : Obligations.NcoGenFollowsPhase := by
  refine ⟨fun e q => ?wrap, fun s r rs hf hw => ?generation⟩
  case wrap =>
    refine ⟨e.atOp 1, e.atOp 2, ?_⟩
    simp only [wrapPhase, twoPi, Bool.not_eq_true']
  case generation =>
    let d := stageSite s.tick 6
    refine ⟨fun n => (ncoSamples s.ncoDelta n d s.ncoPhase).1,
      (ncoSamples s.ncoDelta s.cfg.n d s.ncoPhase).2, rfl, fun n _ => ?_,
      ncoSamples_length _ _ _ _, fun n hn => ncoSamples_sample _ hn _ _, exec_ncoGen hf hw⟩
    obtain ⟨e, he⟩ := exists_ncoSamples_succ_phase s.ncoDelta n d s.ncoPhase
    exact ⟨e, e, he⟩

/-- Settles O26: the sum can be wrapped, and wrapping brings it back into the range. -/
theorem wrapKeepsPhaseInRange : Obligations.WrapKeepsPhaseInRange :=
  fun d e _ _ hp hdelta => phaseInRange_wrapPhase_fadd d e hp hdelta

/-! ## Chunks in turn (R144) -/

/-- Wrapping a finite value draws no NaN, so its site does not matter. -/
theorem wrapPhase_sites (d e : DrawSite) {q : F32} (hq : isFinite q = true) :
    wrapPhase d q = wrapPhase e q := by
  have htwoPi : isFinite twoPi = true := by decide
  have hneg : isFinite (fneg twoPi) = true := by decide
  simp only [wrapPhase, fsub, fadd_of_isFinite hq htwoPi, fadd_of_isFinite hq hneg]

section

variable {delta : F32} (hdelta : ncoLegal delta = true)

include hdelta

theorem nextPhase_sites (d e : DrawSite) {p : F32} (hp : PhaseInRange p) :
    nextPhase d delta p = nextPhase e delta p := by
  obtain ⟨hpfin, -⟩ := hp.bounds
  obtain ⟨hdfin, -⟩ := bounds_of_ncoLegal hdelta
  have hsum : fadd d p delta = fadd e p delta := by
    rw [fadd_of_isFinite hpfin hdfin, fadd_of_isFinite hpfin hdfin]
  rw [nextPhase, nextPhase, hsum]
  exact wrapPhase_sites d e (wrappable_fadd e hp hdelta).finite

/-- A generation is the same at any site. -/
theorem ncoSamples_sites (k : Nat) (d e : DrawSite) {p : F32} (hp : PhaseInRange p) :
    ncoSamples delta k d p = ncoSamples delta k e p := by
  induction k generalizing d e p with
  | zero => rfl
  | succ k ih =>
    have hp' : PhaseInRange (nextPhase e delta p) := phaseInRange_wrapPhase_fadd e e hp hdelta
    rw [ncoSamples, ncoSamples, nextPhase_sites hdelta d e hp, ih d.nextSample e.nextSample hp']

/-- A generation is its first k samples and then a generation from the phase they leave. -/
theorem ncoSamples_add (k n : Nat) (d e : DrawSite) {p : F32} (hp : PhaseInRange p) :
    ncoSamples delta (k + n) d p =
      ((ncoSamples delta n e (ncoSamples delta k d p).1).1,
        (ncoSamples delta k d p).2 ++ (ncoSamples delta n e (ncoSamples delta k d p).1).2) := by
  induction k generalizing d p with
  | zero => rw [Nat.zero_add, ncoSamples_sites hdelta n d e hp]; rfl
  | succ k ih =>
    have hp' : PhaseInRange (nextPhase d delta p) := phaseInRange_wrapPhase_fadd d d hp hdelta
    rw [Nat.succ_add, ncoSamples, ih d.nextSample hp']
    rfl

end

/-- Settles O27, by induction on the number of chunks: the last chunk goes on from the phase that the ones
before it leave. -/
theorem ncoChunksAreContinuous : Obligations.NcoChunksAreContinuous := by
  intro delta p n d0 d hp hdelta k runs
  induction k with
  | zero => rw [Nat.zero_mul]; rfl
  | succ k ih =>
    rw [Nat.succ_mul, ncoSamples_add hdelta (k * n) n d0 (d k) hp, ← ih]

end Sys2Proof.Machine
end

section
/-! PROOFS. The ring buffer (43_ring_buffer.md R160 to R162, R166, R169): the states after a push and after m
pops, what they hold, and that they keep the invariant. Settles O28, O29 and O30. -/

namespace Sys2Proof.Machine

/-! ## The states after a push and after pops (R160) -/

/-- Sample number j of the buffer, the oldest being number 0. -/
def State.sampleAt (s : State) (j : Nat) : F32 :=
  Memory.read s.rbBuf ((s.rbHead + j) % s.cfg.cap)

/-- The state after a push that succeeds. -/
def State.pushed (s : State) (x : Chunk) : State :=
  { s with
    rbBuf := writeSlots s.cfg.cap s.rbBuf s.rbTail x
    rbTail := (s.rbTail + s.cfg.n) % s.cfg.cap
    rbSize := s.rbSize + s.cfg.n }

/-- The state after m pops that succeed. -/
def State.popped (s : State) (m : Nat) : State :=
  { s with rbHead := (s.rbHead + m) % s.cfg.cap, rbSize := s.rbSize - m }

@[simp] theorem pushed_cfg (s : State) (x : Chunk) : (s.pushed x).cfg = s.cfg := rfl
@[simp] theorem pushed_rbHead (s : State) (x : Chunk) : (s.pushed x).rbHead = s.rbHead := rfl
@[simp] theorem pushed_rbSize (s : State) (x : Chunk) :
    (s.pushed x).rbSize = s.rbSize + s.cfg.n := rfl
@[simp] theorem popped_rbSize (s : State) (m : Nat) : (s.popped m).rbSize = s.rbSize - m := rfl

theorem popped_zero {s : State} (hhead : s.rbHead < s.cfg.cap) : s.popped 0 = s := by
  simp [State.popped, Nat.mod_eq_of_lt hhead]

/-- A pop after m pops takes sample number m. -/
theorem rbPopSample_popped {s : State} {m : Nat} (hm : m < s.rbSize) :
    rbPopSample (s.popped m) = some (s.sampleAt m, s.popped (m + 1)) := by
  have hne : (s.popped m).rbSize ≠ 0 := Nat.sub_ne_zero_of_lt hm
  have hhead : ((s.rbHead + m) % s.cfg.cap + 1) % s.cfg.cap = (s.rbHead + (m + 1)) % s.cfg.cap :=
    Nat.mod_add_mod _ _ _
  rw [rbPopSample_of_nonempty hne]
  simp only [State.popped, State.sampleAt, hhead, Nat.sub_sub]

/-! ## What the buffer holds (R166) -/

@[simp] theorem buffered_length (s : State) : s.buffered.length = s.rbSize := by
  simp [State.buffered]

@[simp] theorem buffered_getElem (s : State) (j : Nat) (hj : j < s.buffered.length) :
    s.buffered[j] = s.sampleAt j := by
  simp [State.buffered, State.sampleAt]

theorem sampleAt_popped (s : State) (m j : Nat) : (s.popped m).sampleAt j = s.sampleAt (m + j) := by
  simp only [State.sampleAt, State.popped, Nat.mod_add_mod, Nat.add_assoc]

/-- Pops take the samples from the front. -/
theorem buffered_popped (s : State) (m : Nat) : (s.popped m).buffered = s.buffered.drop m := by
  refine List.ext_getElem (by simp) fun j _ _ => ?_
  rw [buffered_getElem, sampleAt_popped, List.getElem_drop, buffered_getElem]

theorem ringInv_popped {s : State} {m : Nat} (h : RingInv s) (hm : m ≤ s.rbSize) :
    RingInv (s.popped m) := by
  obtain ⟨hsize, hhead, htail, hwf, hfind⟩ := h
  have hslot (k : Nat) :
      ((s.rbHead + m) % s.cfg.cap + k) % s.cfg.cap = (s.rbHead + (m + k)) % s.cfg.cap := by
    rw [Nat.mod_add_mod, Nat.add_assoc]
  refine ⟨(Nat.sub_le _ _).trans hsize, Nat.mod_lt _ (by omega), ?tail, hwf, fun j hj => ?find⟩
  case tail =>
    calc s.rbTail = (s.rbHead + s.rbSize) % s.cfg.cap := htail
      _ = (s.rbHead + (m + (s.rbSize - m))) % s.cfg.cap := by rw [Nat.add_sub_cancel' hm]
      _ = ((s.rbHead + m) % s.cfg.cap + (s.rbSize - m)) % s.cfg.cap := (hslot _).symm
  case find => exact (hslot j).symm ▸ hfind (m + j) (Nat.add_lt_of_lt_sub' hj)

/-! ## What a push writes (R160) -/

/-- The slots of the samples 0 to size + N − 1 after a push: the old samples, then the chunk. -/
theorem find_pushed {s : State} {x : Chunk} (h : RingInv s) (hroom : s.rbSize + x.length ≤ s.cfg.cap)
    {j : Nat} (hj : j < s.rbSize + x.length) :
    Memory.find (s.pushed x).rbBuf ((s.rbHead + j) % s.cfg.cap) =
      if j < s.rbSize then Memory.find s.rbBuf ((s.rbHead + j) % s.cfg.cap) else x[j - s.rbSize]? := by
  obtain ⟨-, -, htail, -, -⟩ := h
  have hslot (k : Nat) :
      (s.rbTail + k) % s.cfg.cap = (s.rbHead + (s.rbSize + k)) % s.cfg.cap := by
    rw [htail, Nat.mod_add_mod, Nat.add_assoc]
  split_ifs with hold
  · refine find_writeSlots_other _ _ _ _ _ fun k hk => ?_
    rw [hslot]
    exact mod_offset_ne _ _ _ _ (by omega) (by omega)
  · obtain ⟨k, rfl⟩ := Nat.exists_eq_add_of_le (Nat.le_of_not_lt hold)
    have hk : k < x.length := by omega
    rw [← hslot, Nat.add_sub_cancel_left, List.getElem?_eq_getElem hk]
    exact find_writeSlots_at _ x _ _ _ _ (by omega) (List.getElem?_eq_getElem hk)

/-- A push appends its chunk. -/
theorem buffered_pushed {s : State} {x : Chunk} (h : RingInv s) (hx : x.length = s.cfg.n)
    (hroom : s.rbSize + s.cfg.n ≤ s.cfg.cap) : (s.pushed x).buffered = s.buffered ++ x := by
  refine List.ext_getElem (by simp [hx]) fun j hj _ => ?_
  have hfind := find_pushed h (hx ▸ hroom) (by simpa [hx] using hj : j < _)
  rw [buffered_getElem, List.getElem_append, State.sampleAt, Memory.read, pushed_rbHead, pushed_cfg,
    hfind]
  simp only [buffered_length, buffered_getElem]
  split_ifs
  · rfl
  · rw [List.getElem?_eq_getElem]
    rfl

theorem ringInv_pushed {s : State} {x : Chunk} (h : RingInv s) (hx : x.length = s.cfg.n)
    (hroom : s.rbSize + s.cfg.n ≤ s.cfg.cap) : RingInv (s.pushed x) := by
  obtain ⟨-, hhead, htail, hwf, hold⟩ := id h
  have htail' : (s.rbTail + s.cfg.n) % s.cfg.cap = (s.rbHead + (s.rbSize + s.cfg.n)) % s.cfg.cap := by
    rw [htail, Nat.mod_add_mod, Nat.add_assoc]
  refine ⟨hroom, hhead, htail', wf_writeSlots _ (Nat.zero_lt_of_lt hhead) _ _ _ hwf, fun j hj => ?_⟩
  have hj' : j < s.rbSize + x.length := hx ▸ hj
  refine (congrArg Option.isSome (find_pushed h (hx ▸ hroom) hj')).trans ?_
  split_ifs with hlt
  · exact hold j hlt
  · rw [List.getElem?_eq_getElem (by omega)]
    rfl

/-- Settles O30: the state after a push and the state after one pop. -/
theorem ringBufferIsFifo : Obligations.RingBufferIsFifo := by
  refine ⟨fun s t x h hx _ hpush => ?push, fun s t v h hpop => ?pop⟩
  case push =>
    obtain ⟨hroom, rfl⟩ := rbPushChunk_some hpush
    exact ⟨buffered_pushed h hx hroom, ringInv_pushed h hx hroom⟩
  case pop =>
    obtain ⟨hne, -, -⟩ := rbPopSample_some hpop
    have hpos : 0 < s.rbSize := Nat.pos_of_ne_zero hne
    have hfirst := rbPopSample_popped hpos
    rw [popped_zero h.2.1, hpop] at hfirst
    cases hfirst
    refine ⟨?_, ringInv_popped h hpos⟩
    have hcons := List.cons_getElem_drop_succ (l := s.buffered) (n := 0) (h := by simpa using hpos)
    rw [buffered_popped, ← buffered_getElem s 0 (by simpa using hpos), hcons, List.drop_zero]

/-! ## RB.PUSH and RB.POP (R161, R162) -/

section

variable {s : State} {r : Request} {rs : List Request} (hf : s.fatal = false) (hm : s.mode = .direct)
  (hw : s.waiting .direct = r :: rs)

include hf hm hw

theorem exec_rbPush_of_room (hroom : s.rbSize + s.cfg.n ≤ s.cfg.cap) :
    exec .rbPush s = .next (answered .direct .ok .none rs (s.pushed r.payload)) := by
  rw [exec, execRbPush, payload_of_waiting hw, rbPushChunk_of_room hroom]
  exact congrArg _ (checked_respond_direct hf hm hw rfl rfl _ _ rfl)

theorem exec_rbPush_of_no_room (hroom : s.cfg.cap < s.rbSize + s.cfg.n) :
    exec .rbPush s = .next (answered .direct .rbOverflow .none rs
      { s with fatal := true, cause := 8#4 }) := by
  rw [exec, execRbPush, rbPushChunk_none.2 hroom]
  exact congrArg _ (checked_respond_direct hf hm hw rfl rfl _ _ rfl)

theorem exec_rbPop_of_nonempty (hne : s.rbSize ≠ 0) :
    exec .rbPop s = .next (answered .direct .ok (.sample (Memory.read s.rbBuf s.rbHead)) rs
      (s.popped 1)) := by
  rw [exec, execRbPop, rbPopSample_of_nonempty hne]
  exact congrArg _ (checked_respond_direct hf hm hw rfl rfl _ _ rfl)

theorem exec_rbPop_of_empty (h0 : s.rbSize = 0) :
    exec .rbPop s = .next (answered .direct .empty .none rs s) := by
  have hnone : rbPopSample s = none := if_pos h0
  rw [exec, execRbPop, hnone]
  exact congrArg _ (checked_respond_direct hf hm hw rfl rfl _ _ rfl)

end

theorem read_pushed_other {s : State} {x : Chunk} (hx : x.length = s.cfg.n) {a : Nat}
    (ha : ∀ j < s.cfg.n, a ≠ (s.rbTail + j) % s.cfg.cap) :
    Memory.read (s.pushed x).rbBuf a = Memory.read s.rbBuf a :=
  congrArg (Option.getD · _) (find_writeSlots_other _ _ _ _ _ (hx ▸ ha))

/-- Settles O28: the chunk has N ≤ CAP samples, so none of them is written over. -/
theorem rbPushStoresChunk : Obligations.RbPushStoresChunk := by
  intro s r rs hf hm hw hpay _
  refine ⟨fun hroom => ?_, exec_rbPush_of_no_room hf hm hw⟩
  refine ⟨_, exec_rbPush_of_room hf hm hw hroom, fun j v hv => ?_, fun a ha => ?_⟩
  · have hlen : r.payload.length ≤ s.cfg.cap := by omega
    exact congrArg (Option.getD · _) (find_writeSlots_at _ _ s.rbBuf s.rbTail j v hlen hv)
  · exact read_pushed_other hpay ha

/-- Settles O29: the pop finds a sample, or the buffer empty. -/
theorem rbPopRemovesOldest : Obligations.RbPopRemovesOldest := fun _ _ _ hf hm hw =>
  ⟨exec_rbPop_of_nonempty hf hm hw, exec_rbPop_of_empty hf hm hw⟩

end Sys2Proof.Machine
end

section
/-! PROOFS. RB.FILL (43_ring_buffer.md R163 to R165, R167): its output from a buffer that covers the request,
its top-up from one that does not, and the two turns that complete a request of at most N frames. Settles O31,
O32 and O34. -/

namespace Sys2Proof.Machine

/-! ## Frames (R163) -/

section

variable {c : Nat} (hc : 0 < c)

include hc

theorem framesOf_zero : framesOf 0 c = 0 :=
  Nat.div_eq_of_lt (by omega)

theorem framesOf_succ (l : Nat) : framesOf (l + 1) c = l / c + 1 := by
  rw [framesOf, show l + 1 + c - 1 = l + c by omega, Nat.add_div_right _ hc]

/-- The samples taken before output sample l: those of the whole frames, and that of a frame begun. -/
theorem framesOf_eq (l : Nat) : framesOf l c = if l % c = 0 then l / c else l / c + 1 := by
  cases l with
  | zero => simp [framesOf_zero hc]
  | succ l =>
    rw [framesOf_succ hc, Nat.succ_div]
    simp only [Nat.dvd_iff_mod_eq_zero]
    split_ifs <;> rfl

/-- Coverage in frames and in output samples. -/
theorem framesOf_le_iff {l m : Nat} : framesOf l c ≤ m ↔ l ≤ m * c := by
  rw [framesOf, ← Nat.lt_succ_iff, Nat.div_lt_iff_lt_mul hc, Nat.succ_mul]
  omega

end

/-! ## The output loop (R164, R165) -/

/-- From output sample k on, the loop takes a sample where a frame begins, and repeats it over the frame. -/
theorem fillOutput_popped {c : Nat} (hc : 0 < c) {s : State} {left k : Nat} {v : F32}
    (hv : k % c ≠ 0 → v = s.sampleAt (k / c)) (hcover : k + left ≤ s.rbSize * c) :
    fillOutput c left k v (s.popped (framesOf k c)) =
      some ((List.range' k left).map (fun i => s.sampleAt (i / c)),
        s.popped (framesOf (k + left) c)) := by
  induction left generalizing k v with
  | zero => rfl
  | succ left ih =>
    have hnext : (k + 1) % c ≠ 0 → k / c = (k + 1) / c := fun hne => by
      rw [Nat.succ_div, if_neg (mt Nat.dvd_iff_mod_eq_zero.1 hne), Nat.add_zero]
    have hstep : fillOutput c left (k + 1) (s.sampleAt (k / c)) (s.popped (k / c + 1)) =
        some ((List.range' (k + 1) left).map (fun i => s.sampleAt (i / c)),
          s.popped (framesOf (k + (left + 1)) c)) := by
      rw [← framesOf_succ hc, ih (fun hne => by rw [hnext hne]) (by omega), Nat.succ_add_eq_add_succ]
    rw [fillOutput, framesOf_eq hc k, List.range'_succ, List.map_cons]
    split_ifs with hk
    · have hmore : k / c < s.rbSize := (Nat.div_lt_iff_lt_mul hc).2 (by omega)
      simp only [rbPopSample_popped hmore, hstep]
    · simp only [hv hk, hstep]

/-- The whole output: sample i / c at place i. -/
theorem fillOutput_of_covered {c l : Nat} (hc : 0 < c) {s : State} (hcover : l ≤ s.rbSize * c)
    (hhead : s.rbHead < s.cfg.cap) (v : F32) :
    fillOutput c l 0 v s =
      some ((List.range l).map (fun i => s.sampleAt (i / c)), s.popped (framesOf l c)) := by
  have h := fillOutput_popped hc (v := v) (fun hne => absurd (Nat.zero_mod c) hne)
    (by rwa [Nat.zero_add] : 0 + l ≤ s.rbSize * c)
  rwa [framesOf_zero hc, popped_zero hhead, ← List.range_eq_range', Nat.zero_add] at h

/-! ## What RB.FILL answers (R163, R164) -/

theorem toNat_pos_of_ne_zero {c : BitVec 8} (hc : c ≠ 0#8) : 0 < c.toNat :=
  Nat.pos_of_ne_zero fun h0 => hc (BitVec.eq_of_toNat_eq h0)

theorem wf_rbFill {c : BitVec 8} (l : BitVec 32) (hc : c ≠ 0#8) : (Instr.rbFill c l).wf = true :=
  bne_iff_ne.2 hc

section

variable {s : State} {c : BitVec 8} {l : BitVec 32} {r : Request} {rs : List Request}
  (hf : s.fatal = false) (hm : s.mode = .chain) (hc : c ≠ 0#8)

include hf hm hc

/-- The own part of RB.FILL decides: the checks pass. -/
theorem exec_rbFill : exec (.rbFill c l) s = .next (fillStep c.toNat l.toNat s) :=
  congrArg Host.Outcome.next (checked_own (.inl hf) (wf_rbFill l hc) (beq_iff_eq.2 hm))

theorem exec_rbFill_of_short (hshort : s.rbSize * c.toNat < l.toNat) :
    exec (.rbFill c l) s = .next (fillTopUp s) := by
  rw [exec_rbFill hf hm hc, fillStep, if_pos hshort]

theorem exec_rbFill_of_covered (hw : s.waiting .playback = r :: rs)
    (hcover : l.toNat ≤ s.rbSize * c.toNat) (hhead : s.rbHead < s.cfg.cap) :
    exec (.rbFill c l) s = .next (answered .playback .ok
      (.samples ((List.range l.toNat).map (fun i => s.sampleAt (i / c.toNat)))) rs
      (s.popped (framesOf l.toNat c.toNat))) := by
  rw [exec_rbFill hf hm hc, fillStep, if_neg (Nat.not_lt.2 hcover)]
  simp only [fillOutput_of_covered (toNat_pos_of_ne_zero hc) hcover hhead]
  exact congrArg _ (respond_of_same_ports _ _ hw rfl)

end

/-- Settles O31: the samples taken stand in the output frame by frame. -/
theorem rbFillReplicates : Obligations.RbFillReplicates := by
  intro s c l r rs hf hm hw hc hcover hhead
  refine ⟨_, exec_rbFill_of_covered hf hm hc hw hcover hhead, by simp, fun k hk => ?_⟩
  have hsample : k / c.toNat < s.buffered.length := by
    rw [buffered_length, Nat.div_lt_iff_lt_mul (toNat_pos_of_ne_zero hc)]
    omega
  rw [List.getElem?_eq_getElem hsample, buffered_getElem, List.getElem?_map, List.getElem?_range hk]
  rfl

/-! ## The top-up (R164, R201) -/

section

variable {s : State} {x : Chunk} {q : List Chunk}

theorem fillTopUp_of_room (hq : s.afQ = x :: q) (hroom : s.rbSize + s.cfg.n ≤ s.cfg.cap) :
    fillTopUp s = { s with afQ := q : State }.pushed x := by
  unfold fillTopUp
  rw [hq]
  simp only [rbPushChunk_of_room (s := { s with afQ := q }) (x := x) hroom]
  rfl

theorem fillTopUp_of_no_room (hq : s.afQ = x :: q) (hroom : s.cfg.cap < s.rbSize + s.cfg.n) :
    fillTopUp s = raiseFatal .playback .rbOverflow s := by
  have hnone : rbPushChunk x { s with afQ := q } = none := rbPushChunk_none.2 hroom
  unfold fillTopUp
  rw [hq]
  simp only [hnone]

theorem fillTopUp_of_empty (hq : s.afQ = []) :
    fillTopUp s =
      if s.seqState = .stopped then raiseFatal .playback .channelDisconnect s else s := by
  unfold fillTopUp
  rw [hq]

end

/-- Settles O32: a chunk that fits, one that does not, and the two ways of an empty channel. -/
theorem rbFillTopsUp : Obligations.RbFillTopsUp := by
  intro s c l r rs hf hm hw hc hshort hring _
  rw [exec_rbFill_of_short hf hm hc hshort]
  refine ⟨fun x q hq hx => ⟨fun hroom => ?room, fun hroom => ?overflow⟩, fun hq hrun => ?hold,
    fun hq hstop => ?disconnect⟩
  case room =>
    rw [fillTopUp_of_room hq hroom]
    exact ⟨_, rfl, buffered_pushed (s := { s with afQ := q }) hring hx hroom, rfl,
      fun a ha => read_pushed_other (s := { s with afQ := q }) hx ha⟩
  case overflow =>
    rw [fillTopUp_of_no_room hq hroom, raiseFatal_eq_answered _ _ _ r rs hw]
    rfl
  case hold => rw [fillTopUp_of_empty hq, if_neg hrun]
  case disconnect =>
    rw [fillTopUp_of_empty hq, if_pos hstop, raiseFatal_eq_answered _ _ _ r rs hw]
    rfl

/-! ## Two turns of the playback port (R167) -/

section

variable {s : State} {c : BitVec 8} {l : BitVec 32} {pl : Chunk} {rs : List Request}
  {es : List EnvInput} (hf : s.fatal = false) (hm : s.mode = .chain) (hc : c ≠ 0#8)
  (hw : s.waiting .playback = ⟨encodeWord (.rbFill c l), pl⟩ :: rs)
  (he : s.script = .port .playback :: es)

include hc hw he

theorem step_rbFill : step s = exec (.rbFill c l) (takeInput s) := by
  have hnext : nextInput s = .port .playback := by rw [nextInput, he]
  have hw' : (takeInput s).waiting .playback = _ := hw
  obtain ⟨hdec, -⟩ := decodeOfEncodedOperation _ (wf_rbFill l hc)
  rw [step_of_port hnext, portStep_of_decodeWord hw' hdec rfl]

include hf hm

/-- A turn on a covered request answers it. -/
theorem step_rbFill_of_covered (hring : RingInv s) (hcover : l.toNat ≤ s.rbSize * c.toNat) :
    ∃ (t : State) (out : List F32), step s = .next t ∧
      t.responses = s.responses ++ [⟨.playback, .ok, .samples out⟩] ∧ t.fatal = false ∧
      t.script = es := by
  obtain ⟨-, hhead, -⟩ := hring
  have hanswer := exec_rbFill_of_covered (s := takeInput s) hf hm hc hw hcover hhead
  exact ⟨_, _, (step_rbFill hc hw he).trans hanswer, rfl, hf, congrArg List.tail he⟩

/-- A turn on a request not covered pulls a chunk that fits, and leaves the request on the port. -/
theorem step_rbFill_of_short {x : Chunk} {q : List Chunk} (hshort : s.rbSize * c.toNat < l.toNat)
    (hq : s.afQ = x :: q) (hroom : s.rbSize + s.cfg.n ≤ s.cfg.cap) :
    step s = .next ({ takeInput s with afQ := q : State }.pushed x) := by
  rw [step_rbFill hc hw he, exec_rbFill_of_short (s := takeInput s) hf hm hc hshort,
    fillTopUp_of_room (s := takeInput s) hq hroom]

end

/-- A turn of a port always has a next state. -/
theorem exists_step_of_port {s : State} {p : Port} (he : nextInput s = .port p) :
    ∃ t, step s = .next t := by
  obtain ⟨t, ht, -⟩ := portStep_sameSetup p (takeInput s)
  exact ⟨t, (step_of_port he).trans ht⟩

/-- Settles O34: fewer than N samples are held where a request of at most N frames is not covered, so the
pulled chunk fits, and with it N samples are held. -/
theorem rbFillCompletesInTwoTurns : Obligations.RbFillCompletesInTwoTurns := by
  intro s c l x q pl rs es hinv hf hm hc hframes hw hq he
  have hcpos := toNat_pos_of_ne_zero hc
  by_cases hcover : l.toNat ≤ s.rbSize * c.toNat
  · obtain ⟨t, out, ht, hresp, htf, hscript⟩ :=
      step_rbFill_of_covered hf hm hc hw he hinv.ring hcover
    obtain ⟨u, hu⟩ := exists_step_of_port (s := t) (p := .playback) (by rw [nextInput, hscript])
    exact ⟨t, u, ht, hu, htf, .inl ⟨out, hresp⟩⟩
  · have hfew : s.rbSize < framesOf l.toNat c.toNat :=
      Nat.lt_of_not_le (mt (framesOf_le_iff hcpos).1 hcover)
    have hroom : s.rbSize + s.cfg.n ≤ s.cfg.cap := by
      rw [Params.cap]
      omega
    have hstep := step_rbFill_of_short hf hm hc hw he (Nat.lt_of_not_le hcover) hq hroom
    have hring := (everyStepKeepsInvariant s _ hinv hstep).ring
    have hcover' : l.toNat ≤ (s.rbSize + s.cfg.n) * c.toNat :=
      (framesOf_le_iff hcpos).1 (hframes.trans (Nat.le_add_left _ _))
    have hscript : ({ takeInput s with afQ := q : State }.pushed x).script = .port .playback :: es :=
      congrArg List.tail he
    obtain ⟨u, out, hu, hresp, huf, -⟩ := step_rbFill_of_covered
      (s := { takeInput s with afQ := q : State }.pushed x) hf hm hc hw hscript hring hcover'
    exact ⟨_, u, hstep, hu, hf, .inr ⟨rfl, out, hresp, huf⟩⟩

end Sys2Proof.Machine
end

section
/-! PROOFS. RB_UNDERFLOW is never raised (43_ring_buffer.md R168): from a state that meets the invariant no
response carries it, and the invariant excludes it as a cause. Settles O35. -/

namespace Sys2Proof.Machine

/-- No response was added, or one that is not RB_UNDERFLOW. -/
def NoUnderflowAnswer (s t : State) : Prop :=
  t.responses = s.responses ∨ ∃ r, t.responses = s.responses ++ [r] ∧ r.status ≠ .rbUnderflow

section

variable {s t : State}

theorem status_ne_underflow (h : NoUnderflowAnswer s t) {r : Response}
    (hr : t.responses = s.responses ++ [r]) : r.status ≠ .rbUnderflow := by
  obtain h | ⟨r', h, hst⟩ := h
  · simp [h] at hr
  · obtain rfl : r' = r := by simpa [h] using hr
    exact hst

theorem noUnderflowAnswer_respond (p : Port) {st : Status} (res : Result)
    (h : t.responses = s.responses) (hst : st ≠ .rbUnderflow) :
    NoUnderflowAnswer s (respond p st res t) :=
  .inr ⟨⟨p, st, res⟩, congrArg (· ++ _) h, hst⟩

/-! ## Port operations -/

theorem noUnderflowAnswer_checked {i : Instr} (h : i.wf = true → NoUnderflowAnswer s t) :
    NoUnderflowAnswer s (checked i s t) := by
  obtain ⟨hc, -⟩ | ⟨hc, -⟩ | ⟨hc, -⟩ | ⟨hc, -, hwf, -⟩ := checked_cases i s t <;> rw [hc]
  · exact noUnderflowAnswer_respond _ _ rfl nofun
  · exact noUnderflowAnswer_respond _ _ rfl nofun
  · exact noUnderflowAnswer_respond _ _ rfl nofun
  · exact h hwf

theorem noUnderflowAnswer_acceptCommand (i : Instr) (s : State) :
    NoUnderflowAnswer s (acceptCommand i s) := by
  obtain ⟨-, h⟩ | ⟨-, -, h⟩ := acceptCommand_cases i s <;> rw [h] <;>
    exact noUnderflowAnswer_respond _ _ rfl nofun

theorem noUnderflowAnswer_fillTopUp (s : State) : NoUnderflowAnswer s (fillTopUp s) := by
  obtain ⟨-, -, h⟩ | ⟨-, -, h⟩ | ⟨x, q, -, -, h⟩ | ⟨x, q, -, -, h⟩ := fillTopUp_cases s <;> rw [h]
  · exact .inl rfl
  · exact noUnderflowAnswer_respond _ _ rfl nofun
  · exact noUnderflowAnswer_respond _ _ rfl nofun
  · exact .inl rfl

/-- The output starts only when the buffer covers the request, and then finds a sample at every pop. -/
theorem noUnderflowAnswer_fillStep {c : Nat} (l : Nat) (hc : 0 < c) (hhead : s.rbHead < s.cfg.cap) :
    NoUnderflowAnswer s (fillStep c l s) := by
  unfold fillStep
  split_ifs with hshort
  · exact noUnderflowAnswer_fillTopUp s
  · simp only [fillOutput_of_covered hc (Nat.le_of_not_lt hshort) hhead]
    exact noUnderflowAnswer_respond _ _ rfl nofun

theorem exec_noUnderflowAnswer (i : Instr) (hhead : s.rbHead < s.cfg.cap) :
    ∃ t, exec i s = .next t ∧ NoUnderflowAnswer s t := by
  cases i with
  | cmdAm | cmdAgc | cmdAf | cmdRssi | cmdIfout | cmdEnd =>
    exact ⟨_, rfl, noUnderflowAnswer_checked fun _ => noUnderflowAnswer_acceptCommand _ s⟩
  | firSelIf | firSelAf | firRunIf | firRunAf | agcSel | agcRun | envRun | ncoGen | ifClose =>
    exact ⟨_, rfl, noUnderflowAnswer_checked fun _ => noUnderflowAnswer_respond _ _ rfl nofun⟩
  | ncoInit | ifSend =>
    refine ⟨_, rfl, noUnderflowAnswer_checked fun _ => ?_⟩
    extract_lets
    split_ifs <;> exact noUnderflowAnswer_respond _ _ rfl nofun
  | rbPush =>
    refine ⟨_, rfl, noUnderflowAnswer_checked fun _ => ?_⟩
    split
    next t h =>
      rw [(rbPushChunk_some h).2]
      exact noUnderflowAnswer_respond _ _ rfl nofun
    next => exact noUnderflowAnswer_respond _ _ rfl nofun
  | rbPop =>
    refine ⟨_, rfl, noUnderflowAnswer_checked fun _ => ?_⟩
    split
    next v t h =>
      rw [(rbPopSample_some h).2.2]
      exact noUnderflowAnswer_respond _ _ rfl nofun
    next => exact noUnderflowAnswer_respond _ _ rfl nofun
  | csrRead =>
    refine ⟨_, rfl, noUnderflowAnswer_checked fun _ => ?_⟩
    split <;> exact noUnderflowAnswer_respond _ _ rfl nofun
  | rbFill c l =>
    refine ⟨_, rfl, noUnderflowAnswer_checked fun hwf => ?_⟩
    exact noUnderflowAnswer_fillStep l.toNat (toNat_pos_of_ne_zero (bne_iff_ne.1 hwf)) hhead

theorem portStep_noUnderflowAnswer (p : Port) (hhead : s.rbHead < s.cfg.cap) :
    ∃ t, portStep p s = .next t ∧ NoUnderflowAnswer s t := by
  obtain ⟨-, h⟩ | ⟨r, rs, i, -, -, -, h⟩ | ⟨r, rs, -, -, h⟩ := portStep_cases p s <;> rw [h]
  · exact ⟨s, rfl, .inl rfl⟩
  · exact exec_noUnderflowAnswer i hhead
  · obtain ⟨hr, -⟩ | ⟨hr, -⟩ | ⟨hr, -⟩ := refuseWord_cases p r.word s <;> rw [hr] <;>
      exact ⟨_, rfl, noUnderflowAnswer_respond _ _ rfl nofun⟩

end

/-! ## Inputs that are answered by no response -/

theorem arrive_responses (p : Port) (r : Request) (s : State) :
    (arrive p r s).responses = s.responses := by
  unfold arrive
  split_ifs <;> rfl

theorem applyCommand_responses (i : Instr) (s : State) :
    (applyCommand i s).responses = s.responses := by
  cases i <;> rfl

theorem pollStep_responses (s : State) : (pollStep s).responses = s.responses := by
  unfold pollStep applyWord
  split
  · rfl
  · split
    · exact applyCommand_responses _ _
    · rfl

theorem waitStep_responses (f1 f2 : Bool) (s : State) :
    (waitStep f1 f2 s).responses = s.responses := by
  obtain ⟨-, -, h⟩ | ⟨-, -, h⟩ | ⟨x, q, -, h⟩ := waitStep_cases f1 f2 s <;> rw [h] <;> rfl

theorem sequencerStep_responses (f1 f2 : Bool) (s : State) :
    (sequencerStep f1 f2 s).responses = s.responses := by
  obtain ⟨-, h⟩ | ⟨-, -, h⟩ | ⟨-, -, h⟩ := sequencerStep_cases f1 f2 s <;> rw [h]
  · exact pollStep_responses s
  · exact waitStep_responses f1 f2 s

/-! ## The step -/

theorem noUnderflowAnswer_of_step {s t : State} (hhead : s.rbHead < s.cfg.cap)
    (hst : step s = .next t) : NoUnderflowAnswer s t := by
  obtain ⟨p, r, -, hc⟩ | ⟨p, -, hc⟩ | ⟨f1, f2, -, hc⟩ | ⟨-, hc⟩ := step_cases s <;> rw [hc] at hst
  · cases hst
    exact .inl (arrive_responses p r (takeInput s))
  · obtain ⟨u, hu, hanswer⟩ := portStep_noUnderflowAnswer (s := takeInput s) p hhead
    rw [hu] at hst
    cases hst
    exact hanswer
  · cases hst
    exact .inl (sequencerStep_responses f1 f2 (takeInput s))
  · cases hst
    exact .inl rfl

theorem cause_ne_underflow {t : State} (h : CauseInv t) : t.cause ≠ 9#4 := by
  obtain ⟨hrun, hhalt⟩ := h
  cases hf : t.fatal with
  | false => simp [hrun hf]
  | true => obtain hcause | hcause := hhalt hf <;> simp [hcause]

/-- Settles O35: the cause by the invariant of the next state, the response by the covered output. -/
theorem underflowIsUnreachable : Obligations.UnderflowIsUnreachable := by
  intro s t h hst
  obtain ⟨-, hhead, -⟩ := h.ring
  exact ⟨cause_ne_underflow (everyStepKeepsInvariant s t h hst).cause,
    fun _ hr => status_ne_underflow (noUnderflowAnswer_of_step hhead hst) hr⟩

end Sys2Proof.Machine
end

section
/-! PROOFS. The command port, the capture port and the envelope detector (44_chain.md R181 to R194): what an
accepted command, IF.SEND, IF.CLOSE and ENV.RUN answer, and the integer selectors. Settles O23, O36, O37 and
O38. -/

namespace Sys2Proof.Machine

theorem acceptCommand_of_open {i : Instr} {s : State} (hopen : s.cmdClosed = false)
    (hrun : s.seqState ≠ .stopped) :
    acceptCommand i s = respond .command .ok .none
      { s with cmdQ := s.cmdQ ++ [encodeWord i], cmdClosed := i.op == 0x0F#8 } := by
  simp [acceptCommand, hopen, hrun]

section

variable {s : State} {r : Request} {rs : List Request} (hf : s.fatal = false)

include hf

/-- An operation that passes the checks and answers leaves its port with one response. -/
theorem checked_respond {i : Instr} {p : Port} (hw : s.waiting p = r :: rs) (hwf : i.wf = true)
    (hm : admittedIn i s.mode = true) (st : Status) (res : Result) {t : State}
    (ht : t.pending = s.pending) :
    checked i s (respond p st res t) = answered p st res rs t := by
  rw [checked_own (.inl hf) hwf hm, respond_of_same_ports st res hw ht]

/-! ## The command port (R181) -/

/-- A command that passes the checks is accepted while the port is open and the sequencer lives. -/
theorem checked_acceptCommand {i : Instr} (hw : s.waiting .command = r :: rs) (hwf : i.wf = true)
    (hm : admittedIn i s.mode = true) (hopen : s.cmdClosed = false) (hrun : s.seqState ≠ .stopped) :
    checked i s (acceptCommand i s) = answered .command .ok .none rs
      { s with cmdQ := s.cmdQ ++ [encodeWord i], cmdClosed := i.op == 0x0F#8 } := by
  rw [acceptCommand_of_open hopen hrun]
  exact checked_respond hf hw hwf hm _ _ rfl

/-! ## The capture port (R192, R193) -/

theorem exec_ifSend_of_open (hm : s.mode = .chain) (hw : s.waiting .capture = r :: rs)
    (hopen : s.capClosed = false) (hrun : s.seqState ≠ .stopped) :
    exec .ifSend s = .next (answered .capture .ok .none rs { s with ifQ := s.ifQ ++ [r.payload] }) := by
  have hrefuse : ¬ (s.capClosed || s.seqState == .stopped) = true := by simp [hopen, hrun]
  rw [exec, execIfSend, if_neg hrefuse, payload_of_waiting hw]
  exact congrArg _ (checked_respond hf hw (i := .ifSend) rfl (beq_iff_eq.2 hm) _ _ rfl)

theorem exec_ifClose (hm : s.mode = .chain) (hw : s.waiting .capture = r :: rs) :
    exec .ifClose s = .next (answered .capture .ok .none rs { s with capClosed := true }) :=
  congrArg Host.Outcome.next (checked_respond hf hw (i := .ifClose) rfl (beq_iff_eq.2 hm) _ _ rfl)

/-! ## The envelope detector (R194) -/

theorem exec_envRun (hw : s.waiting .direct = r :: rs) :
    exec .envRun s = .next (answered .direct .ok (.chunk (envChunk s.tick r.payload)) rs s) := by
  rw [exec, execEnvRun, payload_of_waiting hw]
  exact congrArg _ (checked_respond hf hw rfl rfl _ _ rfl)

end

/-- Settles O36: the checks pass for each of the six commands, and of these only CMD.END has OP 0x0F. -/
theorem commandIsQueued : Obligations.CommandIsQueued := by
  intro i s r rs hi hf hm hopen hrun hw
  have hchain : (s.mode == .chain) = true := beq_iff_eq.2 hm
  cases i with
  | cmdAm | cmdAgc | cmdAf | cmdRssi | cmdIfout | cmdEnd =>
    exact congrArg Host.Outcome.next (checked_acceptCommand hf hw rfl hchain hopen hrun)
  | firSelIf | firSelAf | firRunIf | firRunAf | agcSel | agcRun | envRun | ncoInit | ncoGen | rbPush
  | rbPop | rbFill | ifSend | ifClose | csrRead => cases hi

/-- Settles O38: the payload queued is that of the request answered. -/
theorem capturePortOperations : Obligations.CapturePortOperations := fun _ _ _ hf hm hw =>
  ⟨exec_ifSend_of_open hf hm hw, exec_ifClose hf hm hw⟩

/-- Settles O23: ENV.RUN maps the detector over its chunk. -/
theorem envRunDetectsEnvelope : Obligations.EnvRunDetectsEnvelope := by
  intro s r rs hf hw
  refine ⟨_, exec_envRun hf hw, envChunk_length _ _, fun n x hx => ?_⟩
  obtain ⟨e, he⟩ := mapSamples_get envSample (stageSite s.tick 4) r.payload n x hx
  exact ⟨e, e.atOp 1, he⟩

/-! ## The integer selectors (R188 to R190) -/

/-- Settles O37: each range takes its own branch, the tests before it failing. -/
theorem selectorDecoding : Obligations.SelectorDecoding := by
  intro n
  refine ⟨?am3, ?am6, ?am11, ?amNone, ?af3, ?af6, ?af11, ?agcNone, ?agc0, ?agc1, ?agc2, ?agc3, ?agc4⟩
  case am3 | af3 | agcNone => exact fun h => if_pos h
  case am6 | af6 => exact fun h => (if_neg (by omega)).trans (if_pos h.2)
  case am11 => exact fun h => by rw [decodeAm, if_neg (by omega), if_neg (by omega), if_pos h.2]
  case amNone =>
    exact fun h => by rw [decodeAm, if_neg (by omega), if_neg (by omega), if_neg (by omega)]
  case af11 => exact fun h => (if_neg (by omega)).trans (if_neg (by omega))
  case agc0 | agc1 | agc2 | agc3 => rintro rfl; rfl
  case agc4 =>
    exact fun h => by
      rw [decodeAgc, if_neg (by omega), if_neg (by omega), if_neg (by omega), if_neg (by omega),
        if_neg (by omega)]

end Sys2Proof.Machine
end

section
/-! PROOFS. The sequencer (44_chain.md R195 to R203, R206): when it has a step, what the Poll and the Wait step
do, and the chain as its four stages in turn, each of which reads only the parameters, its own
unit and the step number. Settles O39, O40, O41, O42, O43 and O44. -/

namespace Sys2Proof.Machine

/-! ## The turn of the sequencer (R196) -/

section

variable {s : State} {f1 f2 : Bool}

theorem step_of_sequencer (he : nextInput s = .sequencer f1 f2) :
    step s = .next (sequencerStep f1 f2 (takeInput s)) :=
  step_of_nextInput he

theorem sequencerStep_of_not_enabled
    (h : ¬ (s.fatal = false ∧ s.mode = .chain ∧ s.seqState ≠ .stopped)) :
    sequencerStep f1 f2 s = s :=
  if_neg (mt sequencerEnabled_iff.1 h)

theorem sequencerStep_of_poll (h : s.fatal = false ∧ s.mode = .chain ∧ s.seqState ≠ .stopped)
    (hphase : s.seqPhase = .poll) : sequencerStep f1 f2 s = pollStep s := by
  rw [sequencerStep, if_pos (sequencerEnabled_iff.2 h), hphase]

theorem sequencerStep_of_wait (h : s.fatal = false ∧ s.mode = .chain ∧ s.seqState ≠ .stopped)
    (hphase : s.seqPhase = .wait) : sequencerStep f1 f2 s = waitStep f1 f2 s := by
  rw [sequencerStep, if_pos (sequencerEnabled_iff.2 h), hphase]

end

/-- Settles O39: taking the input changes none of the fields the condition reads. -/
theorem sequencerStepsOnlyWhenEnabled : Obligations.SequencerStepsOnlyWhenEnabled := by
  intro s f1 f2 he
  rw [step_of_sequencer he]
  exact ⟨fun h => congrArg _ (sequencerStep_of_not_enabled (s := takeInput s) h),
    fun h hphase => congrArg _ (sequencerStep_of_poll (s := takeInput s) h hphase),
    fun h hphase => congrArg _ (sequencerStep_of_wait (s := takeInput s) h hphase)⟩

/-! ## The Poll step (R195, R197) -/

theorem pollStep_of_command {s : State} {i : Instr} {q : List OpWord} (hi : i.port = .command)
    (hq : s.cmdQ = encodeWord i :: q) :
    pollStep s = applyCommand i { s with cmdQ := q, seqPhase := .wait } :=
  pollStep_of_cons hq (decodeWord_encodeWord_of_command hi)

theorem bne_zero_eq_decide (h : BitVec 32) : (h != 0#32) = decide (h ≠ 0#32) := by
  rw [Bool.eq_iff_iff, bne_iff_ne, decide_eq_true_iff]

/-- Settles O40: the word queued decodes to its command, and each command's effect is its definition. -/
theorem pollAppliesOneCommand : Obligations.PollAppliesOneCommand := by
  refine fun s => ⟨pollStep_of_nil, fun q n => ⟨fun hq => ?am, fun hq => ?agc, fun hq => ?af,
    fun hq => ?rssi, fun hq => ?ifout, fun hq => ?cmdEnd⟩⟩
  case am | agc | af | cmdEnd => exact pollStep_of_command rfl hq
  case rssi | ifout =>
    rw [← bne_zero_eq_decide]
    exact pollStep_of_command rfl hq

/-! ## The Wait step (R198, R200 to R203) -/

section

variable {s : State}

theorem waitStep_of_nil (f1 f2 : Bool) (hq : s.ifQ = []) :
    waitStep f1 f2 s = if s.capClosed then haltWith .channelDisconnect s else s := by
  rw [waitStep, hq]

theorem waitStep_of_cons (f1 f2 : Bool) {x : Chunk} {q : List Chunk} (hq : s.ifQ = x :: q) :
    waitStep f1 f2 s = forwardChunk f1 f2 x q s := by
  rw [waitStep, hq]

end

section

variable (f1 f2 : Bool) (x : Chunk) (q : List Chunk) (s : State)

@[simp] theorem forwardChunk_afQ : (forwardChunk f1 f2 x q s).afQ = s.afQ ++ [(chain s x).out] := rfl
@[simp] theorem forwardChunk_rssi : (forwardChunk f1 f2 x q s).rssi = (chain s x).metric := rfl
@[simp] theorem forwardChunk_sink1En : (forwardChunk f1 f2 x q s).sink1En = (s.sink1En && !f1) := rfl
@[simp] theorem forwardChunk_sink2En : (forwardChunk f1 f2 x q s).sink2En = (s.sink2En && !f2) := rfl

/-- The failure draws reach the two enables alone (R203). -/
theorem forwardChunk_draws (g1 g2 : Bool) :
    forwardChunk g1 g2 x q s = { forwardChunk f1 f2 x q s with
      sink1En := (forwardChunk g1 g2 x q s).sink1En
      sink2En := (forwardChunk g1 g2 x q s).sink2En } := rfl

end

/-- The FIR function gives one sample for each it takes, whatever its history. -/
theorem length_firChunk_out (d : DrawSite) (c h : List F32) (x : Chunk) :
    (firChunk d c h x).2.length = x.length := by
  induction x generalizing d h with
  | nil => rfl
  | cons v x ih => exact congrArg Nat.succ (ih d.nextSample (h.drop 1 ++ [v]))

theorem length_ifStage_out (s : State) (x : Chunk) : (ifStage s x).2.length = x.length := by
  by_cases hk : s.ifSpec = .none
  · rw [ifStage_of_none hk]
  · rw [ifStage_of_ne_none hk, length_firChunk_out]

/-- The chain gives as many samples as it takes, in every state. -/
theorem length_chain_out (s : State) (x : Chunk) : (chain s x).out.length = x.length := by
  calc (chain s x).out.length = (envChunk s.tick (agcStage s (ifStage s x).2).out).length :=
        length_firChunk_out _ _ _ _
    _ = x.length := by rw [envChunk_length, agcStage_length, length_ifStage_out]

/-- Settles O42: an empty channel with its producer alive or gone, and a chunk. -/
theorem waitStepOutcomes : Obligations.WaitStepOutcomes := by
  refine fun s f1 f2 => ⟨fun hq hopen => ?hold, fun hq hclosed => ?disconnect, fun x q hq => ?forward⟩
  case hold => exact (waitStep_of_nil f1 f2 hq).trans (if_neg (by simp [hopen]))
  case disconnect => exact (waitStep_of_nil f1 f2 hq).trans (if_pos hclosed)
  case forward =>
    rw [waitStep_of_cons f1 f2 hq, forwardChunk_seqState]
    exact ⟨fun h => if_pos h, fun h => by rw [h]; rfl, rfl, rfl,
      ⟨_, forwardChunk_afQ f1 f2 x q s, length_chain_out s x⟩, rfl⟩

/-- Settles O43: what forwarding a chunk emits, and the two enables it leaves. -/
theorem telemetryEventsAndFailures : Obligations.TelemetryEventsAndFailures := by
  intro s x q f1 f2 hq
  simp only [waitStep_of_cons _ _ hq]
  exact ⟨rfl, by simp, by simp, rfl, rfl, forwardChunk_draws f1 f2 x q s⟩

/-! ## The chain and its stages (R199, R206) -/

section

variable {s t : State} (hcfg : s.cfg = t.cfg) (htick : s.tick = t.tick)

include hcfg htick

theorem ifStage_congr (hspec : s.ifSpec = t.ifSpec) (hhist : s.ifHist = t.ifHist) (x : Chunk) :
    ifStage s x = ifStage t x := by
  simp only [ifStage, hcfg, htick, hspec, hhist]

theorem agcStage_congr (hspec : s.agcSpec = t.agcSpec) (hhist : s.agcHist = t.agcHist) (x : Chunk) :
    agcStage s x = agcStage t x := by
  simp only [agcStage, hcfg, htick, hspec, hhist]

theorem afStage_congr (hspec : s.afSpec = t.afSpec) (hhist : s.afHist = t.afHist) (x : Chunk) :
    afStage s x = afStage t x := by
  simp only [afStage, hcfg, htick, hspec, hhist]

end

/-- Settles O44: each stage of the chain reads only what the two states agree on. -/
theorem chainOutputIsDetermined : Obligations.ChainOutputIsDetermined := by
  intro s t x p q f1 f2 g1 g2 hs ht hcfg htick hifs hifh hafs hafh hagcs hagch
  have hchain : chain s x = chain t x := by
    simp only [chain, ifStage_congr hcfg htick hifs hifh, agcStage_congr hcfg htick hagcs hagch,
      afStage_congr hcfg htick hafs hafh, htick]
  rw [waitStep_of_cons f1 f2 hs, waitStep_of_cons g1 g2 ht]
  refine ⟨(chain s x).out, forwardChunk_afQ f1 f2 x p s, ?_, ?_⟩
  · rw [hchain, forwardChunk_afQ]
  · rw [forwardChunk_rssi, forwardChunk_rssi, hchain]

/-! ## The units run by hand (R199) -/

section

variable (x : Chunk) (s : State)

/-- The state after FIR.RUN.IF on a chunk, run by hand in DIRECT mode. -/
def afterFirRunIf : State :=
  answered .direct .ok (.chunk (ifStage s x).2) [] { onDirect x s with ifHist := (ifStage s x).1 }

/-- The state after ENV.RUN on a chunk, run by hand in DIRECT mode. -/
def afterEnvRun : State :=
  answered .direct .ok (.chunk (envChunk s.tick x)) [] (onDirect x s)

/-- The state after FIR.RUN.AF on a chunk, run by hand in DIRECT mode. -/
def afterFirRunAf : State :=
  answered .direct .ok (.chunk (afStage s x).2) [] { onDirect x s with afHist := (afStage s x).1 }

section

variable {s} (hf : s.fatal = false)

include hf

theorem exec_firRunIf_onDirect : exec .firRunIf (onDirect x s) = .next (afterFirRunIf x s) :=
  exec_firRunIf (s := onDirect x s) (r := ⟨0#64, x⟩) hf rfl rfl

theorem exec_envRun_onDirect : exec .envRun (onDirect x s) = .next (afterEnvRun x s) :=
  exec_envRun (s := onDirect x s) (r := ⟨0#64, x⟩) hf rfl

theorem exec_firRunAf_onDirect : exec .firRunAf (onDirect x s) = .next (afterFirRunAf x s) :=
  exec_firRunAf (s := onDirect x s) (r := ⟨0#64, x⟩) hf rfl rfl

end

theorem afterFirRunIf_responses : (afterFirRunIf x s).responses =
    s.responses ++ [⟨.direct, .ok, .chunk (ifStage s x).2⟩] := rfl
theorem afterEnvRun_responses : (afterEnvRun x s).responses =
    s.responses ++ [⟨.direct, .ok, .chunk (envChunk s.tick x)⟩] := rfl
theorem afterFirRunAf_responses : (afterFirRunAf x s).responses =
    s.responses ++ [⟨.direct, .ok, .chunk (afStage s x).2⟩] := rfl

/-- FIR.RUN.IF writes nothing that the AGC reads. -/
theorem agcStage_afterFirRunIf (z : Chunk) : agcStage (afterFirRunIf x s) z = agcStage s z :=
  agcStage_congr rfl rfl rfl rfl z

/-- The three units before it write nothing that the AF filter reads. -/
theorem afStage_afterEnvRun (a b z : Chunk) :
    afStage (afterEnvRun b (afterAgcRun a (afterFirRunIf x s))) z = afStage s z :=
  afStage_congr rfl rfl rfl rfl z

/-- The histories after the four units in turn are those that each stage leaves. -/
theorem histories_afterFirRunAf (a b c : Chunk) :
    (afterFirRunAf c (afterEnvRun b (afterAgcRun a (afterFirRunIf x s)))).ifHist = (ifStage s x).1 ∧
    (afterFirRunAf c (afterEnvRun b (afterAgcRun a (afterFirRunIf x s)))).agcHist = (agcStage s a).hist ∧
    (afterFirRunAf c (afterEnvRun b (afterAgcRun a (afterFirRunIf x s)))).afHist = (afStage s c).1 :=
  ⟨rfl, congrArg AgcOut.hist (agcStage_afterFirRunIf x s a),
    congrArg Prod.fst (afStage_afterEnvRun x s a b c)⟩

end

/-- Settles O41: each unit run by hand sees what its stage sees in the chain. -/
theorem chainEqualsUnitsInTurn : Obligations.ChainEqualsUnitsInTurn := by
  intro s x q f1 f2 hf hm hrun hphase hq he
  let u := takeInput s
  let a := (ifStage u x).2
  let b := (agcStage u a).out
  let c := envChunk u.tick b
  have hstep : step s = .next (forwardChunk f1 f2 x q u) := by
    rw [step_of_sequencer he, sequencerStep_of_wait (s := u) ⟨hf, hm, hrun⟩ hphase,
      waitStep_of_cons (s := u) f1 f2 hq]
  let t1 := afterFirRunIf x u
  let t2 := afterAgcRun a t1
  let t3 := afterEnvRun b t2
  have hf1 : t1.fatal = false := hf
  have hf2 : t2.fatal = false := hf1
  have hf3 : t3.fatal = false := hf2
  obtain ⟨hif, hagc, haf⟩ := histories_afterFirRunAf x u a b c
  refine ⟨a, b, c, (afStage u c).2, (agcStage u a).metric, t1, t2, t3, afterFirRunAf c t3,
    forwardChunk f1 f2 x q u, exec_firRunIf_onDirect (s := u) x hf, afterFirRunIf_responses x u,
    exec_agcRun_onDirect a t1 hf1, ?agc, exec_envRun_onDirect b hf2, afterEnvRun_responses b t2,
    exec_firRunAf_onDirect c hf3, ?af, hstep, ?chain⟩
  case agc => rw [afterAgcRun_responses, agcStage_afterFirRunIf]
  case af => rw [afterFirRunAf_responses, afStage_afterEnvRun]
  case chain =>
    rw [hif, hagc, haf]
    rfl

end Sys2Proof.Machine
end

section
/-! PROOFS. One writer per unit in each mode (44_chain.md R205): what the filter and AGC instances, the metric
and the ring buffer hold is followed through every operation. Settles O51. -/

namespace Sys2Proof.Machine

/-- The filter and AGC instances and the metric. -/
def State.units (s : State) : IfSpec × List F32 × AfSpec × List F32 × AgcSpec × Taps × F32 :=
  (s.ifSpec, s.ifHist, s.afSpec, s.afHist, s.agcSpec, s.agcHist, s.rssi)

/-- The ring buffer: its store, its cursors and its size. -/
def State.ringBuffer (s : State) : Memory × Nat × Nat × Nat := (s.rbBuf, s.rbHead, s.rbTail, s.rbSize)

theorem units_eq_iff {s t : State} : t.units = s.units ↔
    t.ifSpec = s.ifSpec ∧ t.ifHist = s.ifHist ∧ t.afSpec = s.afSpec ∧ t.afHist = s.afHist ∧
      t.agcSpec = s.agcSpec ∧ t.agcHist = s.agcHist ∧ t.rssi = s.rssi := by
  simp only [State.units, Prod.mk.injEq]

theorem ringBuffer_eq_iff {s t : State} : t.ringBuffer = s.ringBuffer ↔
    t.rbBuf = s.rbBuf ∧ t.rbHead = s.rbHead ∧ t.rbTail = s.rbTail ∧ t.rbSize = s.rbSize := by
  simp only [State.ringBuffer, Prod.mk.injEq]

/-- What a port may have written from s to t: the direct port everything in DIRECT mode, the playback port the
ring buffer in CHAIN mode. -/
structure WritesOwn (p : Port) (s t : State) : Prop where
  units : t.units = s.units ∨ p = .direct ∧ s.mode = .direct
  ringBuffer : t.ringBuffer = s.ringBuffer ∨ p = .direct ∧ s.mode = .direct ∨
    p = .playback ∧ s.mode = .chain

/-! ## Port operations -/

section

variable {s t : State}

theorem writesOwn_of_same {p : Port} (hunits : t.units = s.units)
    (hring : t.ringBuffer = s.ringBuffer) : WritesOwn p s t :=
  ⟨.inl hunits, .inl hring⟩

theorem writesOwn_of_direct (hm : s.mode = .direct) : WritesOwn .direct s t :=
  ⟨.inr ⟨rfl, hm⟩, .inr (.inl ⟨rfl, hm⟩)⟩

/-- A check that fails writes nothing; where every check passes the mode admits the operation. -/
theorem writesOwn_checked {i : Instr} (h : admittedIn i s.mode = true → WritesOwn i.port s t) :
    WritesOwn i.port s (checked i s t) := by
  obtain ⟨hc, -⟩ | ⟨hc, -⟩ | ⟨hc, -⟩ | ⟨hc, -, -, hm⟩ := checked_cases i s t <;> rw [hc]
  case inr.inr.inr => exact h hm
  all_goals exact writesOwn_of_same rfl rfl

theorem writesOwn_acceptCommand (i : Instr) (s : State) : WritesOwn .command s (acceptCommand i s) := by
  obtain ⟨-, h⟩ | ⟨-, -, h⟩ := acceptCommand_cases i s <;> rw [h] <;> exact writesOwn_of_same rfl rfl

theorem fillStep_units (c l : Nat) (s : State) : (fillStep c l s).units = s.units := by
  unfold fillStep
  split_ifs
  · obtain ⟨-, -, h⟩ | ⟨-, -, h⟩ | ⟨x, q, -, -, h⟩ | ⟨x, q, -, -, h⟩ := fillTopUp_cases s <;>
      rw [h] <;> rfl
  · split
    next out t h =>
      rw [(fillOutput_frame h).2]
      rfl
    next => rfl

theorem exec_writesOwn (i : Instr) (s : State) : ∃ t, exec i s = .next t ∧ WritesOwn i.port s t := by
  cases i with
  | cmdAm | cmdAgc | cmdAf | cmdRssi | cmdIfout | cmdEnd =>
    exact ⟨_, rfl, writesOwn_checked fun _ => writesOwn_acceptCommand _ s⟩
  | firSelIf | firSelAf | firRunIf | firRunAf | agcSel | agcRun | rbPush | rbPop =>
    exact ⟨_, rfl, writesOwn_checked fun hm => writesOwn_of_direct (beq_iff_eq.1 hm)⟩
  | rbFill c l =>
    refine ⟨_, rfl, writesOwn_checked fun hm => ?_⟩
    exact ⟨.inl (fillStep_units _ _ s), .inr (.inr ⟨rfl, beq_iff_eq.1 hm⟩)⟩
  | envRun | ncoGen | ifClose => exact ⟨_, rfl, writesOwn_checked fun _ => writesOwn_of_same rfl rfl⟩
  | ncoInit | ifSend =>
    refine ⟨_, rfl, writesOwn_checked fun _ => ?_⟩
    extract_lets
    split_ifs <;> exact writesOwn_of_same rfl rfl
  | csrRead =>
    refine ⟨_, rfl, writesOwn_checked fun _ => ?_⟩
    split <;> exact writesOwn_of_same rfl rfl

theorem portStep_writesOwn (p : Port) (s : State) :
    ∃ t, portStep p s = .next t ∧ WritesOwn p s t := by
  obtain ⟨-, h⟩ | ⟨r, rs, i, -, -, rfl, h⟩ | ⟨r, rs, -, -, h⟩ := portStep_cases p s <;> rw [h]
  · exact ⟨s, rfl, writesOwn_of_same rfl rfl⟩
  · exact exec_writesOwn i s
  · rw [refuseWord_eq_respond]
    exact ⟨_, rfl, writesOwn_of_same rfl rfl⟩

theorem writesOwn_of_step {p : Port} (he : nextInput s = .port p) (hst : step s = .next t) :
    WritesOwn p (takeInput s) t := by
  obtain ⟨u, hu, h⟩ := portStep_writesOwn p (takeInput s)
  rw [step_of_port he, hu] at hst
  cases hst
  exact h

end

/-! ## The sequencer and arrivals -/

theorem applyCommand_ringBuffer (i : Instr) (s : State) :
    (applyCommand i s).ringBuffer = s.ringBuffer := by
  cases i <;> rfl

theorem pollStep_ringBuffer (s : State) : (pollStep s).ringBuffer = s.ringBuffer := by
  unfold pollStep applyWord
  split
  · rfl
  · split
    · exact applyCommand_ringBuffer _ _
    · rfl

theorem sequencerStep_ringBuffer (f1 f2 : Bool) (s : State) :
    (sequencerStep f1 f2 s).ringBuffer = s.ringBuffer := by
  obtain ⟨-, h⟩ | ⟨-, -, h⟩ | ⟨-, -, h⟩ := sequencerStep_cases f1 f2 s <;> rw [h]
  · exact pollStep_ringBuffer s
  · obtain ⟨-, -, h⟩ | ⟨-, -, h⟩ | ⟨x, q, -, h⟩ := waitStep_cases f1 f2 s <;> rw [h] <;> rfl

theorem sequencerStep_of_direct (f1 f2 : Bool) {s : State} (hm : s.mode = .direct) :
    sequencerStep f1 f2 s = s :=
  sequencerStep_of_not_enabled fun ⟨_, hchain, _⟩ => nomatch hm.symm.trans hchain

theorem arrive_frame (p : Port) (r : Request) (s : State) :
    arrive p r s = { s with pending := (arrive p r s).pending } := by
  unfold arrive
  split_ifs <;> rfl

/-- Settles O51: the mode excludes the writer that a port would be, and the sequencer is one in CHAIN mode
alone. -/
theorem singleWriterPerUnit : Obligations.SingleWriterPerUnit := by
  intro s t p hst
  refine ⟨fun he hother => units_eq_iff.1 ?units, fun he hother => ringBuffer_eq_iff.1 ?ring,
    fun f1 f2 he => ?sequencer, fun q r he => ?arrival⟩
  case units =>
    refine (writesOwn_of_step he hst).units.resolve_right fun ⟨hp, hm⟩ => ?_
    rw [takeInput_mode] at hm
    simp [hp, hm] at hother
  case ring =>
    refine (writesOwn_of_step he hst).ringBuffer.resolve_right fun h => ?_
    rw [takeInput_mode] at h
    obtain ⟨hp, hm⟩ | ⟨hp, hm⟩ := h <;> simp [hp, hm] at hother
  case sequencer =>
    rw [step_of_sequencer he] at hst
    cases hst
    obtain ⟨hbuf, hhead, htail, hsize⟩ :=
      ringBuffer_eq_iff.1 (sequencerStep_ringBuffer f1 f2 (takeInput s))
    exact ⟨hbuf, hhead, htail, hsize, fun hm => sequencerStep_of_direct f1 f2 hm⟩
  case arrival =>
    rw [step_of_arrive he] at hst
    cases hst
    exact arrive_frame q r (takeInput s)

end Sys2Proof.Machine
end

section
/-! PROOFS. CSR.READ of the history windows and of the addresses that are no register (10_state.md R42,
45_register_access.md R222). Settles O46. -/

namespace Sys2Proof.Machine

/-! ## What stands at an address -/

/-- No fixed register lies beyond AFQ_LEN. -/
theorem fixedReg_eq_none {s : State} {a : Nat} (h : 0x0018 < a) : fixedReg s a = none := by
  rw [fixedReg] <;> omega

/-- A window over a history of as many entries as there are taps shows entry i at the i-th address. -/
theorem historyReg_eq_some_iff {base taps a : Nat} {h : List F32} {v : BitVec 32}
    (hlen : h.length = taps) :
    historyReg base taps h a = some v ↔ ∃ i, a = base + i ∧ h[i]? = some v := by
  unfold historyReg
  constructor
  · intro hv
    split at hv
    · exact ⟨a - base, by omega, hv⟩
    · cases hv
  · rintro ⟨i, rfl, hi⟩
    have hlt : i < h.length := (List.getElem?_eq_some_iff.1 hi).1
    rw [if_pos (by omega), Nat.add_sub_cancel_left, hi]

/-- Outside the addresses of its entries a window shows nothing. -/
theorem historyReg_eq_none {base taps a : Nat} {h : List F32} (hlen : h.length = taps)
    (ha : ∀ i < h.length, a ≠ base + i) : historyReg base taps h a = none := by
  refine Option.eq_none_iff_forall_ne_some.2 fun v hv => ?_
  obtain ⟨i, hi, hv⟩ := (historyReg_eq_some_iff hlen).1 hv
  exact ha i (List.getElem?_eq_some_iff.1 hv).1 hi

section
variable {s : State} {a : BitVec 16}

theorem readRegister_of_lt (h : a.toNat < 0x1000) : readRegister s a = fixedReg s a.toNat :=
  if_pos h

theorem readRegister_of_ifWindow (hlo : 0x1000 ≤ a.toNat) (hhi : a.toNat < 0x2000) :
    readRegister s a = historyReg 0x1000 (s.cfg.ifTaps s.ifSpec) s.ifHist a.toNat := by
  rw [readRegister, if_neg (by omega), if_pos hhi]

theorem readRegister_of_afWindow (h : 0x2000 ≤ a.toNat) :
    readRegister s a = historyReg 0x2000 (s.cfg.afTaps s.afSpec) s.afHist a.toNat := by
  rw [readRegister, if_neg (by omega), if_neg (by omega)]

/-- IF_HIST[i] is entry i of the IF history; with at most 4096 entries the window ends before AF_HIST. -/
theorem readRegister_ifHist {i : Nat} {v : F32} (hinv : HistoryInv s) (hmax : s.ifHist.length ≤ 4096)
    (ha : a.toNat = 0x1000 + i) (hi : s.ifHist[i]? = some v) : readRegister s a = some v := by
  have hlt : i < s.ifHist.length := (List.getElem?_eq_some_iff.1 hi).1
  rw [readRegister_of_ifWindow (by omega) (by omega)]
  exact (historyReg_eq_some_iff hinv.1).2 ⟨i, ha, hi⟩

/-- AF_HIST[i] is entry i of the AF history. -/
theorem readRegister_afHist {i : Nat} {v : F32} (hinv : HistoryInv s)
    (ha : a.toNat = 0x2000 + i) (hi : s.afHist[i]? = some v) : readRegister s a = some v := by
  rw [readRegister_of_afWindow (by omega)]
  exact (historyReg_eq_some_iff hinv.2).2 ⟨i, ha, hi⟩

/-- An address beyond the fixed registers and outside both windows is no register (R222). -/
theorem readRegister_eq_none (hinv : HistoryInv s) (hfixed : 0x0018 < a.toNat)
    (hif : ∀ i < s.ifHist.length, a.toNat ≠ 0x1000 + i)
    (haf : ∀ i < s.afHist.length, a.toNat ≠ 0x2000 + i) : readRegister s a = none := by
  obtain hlo | hlo := Nat.lt_or_ge a.toNat 0x1000
  · rw [readRegister_of_lt hlo, fixedReg_eq_none hfixed]
  obtain hhi | hhi := Nat.lt_or_ge a.toNat 0x2000
  · rw [readRegister_of_ifWindow hlo hhi, historyReg_eq_none hinv.1 hif]
  · rw [readRegister_of_afWindow hhi, historyReg_eq_none hinv.2 haf]

end

/-! ## The answer -/

/-- CSR.READ answers ILLEGAL where there is no register, in either mode and while halted, and changes
nothing else. -/
theorem exec_csrRead_of_no_register {s : State} {r : Request} {rs : List Request} {a : BitVec 16}
    (hw : s.waiting .direct = r :: rs) (hnone : readRegister s a = none) :
    exec (.csrRead a) s = .next (answered .direct .illegal .none rs s) := by
  have hown (own : State) : checked (.csrRead a) s own = own := checked_own (.inr rfl) rfl rfl
  rw [← respond_eq_answered _ _ _ _ r rs hw]
  simp only [exec, execCsrRead, hown, hnone]

/-- Settles O46: an address in a window shows the entry of its index, and one in neither window lies past
the fixed registers. -/
theorem csrReadHistoriesAndHoles : Obligations.CsrReadHistoriesAndHoles := by
  intro s r rs a hw hinv _ hmax _ _
  exact ⟨fun _ _ ha hi => exec_csrRead_of_register hw (readRegister_ifHist hinv hmax ha hi),
    fun _ _ ha hi => exec_csrRead_of_register hw (readRegister_afHist hinv ha hi),
    fun hfixed hif haf =>
      exec_csrRead_of_no_register hw (readRegister_eq_none hinv hfixed hif haf)⟩

end Sys2Proof.Machine
end

section
/-! PROOFS. The checks of every port operation and the fatal halt (60_exceptions.md R234 to R241): when HALTED,
MODE and STOPPED are answered, and what a halted block keeps. Settles O9, O10, O11 and O50. -/

namespace Sys2Proof.Machine

/-! ## The own part of an operation (R238) -/

/-- No response was added, or one whose status is not MODE. -/
def NoModeAnswer (s t : State) : Prop := ∀ p res, t.responses ≠ s.responses ++ [⟨p, .mode, res⟩]

section

variable {s t : State}

theorem noModeAnswer_of_same_responses (h : t.responses = s.responses) : NoModeAnswer s t := by
  simp [NoModeAnswer, h]

theorem noModeAnswer_respond {p : Port} {st : Status} {res : Result}
    (h : t.responses = s.responses) (hst : st ≠ .mode) : NoModeAnswer s (respond p st res t) := by
  simp [NoModeAnswer, h, hst]

theorem noModeAnswer_acceptCommand (i : Instr) (s : State) : NoModeAnswer s (acceptCommand i s) := by
  obtain ⟨-, h⟩ | ⟨-, -, h⟩ := acceptCommand_cases i s <;> rw [h] <;>
    exact noModeAnswer_respond rfl nofun

theorem noModeAnswer_fillStep (c l : Nat) (s : State) : NoModeAnswer s (fillStep c l s) := by
  unfold fillStep
  split_ifs
  · obtain ⟨-, -, h⟩ | ⟨-, -, h⟩ | ⟨x, q, -, -, h⟩ | ⟨x, q, -, -, h⟩ := fillTopUp_cases s <;> rw [h]
    · exact noModeAnswer_of_same_responses rfl
    · exact noModeAnswer_respond rfl nofun
    · exact noModeAnswer_respond rfl nofun
    · exact noModeAnswer_of_same_responses rfl
  · split
    next out t h =>
      rw [(fillOutput_frame h).2]
      exact noModeAnswer_respond rfl nofun
    next => exact noModeAnswer_respond rfl nofun

end

/-- Every operation makes the checks first, and its own part never answers MODE. -/
theorem exec_eq_checked (i : Instr) (s : State) :
    ∃ own, exec i s = .next (checked i s own) ∧ NoModeAnswer s own := by
  cases i with
  | cmdAm | cmdAgc | cmdAf | cmdRssi | cmdIfout | cmdEnd =>
    exact ⟨_, rfl, noModeAnswer_acceptCommand _ s⟩
  | firSelIf | firSelAf | firRunIf | firRunAf | agcSel | agcRun | envRun | ncoGen | ifClose =>
    exact ⟨_, rfl, noModeAnswer_respond rfl nofun⟩
  | ncoInit | ifSend =>
    refine ⟨_, rfl, ?_⟩
    extract_lets
    split_ifs <;> exact noModeAnswer_respond rfl nofun
  | rbPush =>
    refine ⟨_, rfl, ?_⟩
    split
    next t h =>
      rw [(rbPushChunk_some h).2]
      exact noModeAnswer_respond rfl nofun
    next => exact noModeAnswer_respond rfl nofun
  | rbPop =>
    refine ⟨_, rfl, ?_⟩
    split
    next v t h =>
      rw [(rbPopSample_some h).2.2]
      exact noModeAnswer_respond rfl nofun
    next => exact noModeAnswer_respond rfl nofun
  | rbFill c l => exact ⟨_, rfl, noModeAnswer_fillStep _ _ s⟩
  | csrRead =>
    refine ⟨_, rfl, ?_⟩
    split <;> exact noModeAnswer_respond rfl nofun

/-! ## HALTED (R237) -/

/-- CSR.READ is the one operation a halted block admits. -/
theorem admittedHalted_iff {i : Instr} : admittedHalted i = true ↔ ∃ a, i = .csrRead a := by
  cases i <;> simp [admittedHalted]

theorem exec_of_halted {i : Instr} {s : State} (hf : s.fatal = true) (hi : admittedHalted i = false) :
    exec i s = .next (respond i.port .halted .none s) := by
  obtain ⟨own, h, -⟩ := exec_eq_checked i s
  rw [h, checked_halted hf hi]

/-- Settles O9: the first check answers, CSR.READ excepted, which reads the register in any state. -/
theorem haltedBlockAnswersHalted : Obligations.HaltedBlockAnswersHalted := by
  refine ⟨fun i s rs r hf hi hw => ?_, fun a s rs r v _ hw =>
    ⟨exec_csrRead_of_register hw, exec_csrRead_of_no_register hw⟩⟩
  have hnot : admittedHalted i = false :=
    Bool.eq_false_iff.2 fun h => (admittedHalted_iff.1 h).elim hi
  rw [exec_of_halted hf hnot, respond_eq_answered _ _ _ _ r rs hw]

/-! ## MODE (R234) -/

/-- The mode admits all but the operations of the other three ports in DIRECT mode and those of the direct
port in CHAIN mode, four excepted. -/
theorem admittedIn_eq_false_iff {i : Instr} {m : Mode} : admittedIn i m = false ↔
    (i.port ≠ .direct ∧ m = .direct) ∨ (¬ i.port ≠ .direct ∧
      ¬ (i = .envRun ∨ (∃ f, i = .ncoInit f) ∨ i = .ncoGen ∨ ∃ a, i = .csrRead a) ∧ m = .chain) := by
  cases i <;> cases m <;> simp [admittedIn, Instr.port]

/-- Settles O10: the check of the mode answers MODE, and nothing after it does. -/
theorem modeRefusal : Obligations.ModeRefusal := by
  intro i s r rs hf hwf hw
  obtain ⟨own, hexec, hown⟩ := exec_eq_checked i s
  refine ⟨fun hrefused => ?refused, fun hadmitted t ht => ?admitted⟩
  case refused =>
    rw [hexec, checked_mode (.inl hf) hwf (admittedIn_eq_false_iff.2 hrefused),
      respond_eq_answered _ _ _ _ r rs hw]
  case admitted =>
    have hm : admittedIn i s.mode = true :=
      Bool.of_not_eq_false fun h => hadmitted (admittedIn_eq_false_iff.1 h)
    rw [hexec, checked_own (.inl hf) hwf hm] at ht
    cases ht
    exact hown _ _

/-! ## STOPPED (R235) -/

section

variable {s : State} {r : Request} {rs : List Request} (hf : s.fatal = false) (hm : s.mode = .chain)

include hf hm

theorem checked_acceptCommand_of_stopped {i : Instr} (hw : s.waiting .command = r :: rs)
    (hwf : i.wf = true) (hi : admittedIn i .chain = true)
    (hstop : s.cmdClosed = true ∨ s.seqState = .stopped) :
    checked i s (acceptCommand i s) = answered .command .stopped .none rs s := by
  have hrefuse : (s.cmdClosed || s.seqState == .stopped) = true := by simpa using hstop
  rw [acceptCommand, if_pos hrefuse, checked_respond hf hw hwf (hm ▸ hi) _ _ rfl]

theorem exec_ifSend_of_stopped (hw : s.waiting .capture = r :: rs)
    (hstop : s.capClosed = true ∨ s.seqState = .stopped) :
    exec .ifSend s = .next (answered .capture .stopped .none rs s) := by
  have hrefuse : (s.capClosed || s.seqState == .stopped) = true := by simpa using hstop
  rw [exec, execIfSend, if_pos hrefuse]
  exact congrArg _ (checked_respond hf hw (i := .ifSend) rfl (beq_iff_eq.2 hm) _ _ rfl)

end

/-- Settles O11: the six commands share one acceptance. -/
theorem stoppedRefusal : Obligations.StoppedRefusal := by
  refine ⟨fun i s r rs hi hf hm hw hstop => ?_, fun s r rs hf hm hw hstop =>
    exec_ifSend_of_stopped hf hm hw hstop⟩
  cases i with
  | cmdAm | cmdAgc | cmdAf | cmdRssi | cmdIfout | cmdEnd =>
    exact congrArg Host.Outcome.next (checked_acceptCommand_of_stopped hf hm hw rfl rfl hstop)
  | firSelIf | firSelAf | firRunIf | firRunAf | agcSel | agcRun | envRun | ncoInit | ncoGen | rbPush
  | rbPop | rbFill | ifSend | ifClose | csrRead => cases hi

/-! ## The halt lasts (R241) -/

/-- What a halted block may answer: HALTED, or on the direct port what CSR.READ answers. -/
def HaltedAnswer (r : Response) : Prop :=
  r.status = .halted ∨ r.port = .direct ∧ (r.status = .ok ∨ r.status = .illegal)

/-- Only the requests and the responses changed, by at most one answer of a halted block. -/
structure StaysHalted (s t : State) : Prop where
  frame : t = { s with pending := t.pending, responses := t.responses }
  answer : t.responses = s.responses ∨ ∃ r, t.responses = s.responses ++ [r] ∧ HaltedAnswer r

section

variable {s t : State}

theorem staysHalted_respond {p : Port} {st : Status} {res : Result} (s : State)
    (h : HaltedAnswer ⟨p, st, res⟩) : StaysHalted s (respond p st res s) :=
  ⟨rfl, .inr ⟨_, rfl, h⟩⟩

theorem StaysHalted.haltedAnswer (h : StaysHalted s t) {r : Response}
    (hr : t.responses = s.responses ++ [r]) : HaltedAnswer r := by
  obtain hsame | ⟨r', hr', hans⟩ := h.answer
  · simp [hsame] at hr
  · obtain rfl : r' = r := by simpa [hr'] using hr
    exact hans

theorem arrive_staysHalted (p : Port) (r : Request) (s : State) : StaysHalted s (arrive p r s) := by
  unfold arrive
  split_ifs <;> exact ⟨rfl, .inl rfl⟩

theorem exec_csrRead_staysHalted (a : BitVec 16) (s : State) :
    ∃ t, exec (.csrRead a) s = .next t ∧ StaysHalted s t := by
  refine ⟨_, congrArg Host.Outcome.next (checked_own (.inr rfl) rfl rfl), ?_⟩
  split
  · exact staysHalted_respond s (.inr ⟨rfl, .inl rfl⟩)
  · exact staysHalted_respond s (.inr ⟨rfl, .inr rfl⟩)

theorem exec_staysHalted (i : Instr) (hf : s.fatal = true) :
    ∃ t, exec i s = .next t ∧ StaysHalted s t := by
  cases hi : admittedHalted i with
  | false => exact ⟨_, exec_of_halted hf hi, staysHalted_respond s (.inl rfl)⟩
  | true =>
    obtain ⟨a, rfl⟩ := admittedHalted_iff.1 hi
    exact exec_csrRead_staysHalted a s

theorem refuseWord_staysHalted (p : Port) (w : OpWord) (hf : s.fatal = true) :
    StaysHalted s (refuseWord p w s) := by
  obtain ⟨h, -⟩ | ⟨-, hrun, -⟩ | ⟨h, hread, -⟩ := refuseWord_cases p w s
  · rw [h]
    exact staysHalted_respond s (.inl rfl)
  · simp [hf] at hrun
  · have hp : p = .direct := by
      simp only [hf, isRegisterReadWord, Bool.and_eq_true, beq_iff_eq] at hread
      simpa using hread.imp_right And.left
    rw [h]
    exact staysHalted_respond s (.inr ⟨hp, .inr rfl⟩)

theorem portStep_staysHalted (p : Port) (hf : s.fatal = true) :
    ∃ t, portStep p s = .next t ∧ StaysHalted s t := by
  obtain ⟨-, h⟩ | ⟨r, rs, i, -, -, -, h⟩ | ⟨r, rs, -, -, h⟩ := portStep_cases p s <;> rw [h]
  · exact ⟨s, rfl, rfl, .inl rfl⟩
  · exact exec_staysHalted i hf
  · exact ⟨_, rfl, refuseWord_staysHalted p r.word hf⟩

/-- Every input but reset leaves a halted block halted. -/
theorem staysHalted_of_step (hf : s.fatal = true) (hreset : nextInput s ≠ .reset)
    (hst : step s = .next t) : StaysHalted (takeInput s) t := by
  obtain ⟨p, r, -, h⟩ | ⟨p, -, h⟩ | ⟨f1, f2, -, h⟩ | ⟨he, -⟩ := step_cases s
  case inr.inr.inr => exact absurd he hreset
  all_goals rw [h] at hst
  · cases hst
    exact arrive_staysHalted p r _
  · obtain ⟨u, hu, hstays⟩ := portStep_staysHalted (s := takeInput s) p hf
    rw [hu] at hst
    cases hst
    exact hstays
  · rw [sequencerStep_of_not_enabled (by simp [hf])] at hst
    cases hst
    exact ⟨rfl, .inl rfl⟩

end

/-- Settles O50: the state with its input taken differs from the one before in the script and the count. -/
theorem haltLastsUntilReset : Obligations.HaltLastsUntilReset := by
  intro s t hf hreset hst
  have hstays := staysHalted_of_step hf hreset hst
  exact ⟨hstays.frame, fun _ hr => hstays.haltedAnswer hr⟩

end Sys2Proof.Machine
end

section
/-! PROOFS. Reset (10_state.md R44, 70_reset_and_hazards.md R260, R261): the value of every field after it, and
what the reset input does to the machine. Settles O48 and O49. -/

namespace Sys2Proof.Machine

/-- Settles O48: the history of a filter holds one zero for each tap of its table. -/
theorem resetState : Obligations.ResetState := by
  intro c
  simp only [State.resetWith, Params.ifTaps, Params.afTaps, and_self]

/-- The reset input takes effect whatever the block is doing (R260). -/
theorem step_of_reset {s : State} (h : nextInput s = .reset) :
    step s = .next (assertReset (takeInput s)) := by
  rw [step, h, respondToInput]

/-- Settles O49: reset keeps the script and the step count of the state whose input is already taken. -/
theorem resetInputResets : Obligations.ResetInputResets := by
  intro s h
  rw [step_of_reset h, assertReset, takeInput_cfg, takeInput_responses, takeInput_events,
    takeInput_script, takeInput_tick]

end Sys2Proof.Machine
end
